-- ==== Sys2Proof/Word.lean ====
section
/-! DEFINITION. The word types of GF2GJ: the byte, the 32-bit bus and command word, the 22-bit
byte offset inside the aperture (00_scope.md R9). -/

namespace Sys2Proof

/-- One byte lane of the bus (20_memory.md R65). -/
abbrev Byte := BitVec 8

/-- The 32-bit bus data word and command word (00_scope.md R9). -/
abbrev Word := BitVec 32

/-- A byte offset inside the 4 MiB aperture (00_scope.md R9, 20_memory.md R60). -/
abbrev Offset := BitVec 22

end Sys2Proof
end

