-- ==== Sys2Proof/Syntax.lean ====
section
/-! DEFINITION. The nine commands of GF2GJ, one constructor per row of the opcode map
(30_encoding.md R96), with the operands of R93 and R94 as the numbers they stand for. -/

namespace Sys2Proof

/-- A command. ROWS and COLS are plain unsigned counts (30_encoding.md R93); IA and IB are
signed integers (R94, R99). -/
inductive Instr where
  /-- ELIM, Gauss-Jordan elimination of an m x k matrix (41_elimination.md R150). -/
  | elim (rows cols : Nat)
  /-- INV, inversion of an n x n matrix and null-space extraction (42_inversion.md R180). -/
  | inv (rows cols : Nat)
  /-- GADD (40_gf2_scalar.md R122). -/
  | gadd (ia ib : Int)
  /-- GSUB (40_gf2_scalar.md R123). -/
  | gsub (ia ib : Int)
  /-- GMUL (40_gf2_scalar.md R124). -/
  | gmul (ia ib : Int)
  /-- GDIV (40_gf2_scalar.md R125). -/
  | gdiv (ia ib : Int)
  /-- GCEQ (40_gf2_scalar.md R126). -/
  | gceq (ia ib : Int)
  /-- GCLT (40_gf2_scalar.md R127). -/
  | gclt (ia ib : Int)
  /-- GCLE (40_gf2_scalar.md R128). -/
  | gcle (ia ib : Int)
  deriving DecidableEq, Repr

end Sys2Proof
end

