-- ==== Sys2Proof/WellFormed.lean ====
section
/-! DEFINITION. Which commands the encoding can carry: the operand ranges of 30_encoding.md R99
(the 12-bit counts of R93, the 8-bit two's-complement immediates of R94). A shape that ELIM or
INV refuses is well formed: it completes with SHAPE (R93). -/

namespace Sys2Proof

/-- A count that ROWS or COLS can hold: 0 to 4095 (30_encoding.md R93, R99). -/
def countFits (n : Nat) : Bool := decide (n < 4096)

/-- An integer that IA or IB can hold: -128 to 127 (30_encoding.md R94, R99). -/
def immediateFits (x : Int) : Bool := decide (-128 ≤ x) && decide (x ≤ 127)

/-- An operand out of range is an assembly error, not a command (30_encoding.md R99). -/
def Instr.wellFormed : Instr → Bool
  | .elim rows cols => countFits rows && countFits cols
  | .inv rows cols => countFits rows && countFits cols
  | .gadd ia ib => immediateFits ia && immediateFits ib
  | .gsub ia ib => immediateFits ia && immediateFits ib
  | .gmul ia ib => immediateFits ia && immediateFits ib
  | .gdiv ia ib => immediateFits ia && immediateFits ib
  | .gceq ia ib => immediateFits ia && immediateFits ib
  | .gclt ia ib => immediateFits ia && immediateFits ib
  | .gcle ia ib => immediateFits ia && immediateFits ib

end Sys2Proof
end

