-- ==== Sys2Proof/Decode.lean ====
section
/-! DEFINITION. The command decoder of 30_encoding.md R96, total on every 32-bit word, with its
two named rejections (R97), and the encoder written from the same formats (R93, R94). -/

namespace Sys2Proof

/-- Why a word is no command (30_encoding.md R97). Both complete with ILLEGAL. -/
inductive DecodeError where
  /-- OPC is not one of the nine opcodes. -/
  | unknownOpcode (opc : BitVec 8)
  /-- A format S word whose RSV field is not 0. -/
  | reservedField (rsv : BitVec 8)
  deriving DecidableEq, Repr

/-- OPC, bits [31:24] (30_encoding.md R92). -/
def fieldOpc (w : Word) : BitVec 8 := w.extractLsb' 24 8

/-- COLS, bits [23:12] (30_encoding.md R93). -/
def fieldCols (w : Word) : BitVec 12 := w.extractLsb' 12 12

/-- ROWS, bits [11:0] (30_encoding.md R93). -/
def fieldRows (w : Word) : BitVec 12 := w.extractLsb' 0 12

/-- RSV, bits [23:16] (30_encoding.md R94). -/
def fieldRsv (w : Word) : BitVec 8 := w.extractLsb' 16 8

/-- IA, bits [15:8] (30_encoding.md R94). -/
def fieldIa (w : Word) : BitVec 8 := w.extractLsb' 8 8

/-- IB, bits [7:0] (30_encoding.md R94). -/
def fieldIb (w : Word) : BitVec 8 := w.extractLsb' 0 8

/-- A field's value at its place in a 32-bit word, its lowest bit at bit `lo` (00_scope.md R11). -/
def placed {w : Nat} (v : BitVec w) (lo : Nat) : Word := v.setWidth 32 <<< lo

/-- A format M word: both fields are whole, there is nothing to refuse (30_encoding.md R93). -/
def decodeMatrix (mk : Nat → Nat → Instr) (w : Word) : Except DecodeError Instr :=
  .ok (mk (fieldRows w).toNat (fieldCols w).toNat)

/-- A format S word: RSV is checked after the opcode selected the body (30_encoding.md R94, R96). -/
def decodeScalar (mk : Int → Int → Instr) (w : Word) : Except DecodeError Instr :=
  if fieldRsv w = 0#8 then .ok (mk (fieldIa w).toInt (fieldIb w).toInt)
  else .error (.reservedField (fieldRsv w))

/-- The decoder (30_encoding.md R96). -/
def decode (w : Word) : Except DecodeError Instr :=
  if fieldOpc w = 0x10#8 then decodeMatrix .elim w
  else if fieldOpc w = 0x11#8 then decodeMatrix .inv w
  else if fieldOpc w = 0x20#8 then decodeScalar .gadd w
  else if fieldOpc w = 0x21#8 then decodeScalar .gsub w
  else if fieldOpc w = 0x22#8 then decodeScalar .gmul w
  else if fieldOpc w = 0x23#8 then decodeScalar .gdiv w
  else if fieldOpc w = 0x24#8 then decodeScalar .gceq w
  else if fieldOpc w = 0x25#8 then decodeScalar .gclt w
  else if fieldOpc w = 0x26#8 then decodeScalar .gcle w
  else .error (.unknownOpcode (fieldOpc w))

/-- A format M word from its fields (30_encoding.md R93). -/
def encodeMatrix (opc : BitVec 8) (rows cols : Nat) : Word :=
  placed opc 24 ||| placed (BitVec.ofNat 12 cols) 12 ||| placed (BitVec.ofNat 12 rows) 0

/-- A format S word from its fields, RSV = 0 (30_encoding.md R94, R99). -/
def encodeScalar (opc : BitVec 8) (ia ib : Int) : Word :=
  placed opc 24 ||| placed (BitVec.ofInt 8 ia) 8 ||| placed (BitVec.ofInt 8 ib) 0

/-- The opcode of a command (30_encoding.md R96). -/
def opcodeOf : Instr → BitVec 8
  | .elim _ _ => 0x10#8
  | .inv _ _ => 0x11#8
  | .gadd _ _ => 0x20#8
  | .gsub _ _ => 0x21#8
  | .gmul _ _ => 0x22#8
  | .gdiv _ _ => 0x23#8
  | .gceq _ _ => 0x24#8
  | .gclt _ _ => 0x25#8
  | .gcle _ _ => 0x26#8

/-- The word of a command (30_encoding.md R93, R94, R99). -/
def encode (i : Instr) : Word :=
  match i with
  | .elim rows cols => encodeMatrix (opcodeOf i) rows cols
  | .inv rows cols => encodeMatrix (opcodeOf i) rows cols
  | .gadd ia ib => encodeScalar (opcodeOf i) ia ib
  | .gsub ia ib => encodeScalar (opcodeOf i) ia ib
  | .gmul ia ib => encodeScalar (opcodeOf i) ia ib
  | .gdiv ia ib => encodeScalar (opcodeOf i) ia ib
  | .gceq ia ib => encodeScalar (opcodeOf i) ia ib
  | .gclt ia ib => encodeScalar (opcodeOf i) ia ib
  | .gcle ia ib => encodeScalar (opcodeOf i) ia ib

/-- The 32-bit word of an instruction given as the `nbits` low bits of `w`, the bits above
them 0: every command is one 32-bit word (30_encoding.md R90). -/
def commandWord (nbits w : Nat) : Word := BitVec.ofNat 32 (w % 2 ^ nbits)

/-- What the decoder reads from an instruction whose bits are `w`, bit 0 the least significant
(the numbering of the opcode table, which is R11's). -/
def decodeTableWord (nbits w : Nat) : Option Instr :=
  match decode (commandWord nbits w) with
  | .ok i => some i
  | .error _ => none

end Sys2Proof
end

