-- ==== Sys2Proof/Config.lean ====
section
/-! DEFINITION. What an implementation or a platform fixes, and the free values: constants with
no body, for what the spec leaves unspecified (93_implementation_defined.md). -/

namespace Sys2Proof

/-- The least NMAX (00_scope.md R7). -/
def Config.nmaxLeast : Nat := 1

/-- The greatest NMAX (00_scope.md R7). -/
def Config.nmaxGreatest : Nat := 2047

/-- NMAX of the reference instance (00_scope.md R7); the instance of State.reset.
DESIGN CHOICE, notes/assumptions/1.md. -/
def Config.referenceNmax : Nat := 32

/-- The ID register (10_state.md R24). -/
def Config.id : Word := 0x4746324A#32

/-- The VERSION register (10_state.md R31). -/
def Config.version : Word := 0x00010000#32

/-- Bytes of the aperture: 4 MiB (20_memory.md R60). -/
def Config.apertureBytes : Nat := 0x400000

/-- Which multiple of the aperture's size the platform chose for ENGINE_BASE: a platform
parameter left open (20_memory.md R60). notes/assumptions/12.md. -/
opaque Config.engineSlot : Nat

/-- The platform's interrupt line that irq drives: left open (60_exceptions.md R230).
notes/assumptions/12.md. -/
opaque Config.irqLine : Nat

/-- FREE VALUE: the bytes that the n-th draw gives the RAM, by aperture offset: the output
footprint of a command on unwritten operands (70_reset_and_hazards.md R255).
notes/assumptions/4.md and 5.md. -/
opaque Config.freeByte : Nat → Nat → Byte

/-- FREE VALUE: the word that the n-th draw gives a host read: of unwritten bits
(70_reset_and_hazards.md R255) or of a window while BUSY = 1 (20_memory.md R73).
notes/assumptions/4.md. -/
opaque Config.freeWord : Nat → Word

/-- FREE VALUE: the NULLDIM that the n-th draw gives a command on unwritten operands
(70_reset_and_hazards.md R255). notes/assumptions/5.md. -/
opaque Config.freeNulldim : Nat → BitVec 12

end Sys2Proof
end

