-- ==== Sys2Proof/Machine/State.lean ====
section
/-! DEFINITION. The state of GF2GJ: everything 10_state.md R20 lists and 70_reset_and_hazards.md
adds (the reset input, the written marks), and the model's own fields, marked so. Plain data. -/

namespace Sys2Proof.Machine

open Sys2Proof

/-- Why the machine would stop with a fault. No constructor: the spec stops the machine nowhere.
A failing command completes with a code in STATUS (60_exceptions.md R220, R224), and a refused
bus access gets an ERROR response with no state change (20_memory.md R74). -/
inductive Fault
  deriving DecidableEq, Repr

/-- Why a step would be refused. -/
inductive Refusal where
  /-- Raised by the arm of exec of an instruction that has no meaning yet, none in this model.
  Safe: nothing is claimed of a refused step. -/
  | notModelled (mnemonic : String)
  deriving DecidableEq, Repr

/-- The error codes a command can raise (60_exceptions.md R210). Codes 4 to 15 are never
produced, so no name stands for one; code 0 (NONE) is no error. -/
inductive ErrorCode where
  /-- An illegal encoding (60_exceptions.md R211). -/
  | illegal
  /-- A refused matrix shape (60_exceptions.md R212). -/
  | shape
  /-- GDIV by 0 (60_exceptions.md R213). -/
  | divzero
  deriving DecidableEq, Repr

/-- The response of a bus transaction (20_memory.md R61). -/
inductive Resp where
  | okay
  | error
  deriving DecidableEq, Repr

/-- What the bus port answered last (20_memory.md R61). MODEL's own field type,
notes/assumptions/8.md. -/
inductive Answer where
  /-- No transaction has been answered yet. -/
  | none
  /-- A transaction that arrived while reset was asserted: the bus serves none
  (70_reset_and_hazards.md R250). notes/assumptions/7.md. -/
  | notServed
  /-- The answer of a Read. -/
  | read (resp : Resp) (data : Word)
  /-- The answer of a Write. -/
  | write (resp : Resp)
  deriving DecidableEq, Repr

/-- What can come next in the serialized stream of 20_memory.md R77. MODEL's own field type,
notes/assumptions/2.md. -/
inductive Event where
  /-- A host transaction Read(a, size) (20_memory.md R61). -/
  | read (a : Offset) (size : Nat)
  /-- A host transaction Write(a, size, data) (20_memory.md R61). -/
  | write (a : Offset) (size : Nat) (data : Word)
  /-- The reset input is driven to a level, true while asserted (70_reset_and_hazards.md R250). -/
  | resetInput (asserted : Bool)
  /-- The engine gets its turn: it completes the pending command, if there is one
  (10_state.md R37). -/
  | engine
  deriving DecidableEq, Repr

/-- The STATUS register's fields (10_state.md R27); its reserved bits read 0 and are no state. -/
structure Status where
  busy : Bool
  done : Bool
  err : Bool
  ovr : Bool
  haz : Bool
  errcode : BitVec 4
  deriving DecidableEq, Repr

/-- STATUS after reset (70_reset_and_hazards.md R251). -/
def Status.reset : Status :=
  { busy := false, done := false, err := false, ovr := false, haz := false, errcode := 0#4 }

/-- The RAM bits of the aperture (W and NV), by byte offset: `bytes` lists the bytes that hold
at least one written bit, `marks` lists for the same offsets which of their bits are written
(70_reset_and_hazards.md R255). An offset listed in neither holds no written bit.
notes/assumptions/11.md. -/
structure Memory where
  bytes : List Host.Cell
  marks : List Host.Cell
  deriving DecidableEq, Repr

/-- The RAMs after a hardware reset: every bit unwritten (70_reset_and_hazards.md R250). -/
def Memory.blank : Memory := { bytes := [], marks := [] }

/-- The state of the machine (10_state.md R20). -/
structure State where
  /-- The parameter NMAX that CONFIG reports (00_scope.md R7, 10_state.md R25). -/
  nmax : Nat
  /-- CMD (10_state.md R26). -/
  cmd : Word
  /-- STATUS (10_state.md R27). -/
  status : Status
  /-- NULLDIM, bits [11:0] (10_state.md R28). -/
  nulldim : BitVec 12
  /-- SRES.RES (10_state.md R29). -/
  sres : Bool
  /-- CTRL.IE (10_state.md R30). -/
  ie : Bool
  /-- W and NV (10_state.md R33, R34). -/
  mem : Memory
  /-- The reset input, true while asserted (70_reset_and_hazards.md R250). -/
  resetLine : Bool
  /-- MODEL's own: the serialized stream still to come (20_memory.md R77), first item next. -/
  events : List Event
  /-- MODEL's own: what the bus port answered last (20_memory.md R61). -/
  answer : Answer
  /-- MODEL's own: how many free values have been drawn. -/
  draws : Nat
  deriving DecidableEq, Repr

/-- The instance with a given NMAX right after a hardware reset (70_reset_and_hazards.md R251). -/
def State.resetFor (nmax : Nat) : State :=
  { nmax := nmax
    cmd := 0#32
    status := Status.reset
    nulldim := 0#12
    sres := false
    ie := false
    mem := Memory.blank
    resetLine := false
    events := []
    answer := .none
    draws := 0 }

/-- The reference instance right after a hardware reset. notes/assumptions/1.md. -/
def State.reset : State := State.resetFor Config.referenceNmax

end Sys2Proof.Machine
end

