-- ==== Sys2Proof/Machine/Ops.lean ====
section
/-! DEFINITION. The named operations over the RAM cells and the registers: reading and writing
cells, reading and writing a footprint of bits, how a command completes with and without an
error, how a command is accepted, the two resets. -/

namespace Sys2Proof.Machine

open Sys2Proof

/-! ### Cells -/

/-- The byte listed at an address, if one is. -/
def cellGet : List Host.Cell → Nat → Option Byte
  | [], _ => none
  | c :: rest, a => if c.1 = a then some c.2 else cellGet rest a

/-- List a byte at an address, keeping the addresses rising. -/
def cellSet : List Host.Cell → Nat → Byte → List Host.Cell
  | [], a, b => [(a, b)]
  | c :: rest, a, b =>
    if c.1 < a then c :: cellSet rest a b
    else if c.1 = a then (a, b) :: rest
    else (a, b) :: c :: rest

/-- List nothing at an address. -/
def cellErase (cells : List Host.Cell) (a : Nat) : List Host.Cell :=
  cells.filter fun c => c.1 != a

/-- The addresses strictly rise. -/
def rising : List Nat → Bool
  | [] => true
  | [_] => true
  | a :: b :: rest => decide (a < b) && rising (b :: rest)

/-! ### Memory -/

/-- What an unlisted offset reads as: no bit of it is written, so no bit of it has a value
(70_reset_and_hazards.md R255). The pair is (value, written mark). notes/assumptions/11.md. -/
def Memory.unlisted : Byte × Byte := (0#8, 0#8)

/-- The stored values of the byte at an offset; a bit counts only where it is marked written. -/
def Memory.value (m : Memory) (a : Nat) : Byte := (cellGet m.bytes a).getD Memory.unlisted.1

/-- Which bits of the byte at an offset are written (70_reset_and_hazards.md R255). -/
def Memory.mark (m : Memory) (a : Nat) : Byte := (cellGet m.marks a).getD Memory.unlisted.2

/-- Bit j of the byte at an offset: its value, or none while it is unwritten. -/
def Memory.bit (m : Memory) (a j : Nat) : Option Bool :=
  if (m.mark a).getLsbD j then some ((m.value a).getLsbD j) else none

/-- Give the byte at an offset the values `v` in the bits of `k` and leave its other bits
unwritten; a byte with no written bit is not listed. -/
def Memory.put (m : Memory) (a : Nat) (v k : Byte) : Memory :=
  if k = 0#8 then { bytes := cellErase m.bytes a, marks := cellErase m.marks a }
  else { bytes := cellSet m.bytes a (v &&& k), marks := cellSet m.marks a k }

/-- Write the bits of `k` in the byte at an offset with their values in `v`. -/
def Memory.merge (m : Memory) (a : Nat) (v k : Byte) : Memory :=
  m.put a ((m.value a &&& ~~~k) ||| (v &&& k)) (m.mark a ||| k)

/-- Make the bits of `k` in the byte at an offset unwritten. -/
def Memory.forget (m : Memory) (a : Nat) (k : Byte) : Memory :=
  m.put a (m.value a) (m.mark a &&& ~~~k)

/-- The canonical form: both lists name the same offsets, strictly rising, every listed byte has
a written bit, and an unwritten bit of a listed byte is held as 0. -/
def Memory.wf (m : Memory) : Bool :=
  (m.bytes.map Prod.fst == m.marks.map Prod.fst) && rising (m.marks.map Prod.fst)
    && m.marks.all (fun c => c.2 != 0#8)
    && m.bytes.all (fun c => (c.2 &&& ~~~(m.mark c.1)) == 0#8)

/-! ### Footprints: sets of RAM bits, as (offset, mask) cells -/

/-- Write every bit of a footprint; `f` gives the new byte at each offset. -/
def Memory.writeFoot (m : Memory) (foot : List Host.Cell) (f : Nat → Byte) : Memory :=
  foot.foldl (fun m c => m.merge c.1 (f c.1) c.2) m

/-- Make every bit of a footprint unwritten. -/
def Memory.forgetFoot (m : Memory) (foot : List Host.Cell) : Memory :=
  foot.foldl (fun m c => m.forget c.1 c.2) m

/-- Every bit of a footprint is written. -/
def Memory.footWritten (m : Memory) (foot : List Host.Cell) : Bool :=
  foot.all fun c => (m.mark c.1 &&& c.2) == c.2

/-- Bit j of the byte at an offset lies in a footprint. -/
def inFoot (foot : List Host.Cell) (a j : Nat) : Bool :=
  foot.any fun c => (c.1 == a) && c.2.getLsbD j

/-! ### Completion, with and without an error -/

/-- The code of an error as STATUS.ERRCODE holds it (60_exceptions.md R210). -/
def ErrorCode.code : ErrorCode → BitVec 4
  | .illegal => 1#4
  | .shape => 2#4
  | .divzero => 3#4

/-- `complete`: the pending command ends without an error (10_state.md R37). -/
def State.complete (s : State) : State :=
  { s with status := { s.status with busy := false, done := true } }

/-- `raise`: the pending command ends with an error and changes nothing but STATUS.BUSY, DONE,
ERR and ERRCODE (10_state.md R37, 60_exceptions.md R220, R224). This is the engine's whole error
entry: it vectors nowhere, saves nothing and changes no mode. -/
def State.raise (e : ErrorCode) (s : State) : State :=
  { s with status := { s.status with busy := false, done := true, err := true, errcode := e.code } }

/-- CTRL.ACK, the host's part of an error's return (60_exceptions.md R225): clears DONE and
leaves ERR and ERRCODE (10_state.md R30). -/
def State.acknowledge (s : State) : State :=
  { s with status := { s.status with done := false } }

/-- CTRL.CLRSTK (10_state.md R30). -/
def State.clearSticky (s : State) : State :=
  { s with status := { s.status with ovr := false, haz := false } }

/-! ### Acceptance -/

/-- A CMD write while idle: the word becomes the pending command (10_state.md R36, second
branch). -/
def State.accept (v : Word) (s : State) : State :=
  { s with
    cmd := v
    status := { s.status with busy := true, done := false, err := false, errcode := 0#4 } }

/-- A CMD write while busy: the word is discarded (10_state.md R36 first branch, R39). -/
def State.overrun (s : State) : State :=
  { s with status := { s.status with ovr := true } }

/-- A window access while busy (10_state.md R40). -/
def State.hazard (s : State) : State :=
  { s with status := { s.status with haz := true } }

/-- The word of the pending command, if there is one (10_state.md R35). -/
def State.pending (s : State) : Option Word :=
  if s.status.busy then some s.cmd else none

/-! ### Resets -/

/-- Every CSR at its reset value (70_reset_and_hazards.md R251, R252). -/
def State.resetCsrs (s : State) : State :=
  { s with cmd := 0#32, status := Status.reset, nulldim := 0#12, sres := false, ie := false }

/-- The reset state of a hardware reset: every CSR at its reset value, no pending command, every
RAM bit unwritten (70_reset_and_hazards.md R250). -/
def State.hardwareReset (s : State) : State :=
  { s.resetCsrs with mem := Memory.blank }

/-- The reset input is driven to a level: the engine is in the reset state while it is asserted
and when it is released (70_reset_and_hazards.md R250). -/
def State.driveReset (asserted : Bool) (s : State) : State :=
  if asserted || s.resetLine then { s.hardwareReset with resetLine := asserted } else s

end Sys2Proof.Machine
end

