-- ==== Sys2Proof/Machine/Operands.lean ====
section
/-! DEFINITION. Operands: the GF(2) value of an immediate, the layout of W and NV in the
aperture, the footprints of the matrix commands, the shape checks, and reading a matrix out of
the RAM cells as rows of bits. -/

namespace Sys2Proof.Machine

open Sys2Proof

/-! ### Scalar operands -/

/-- The GF(2) value of an integer, `x mod 2` with the floored remainder (30_encoding.md R95,
00_scope.md R14). -/
def gf2OfInt (x : Int) : Bool := decide (x % 2 = 1)

/-- The integer a GF(2) value holds, 0 or 1 (40_gf2_scalar.md R121). -/
def gf2ToInt (a : Bool) : Int := if a then 1 else 0

/-! ### Derived parameters (00_scope.md R8) -/

/-- WPR_W, 32-bit words per row of W. -/
def wprW (nmax : Nat) : Nat := (2 * nmax + 31) / 32

/-- WPR_N, 32-bit words per row of NV. -/
def wprN (nmax : Nat) : Nat := (nmax + 31) / 32

/-- W_BYTES, mapped bytes of the W window. -/
def wBytes (nmax : Nat) : Nat := 4 * nmax * wprW nmax

/-- NV_BYTES, mapped bytes of the NV window. -/
def nvBytes (nmax : Nat) : Nat := 4 * nmax * wprN nmax

/-! ### Layout (20_memory.md R62 to R65) -/

/-- First offset of the W window. -/
def wBase : Nat := 0x100000

/-- First offset of the NV window. -/
def nvBase : Nat := 0x200000

/-- Bytes from one row of W to the next (20_memory.md R63). -/
def wStride (nmax : Nat) : Nat := 4 * wprW nmax

/-- Bytes from one row of NV to the next (20_memory.md R64). -/
def nvStride (nmax : Nat) : Nat := 4 * wprN nmax

/-- The byte offset that holds `W[r][c]` (20_memory.md R63, R65); the bit in it is `c mod 8`. -/
def wAddr (nmax r c : Nat) : Nat := wBase + wStride nmax * r + c / 8

/-- The byte offset that holds `NV[t][c]` (20_memory.md R64, R65); the bit in it is `c mod 8`. -/
def nvAddr (nmax t c : Nat) : Nat := nvBase + nvStride nmax * t + c / 8

/-- `W[r][c]`: its value, or none while it is unwritten (10_state.md R33). -/
def State.w (s : State) (r c : Nat) : Option Bool := s.mem.bit (wAddr s.nmax r c) (c % 8)

/-- `NV[t][c]`: its value, or none while it is unwritten (10_state.md R34). -/
def State.nv (s : State) (t c : Nat) : Option Bool := s.mem.bit (nvAddr s.nmax t c) (c % 8)

/-- The regions of the address map (20_memory.md R62); the unmapped tails of the two windows are
unmapped too. -/
inductive Region where
  | csr
  | wWindow
  | nvWindow
  | unmapped
  deriving DecidableEq, Repr

/-- The region of an offset (20_memory.md R62). -/
def regionOf (nmax a : Nat) : Region :=
  if a < 0x100 then .csr
  else if wBase ≤ a ∧ a < wBase + wBytes nmax then .wWindow
  else if nvBase ≤ a ∧ a < nvBase + nvBytes nmax then .nvWindow
  else .unmapped

/-- The aperture offset of a host address, if the address lies in the engine's aperture at
ENGINE_BASE (20_memory.md R60). notes/assumptions/12.md. -/
def apertureOffset (addr : Nat) : Option Offset :=
  let base := Config.engineSlot * Config.apertureBytes
  if base ≤ addr ∧ addr < base + Config.apertureBytes then some (BitVec.ofNat 22 (addr - base))
  else none

/-! ### Footprints -/

/-- Byte b of a row: the bits of its columns `8b .. 8b+7` that lie below column k. -/
def colMask (k b : Nat) : Byte :=
  if 8 * b + 8 ≤ k then 0xFF#8
  else if k ≤ 8 * b then 0#8
  else BitVec.ofNat 8 (2 ^ (k - 8 * b) - 1)

/-- Rows [0, m), columns [0, k) of a RAM with the given base and row stride, as cells. -/
def blockFoot (base stride m k : Nat) : List Host.Cell :=
  (List.range m).flatMap fun r =>
    (List.range ((k + 7) / 8)).map fun b => (base + stride * r + b, colMask k b)

/-- W rows [0, m) x columns [0, k) (41_elimination.md R158, 70_reset_and_hazards.md R255). -/
def wFoot (nmax m k : Nat) : List Host.Cell := blockFoot wBase (wStride nmax) m k

/-- All of NV (42_inversion.md R190). -/
def nvFoot (nmax : Nat) : List Host.Cell := blockFoot nvBase (nvStride nmax) nmax nmax

/-- The storage bits of the 32-bit word at a mapped W offset; its padding bits are no storage
(20_memory.md R63, R72). -/
def wWordFoot (nmax a : Nat) : List Host.Cell :=
  (List.range 4).map fun l => (a + l, colMask (2 * nmax) ((a - wBase) % wStride nmax + l))

/-- The storage bits of the 32-bit word at a mapped NV offset (20_memory.md R64, R72). -/
def nvWordFoot (nmax a : Nat) : List Host.Cell :=
  (List.range 4).map fun l => (a + l, colMask nmax ((a - nvBase) % nvStride nmax + l))

/-- Which bits of the byte at an offset are RAM storage (20_memory.md R62, R72). -/
def storageMask (nmax a : Nat) : Byte :=
  match regionOf nmax a with
  | .wWindow => colMask (2 * nmax) ((a - wBase) % wStride nmax)
  | .nvWindow => colMask nmax ((a - nvBase) % nvStride nmax)
  | .csr => 0#8
  | .unmapped => 0#8

/-! ### Shape checks -/

/-- The shapes that ELIM refuses (41_elimination.md R151). -/
def elimShapeBad (nmax m k : Nat) : Bool :=
  decide (m < 1) || decide (m > nmax) || decide (k < 1) || decide (k > 2 * nmax) || decide (m > k)

/-- The shapes that INV refuses (42_inversion.md R181). -/
def invShapeBad (nmax m k : Nat) : Bool :=
  decide (m ≠ k) || decide (m < 1) || decide (m > nmax)

/-! ### Matrices -/

/-- A matrix of m rows of k bits, as the row slices of a RAM; column c is bit c (00_scope.md
R12). -/
abbrev BitMatrix (k : Nat) := List (BitVec k)

/-- The bit at row r, column c; 0 outside the matrix. -/
def BitMatrix.at {k : Nat} (A : BitMatrix k) (r c : Nat) : Bool := (A.getD r 0#k).getLsbD c

/-- n consecutive bytes, the lowest offset least significant (20_memory.md R65). -/
def bytesNat (m : Memory) (a : Nat) : Nat → Nat
  | 0 => 0
  | n + 1 => (m.value a).toNat + 256 * bytesNat m (a + 1) n

/-- Columns [0, k) of the row that starts at an offset. -/
def loadRow (m : Memory) (a k : Nat) : BitVec k := BitVec.ofNat k (bytesNat m a ((k + 7) / 8))

/-- `W[0..rows-1][0..k-1]` (41_elimination.md R150). -/
def State.loadW (s : State) (rows k : Nat) : BitMatrix k :=
  (List.range rows).map fun r => loadRow s.mem (wBase + wStride s.nmax * r) k

/-- Byte b of a row of bits. -/
def rowByte {k : Nat} (row : BitVec k) (b : Nat) : Byte := (row >>> (8 * b)).setWidth 8

/-- The byte that a matrix stored at a base with a row stride puts at an offset. -/
def matrixByte {k : Nat} (A : BitMatrix k) (base stride a : Nat) : Byte :=
  rowByte (A.getD ((a - base) / stride) 0#k) ((a - base) % stride)

/-- A row of k bits from a rule for each column. -/
def packFrom (f : Nat → Bool) (i : Nat) : Nat → Nat
  | 0 => 0
  | n + 1 => (if f i then 1 else 0) + 2 * packFrom f (i + 1) n

/-- The k-bit vector with bit c equal to `f c`. -/
def packRow (k : Nat) (f : Nat → Bool) : BitVec k := BitVec.ofNat k (packFrom f 0 k)

/-- The output footprint of a pending command word that a soft reset aborts
(70_reset_and_hazards.md R253), clipped to W: nothing for a scalar command or an illegal word.
A matrix command of bad shape is taken by the rule's letter, notes/assumptions/6.md. -/
def abortFoot (nmax : Nat) (w : Word) : List Host.Cell :=
  match decode w with
  | .ok (.elim rows cols) => wFoot nmax (min rows nmax) (min cols (2 * nmax))
  | .ok (.inv rows _) => wFoot nmax (min rows nmax) (min (2 * rows) (2 * nmax)) ++ nvFoot nmax
  | .ok (.gadd _ _) => []
  | .ok (.gsub _ _) => []
  | .ok (.gmul _ _) => []
  | .ok (.gdiv _ _) => []
  | .ok (.gceq _ _) => []
  | .ok (.gclt _ _) => []
  | .ok (.gcle _ _) => []
  | .error _ => []

end Sys2Proof.Machine
end

