-- ==== Sys2Proof/Machine/Flags.lean ====
section
/-! DEFINITION. The GF(2) results, the register words the host reads, and the irq level. -/

namespace Sys2Proof.Machine

open Sys2Proof

/-! ### GF(2) arithmetic (40_gf2_scalar.md R121 to R128): computed in the integers, then reduced -/

/-- add(a, b) = (a + b) mod 2 (40_gf2_scalar.md R122). -/
def gf2Add (a b : Bool) : Bool := gf2OfInt (gf2ToInt a + gf2ToInt b)

/-- subtract(a, b) = (a - b) mod 2, floored (40_gf2_scalar.md R123). -/
def gf2Sub (a b : Bool) : Bool := gf2OfInt (gf2ToInt a - gf2ToInt b)

/-- multiply(a, b) = (a * b) mod 2 (40_gf2_scalar.md R124). -/
def gf2Mul (a b : Bool) : Bool := gf2OfInt (gf2ToInt a * gf2ToInt b)

/-- divide(a, b): none when b = 0, else a (40_gf2_scalar.md R125). -/
def gf2Div (a b : Bool) : Option Bool := if b then some a else none

/-- equal, of the integers held (40_gf2_scalar.md R126, R129). -/
def gf2Eq (a b : Bool) : Bool := decide (gf2ToInt a = gf2ToInt b)

/-- less-than, of the integers held (40_gf2_scalar.md R127, R129). -/
def gf2Lt (a b : Bool) : Bool := decide (gf2ToInt a < gf2ToInt b)

/-- less-or-equal, of the integers held (40_gf2_scalar.md R128, R129). -/
def gf2Le (a b : Bool) : Bool := decide (gf2ToInt a ≤ gf2ToInt b)

/-! ### Register words (10_state.md R23 to R32) -/

/-- STATUS as the host reads it (10_state.md R27). -/
def Status.word (st : Status) : Word :=
  placed (BitVec.ofBool st.busy) 0 ||| placed (BitVec.ofBool st.done) 1
    ||| placed (BitVec.ofBool st.err) 2 ||| placed (BitVec.ofBool st.ovr) 3
    ||| placed (BitVec.ofBool st.haz) 4 ||| placed st.errcode 8

/-- CONFIG as the host reads it (10_state.md R25). -/
def configWord (nmax : Nat) : Word :=
  placed (BitVec.ofNat 12 nmax) 0 ||| placed (BitVec.ofNat 8 (wprW nmax)) 12
    ||| placed (BitVec.ofNat 8 (wprN nmax)) 20

/-- The register or reserved word at an offset of the CSR page (10_state.md R23, R32). -/
def State.csrRead (s : State) (a : Nat) : Word :=
  if a = 0x000 then Config.id
  else if a = 0x004 then configWord s.nmax
  else if a = 0x008 then s.cmd
  else if a = 0x00C then s.status.word
  else if a = 0x010 then placed s.nulldim 0
  else if a = 0x014 then placed (BitVec.ofBool s.sres) 0
  else if a = 0x018 then placed (BitVec.ofBool s.ie) 0
  else if a = 0x01C then Config.version
  else 0#32

/-! ### The interrupt -/

/-- The irq output (10_state.md R41, 60_exceptions.md R230). -/
def State.irq (s : State) : Bool := s.status.done && s.ie

/-- The level the engine drives on a line of the platform's interrupt controller
(60_exceptions.md R230). notes/assumptions/12.md. -/
def State.irqOnLine (s : State) (line : Nat) : Bool := decide (line = Config.irqLine) && s.irq

end Sys2Proof.Machine
end

