-- ==== Sys2Proof/Machine/Bus.lean ====
section
/-! DEFINITION. The host's bus transactions: what is refused (20_memory.md R66 to R69, R74), what
a served read returns (R70) and a served write does (R71), the CTRL register (10_state.md R30)
and the soft reset (70_reset_and_hazards.md R253). -/

namespace Sys2Proof.Machine

open Sys2Proof

/-- A transaction refused whatever its offset: not 4 bytes wide, or misaligned (20_memory.md R66,
R67). -/
def badAccess (a : Offset) (size : Nat) : Bool := decide (size ≠ 4) || decide (a.toNat % 4 ≠ 0)

/-- The port's answer is recorded. -/
def State.reply (x : Answer) (s : State) : State := { s with answer := x }

/-- The answer of a refused Read: ERROR and data 0 (20_memory.md R74). -/
def readError : Answer := .read .error 0#32

/-- The answer of a refused Write (20_memory.md R74). -/
def writeError : Answer := .write .error

/-- The four cells of the word at an offset as one 32-bit word of bytes, the lowest offset in
lane 0 (20_memory.md R65). -/
def wordOfBytes (f : Nat → Byte) (a : Nat) : Word :=
  placed (f a) 0 ||| placed (f (a + 1)) 8 ||| placed (f (a + 2)) 16 ||| placed (f (a + 3)) 24

/-- The byte at an offset of a 32-bit word whose lane 0 is at offset a (20_memory.md R65). -/
def laneOf (v : Word) (a b : Nat) : Byte := (v >>> (8 * (b - a))).setWidth 8

/-- The mask a footprint gives a byte offset. -/
def footMask (foot : List Host.Cell) (a : Nat) : Byte := (cellGet foot a).getD 0#8

/-- A window read while idle (20_memory.md R70): written bits read as stored, padding bits as 0
(R72), unwritten bits as the free word (70_reset_and_hazards.md R255). A value is drawn only if
a bit is unwritten. -/
def State.windowRead (foot : List Host.Cell) (a : Nat) (s : State) : State :=
  let stored := wordOfBytes (fun b => s.mem.value b &&& footMask foot b) a
  let open_ := wordOfBytes (fun b => footMask foot b &&& ~~~(s.mem.mark b)) a
  if s.mem.footWritten foot then s.reply (.read .okay stored)
  else { s.reply (.read .okay ((stored &&& ~~~open_) ||| (Config.freeWord s.draws &&& open_)))
         with draws := s.draws + 1 }

/-- A window read while busy: any 32-bit value, and HAZ (20_memory.md R73). -/
def State.windowReadBusy (s : State) : State :=
  { s.hazard.reply (.read .okay (Config.freeWord s.draws)) with draws := s.draws + 1 }

/-- A served read (20_memory.md R70). -/
def State.serveRead (a : Nat) (s : State) : State :=
  match regionOf s.nmax a with
  | .csr => s.reply (.read .okay (s.csrRead a))
  | .wWindow => if s.status.busy then s.windowReadBusy else s.windowRead (wWordFoot s.nmax a) a
  | .nvWindow => if s.status.busy then s.windowReadBusy else s.windowRead (nvWordFoot s.nmax a) a
  | .unmapped => s.reply readError

/-- A host transaction Read(a, size) (20_memory.md R61, R66, R67, R69, R70). None is served while
reset is asserted (70_reset_and_hazards.md R250). -/
def State.busRead (a : Offset) (size : Nat) (s : State) : State :=
  if s.resetLine then s.reply .notServed
  else if badAccess a size then s.reply readError
  else s.serveRead a.toNat

/-- Soft reset (70_reset_and_hazards.md R253). -/
def State.softReset (s : State) : State :=
  match s.pending with
  | some w => { s.resetCsrs with mem := s.mem.forgetFoot (abortFoot s.nmax w) }
  | none => s.resetCsrs

/-- A host write of v to CTRL (10_state.md R30): SRST alone, or IE, ACK and CLRSTK together. -/
def State.ctrlWrite (v : Word) (s : State) : State :=
  if v.getLsbD 31 then s.softReset
  else
    let s1 := { s with ie := v.getLsbD 0 }
    let s2 := if v.getLsbD 1 then s1.acknowledge else s1
    if v.getLsbD 2 then s2.clearSticky else s2

/-- A host write of v to CMD (10_state.md R36). -/
def State.cmdWrite (v : Word) (s : State) : State :=
  if s.status.busy then s.overrun else s.accept v

/-- A host write of v to the CSR page: RO registers and reserved words ignore it (20_memory.md
R71, 10_state.md R23, R32). -/
def State.csrWrite (a : Nat) (v : Word) (s : State) : State :=
  if a = 0x008 then s.cmdWrite v
  else if a = 0x018 then s.ctrlWrite v
  else s

/-- A host write of v to the W window: discarded with HAZ while busy, else the word's storage
bits are written (20_memory.md R71 to R73). -/
def State.wWrite (a : Nat) (v : Word) (s : State) : State :=
  if s.status.busy then s.hazard
  else { s with mem := s.mem.writeFoot (wWordFoot s.nmax a) (laneOf v a) }

/-- A served write, or the refusal of one to NV or to an unmapped offset (20_memory.md R68, R69,
R71). -/
def State.serveWrite (a : Nat) (v : Word) (s : State) : State :=
  match regionOf s.nmax a with
  | .csr => (s.csrWrite a v).reply (.write .okay)
  | .wWindow => (s.wWrite a v).reply (.write .okay)
  | .nvWindow => s.reply writeError
  | .unmapped => s.reply writeError

/-- A host transaction Write(a, size, data) (20_memory.md R61, R66 to R69, R71). None is served
while reset is asserted (70_reset_and_hazards.md R250). -/
def State.busWrite (a : Offset) (size : Nat) (v : Word) (s : State) : State :=
  if s.resetLine then s.reply .notServed
  else if badAccess a size then s.reply writeError
  else s.serveWrite a.toNat v

end Sys2Proof.Machine
end

