-- ==== Sys2Proof/Machine/Elimination.lean ====
section
/-! DEFINITION. Gauss-Jordan elimination (41_elimination.md R152) and the ELIM command. -/

namespace Sys2Proof.Machine

open Sys2Proof

/-- The least row in [r, r + fuel) with a 1 in column i, or i if there is none. -/
def pivotSearch {k : Nat} (A : BitMatrix k) (i : Nat) : Nat → Nat → Nat
  | 0, _ => i
  | fuel + 1, r => if A.at r i then r else pivotSearch A i fuel (r + 1)

/-- Step 1: the pivot row of column i among rows [i, m) (41_elimination.md R154). -/
def pivotRow {k : Nat} (A : BitMatrix k) (m i : Nat) : Nat := pivotSearch A i (m - i) i

/-- Step 3: the pivot row divided by its pivot entry, which is 1 when this step runs
(41_elimination.md R155). -/
def normalized {k : Nat} (A : BitMatrix k) (p : Nat) : BitVec k := A.getD p 0#k

/-- Step 4: row p receives the old row i, then row i the normalized pivot row; both are read
before either is written (41_elimination.md R156, 70_reset_and_hazards.md R266). -/
def moveRows {k : Nat} (A : BitMatrix k) (i p : Nat) : BitMatrix k :=
  let P := normalized A p
  let T := A.getD i 0#k
  (A.set p T).set i P

/-- Step 5: clear column i in every row other than i by adding the pivot row P to it where its
entry f is 1 (41_elimination.md R157). -/
def clearColumn {k : Nat} (A : BitMatrix k) (i : Nat) (P : BitVec k) : BitMatrix k :=
  A.mapIdx fun j row => if j = i then row else if row.getLsbD i then row ^^^ P else row

/-- Steps 3 to 5 for column i with pivot row p. -/
def columnStep {k : Nat} (A : BitMatrix k) (i p : Nat) : BitMatrix k :=
  clearColumn (moveRows A i p) i (normalized A p)

/-- Columns [i, i + fuel) of the loop; the result is the matrix and `nulldim` (41_elimination.md
R152, R153). -/
def eliminateFrom {k : Nat} (m : Nat) : Nat → Nat → BitMatrix k → BitMatrix k × Nat
  | 0, _, A => (A, 0)
  | fuel + 1, i, A =>
    let p := pivotRow A m i
    if A.at p i then eliminateFrom m fuel (i + 1) (columnStep A i p)
    else (A, m - i)

/-- The ELIM body on an m x k matrix (41_elimination.md R152). -/
def eliminate {k : Nat} (m : Nat) (A : BitMatrix k) : BitMatrix k × Nat := eliminateFrom m m 0 A

/-- `W[0..m-1][0..k-1]` and NULLDIM receive the result of an elimination. -/
def State.storeW {k : Nat} (m : Nat) (A : BitMatrix k) (d : Nat) (s : State) : State :=
  { s with
    mem := s.mem.writeFoot (wFoot s.nmax m k) (matrixByte A wBase (wStride s.nmax))
    nulldim := BitVec.ofNat 12 d }

/-- A command on unwritten operands: every bit of its output footprint and NULLDIM get
unspecified values, and the bits count as written (70_reset_and_hazards.md R255).
notes/assumptions/5.md. -/
def State.unspecifiedResult (foot : List Host.Cell) (s : State) : State :=
  { s with
    mem := s.mem.writeFoot foot (Config.freeByte s.draws)
    nulldim := Config.freeNulldim s.draws
    draws := s.draws + 1 }

/-- ELIM (41_elimination.md R150 to R158). -/
def execElim (rows cols : Nat) (s : State) : Host.Outcome State Fault Refusal :=
  if elimShapeBad s.nmax rows cols then .next (s.raise .shape)
  else if s.mem.footWritten (wFoot s.nmax rows cols) then
    let r := eliminate rows (s.loadW rows cols)
    .next (s.storeW rows r.1 r.2).complete
  else .next (s.unspecifiedResult (wFoot s.nmax rows cols)).complete

end Sys2Proof.Machine
end

