-- ==== Sys2Proof/Machine/Inversion.lean ====
section
/-! DEFINITION. Inversion with null-space extraction (42_inversion.md R182) and the INV command. -/

namespace Sys2Proof.Machine

open Sys2Proof

/-- Step 1: `[A | I]` (42_inversion.md R183). -/
def augment {n : Nat} (A : BitMatrix n) : BitMatrix (2 * n) :=
  A.mapIdx fun r row => row.setWidth (2 * n) ||| BitVec.twoPow (2 * n) (n + r)

/-- Bit r of null vector t, from the eliminated matrix (42_inversion.md R186). -/
def nullVectorBit {k : Nat} (M : BitMatrix k) (n d t r : Nat) : Bool :=
  let s := n - d
  if r < s then M.at r (s + t) else decide (r < n) && decide (r - s = t)

/-- Step 4: NV row t is null vector t for t < d, and 0 otherwise (42_inversion.md R186). -/
def nullRow {k : Nat} (nmax : Nat) (M : BitMatrix k) (n d t : Nat) : BitVec nmax :=
  if t < d then packRow nmax (nullVectorBit M n d t) else 0#nmax

/-- All NMAX rows of NV (42_inversion.md R186). -/
def nullRows {k : Nat} (nmax : Nat) (M : BitMatrix k) (n d : Nat) : BitMatrix nmax :=
  (List.range nmax).map (nullRow nmax M n d)

/-- Every bit of NV receives the null vectors; W is not written (42_inversion.md R186, R187). -/
def State.storeNv {k : Nat} (A : BitMatrix k) (s : State) : State :=
  { s with mem := s.mem.writeFoot (nvFoot s.nmax) (matrixByte A nvBase (nvStride s.nmax)) }

/-- INV (42_inversion.md R180 to R190). -/
def execInv (rows cols : Nat) (s : State) : Host.Outcome State Fault Refusal :=
  if invShapeBad s.nmax rows cols then .next (s.raise .shape)
  else if s.mem.footWritten (wFoot s.nmax rows rows) then
    let r := eliminate rows (augment (s.loadW rows rows))
    .next ((s.storeW rows r.1 r.2).storeNv (nullRows s.nmax r.1 rows r.2)).complete
  else .next (s.unspecifiedResult (wFoot s.nmax rows (2 * rows) ++ nvFoot s.nmax)).complete

end Sys2Proof.Machine
end

