-- ==== Sys2Proof/Machine/Scalar.lean ====
section
/-! DEFINITION. The seven GF(2) scalar commands (40_gf2_scalar.md): their bodies, each with its
completion (10_state.md R37). -/

namespace Sys2Proof.Machine

open Sys2Proof

/-- A scalar body's end: `SRES.RES <- res`, then completion (40_gf2_scalar.md R120). -/
def State.scalarResult (res : Bool) (s : State) : State := ({ s with sres := res }).complete

/-- GADD (40_gf2_scalar.md R122). -/
def execGadd (ia ib : Int) (s : State) : Host.Outcome State Fault Refusal :=
  .next (s.scalarResult (gf2Add (gf2OfInt ia) (gf2OfInt ib)))

/-- GSUB (40_gf2_scalar.md R123). -/
def execGsub (ia ib : Int) (s : State) : Host.Outcome State Fault Refusal :=
  .next (s.scalarResult (gf2Sub (gf2OfInt ia) (gf2OfInt ib)))

/-- GMUL (40_gf2_scalar.md R124). -/
def execGmul (ia ib : Int) (s : State) : Host.Outcome State Fault Refusal :=
  .next (s.scalarResult (gf2Mul (gf2OfInt ia) (gf2OfInt ib)))

/-- GDIV: DIVZERO and SRES unchanged when b = 0 (40_gf2_scalar.md R125). -/
def execGdiv (ia ib : Int) (s : State) : Host.Outcome State Fault Refusal :=
  match gf2Div (gf2OfInt ia) (gf2OfInt ib) with
  | some res => .next (s.scalarResult res)
  | none => .next (s.raise .divzero)

/-- GCEQ (40_gf2_scalar.md R126). -/
def execGceq (ia ib : Int) (s : State) : Host.Outcome State Fault Refusal :=
  .next (s.scalarResult (gf2Eq (gf2OfInt ia) (gf2OfInt ib)))

/-- GCLT (40_gf2_scalar.md R127). -/
def execGclt (ia ib : Int) (s : State) : Host.Outcome State Fault Refusal :=
  .next (s.scalarResult (gf2Lt (gf2OfInt ia) (gf2OfInt ib)))

/-- GCLE (40_gf2_scalar.md R128). -/
def execGcle (ia ib : Int) (s : State) : Host.Outcome State Fault Refusal :=
  .next (s.scalarResult (gf2Le (gf2OfInt ia) (gf2OfInt ib)))

end Sys2Proof.Machine
end

