-- ==== Sys2Proof/Machine/Dispatch.lean ====
section
/-! DEFINITION. The one dispatch: each command to its meaning. -/

namespace Sys2Proof.Machine

open Sys2Proof

def exec (i : Instr) (s : State) : Host.Outcome State Fault Refusal :=
  match i with
  | .elim rows cols => Sys2Proof.Machine.execElim rows cols s
  | .inv rows cols => Sys2Proof.Machine.execInv rows cols s
  | .gadd ia ib => Sys2Proof.Machine.execGadd ia ib s
  | .gsub ia ib => Sys2Proof.Machine.execGsub ia ib s
  | .gmul ia ib => Sys2Proof.Machine.execGmul ia ib s
  | .gdiv ia ib => Sys2Proof.Machine.execGdiv ia ib s
  | .gceq ia ib => Sys2Proof.Machine.execGceq ia ib s
  | .gclt ia ib => Sys2Proof.Machine.execGclt ia ib s
  | .gcle ia ib => Sys2Proof.Machine.execGcle ia ib s

end Sys2Proof.Machine
end

