-- ==== Sys2Proof/Machine/Sequencer.lean ====
section
/-! DEFINITION. The two agents of 20_memory.md R77 and their serialized stream: the engine's
turn (10_state.md R37) and the next event. -/

namespace Sys2Proof.Machine

open Sys2Proof

/-- The word of a command the engine may complete now: the pending one, unless reset is asserted
(10_state.md R35, 70_reset_and_hazards.md R250). -/
def State.fetch (s : State) : Option Word := if s.resetLine then none else s.pending

/-- The engine's turn: it decodes the pending word and runs the command to its completion
(10_state.md R37, 30_encoding.md R96); an illegal word completes with ILLEGAL (R97). With no
pending command the engine does nothing (70_reset_and_hazards.md R252). -/
def engineTurn (s : State) : Host.Outcome State Fault Refusal :=
  match s.fetch with
  | none => .next s
  | some w =>
    match decode w with
    | .ok i => exec i s
    | .error _ => .next (s.raise .illegal)

/-- One event of the stream (20_memory.md R77). -/
def serveEvent (e : Event) (s : State) : Host.Outcome State Fault Refusal :=
  match e with
  | .read a size => .next (s.busRead a size)
  | .write a size v => .next (s.busWrite a size v)
  | .resetInput asserted => .next (s.driveReset asserted)
  | .engine => engineTurn s

/-- One step: the next event is taken from the stream and served; with no event left the engine
has its turn, so that a pending command is eventually completed (70_reset_and_hazards.md R270).
notes/assumptions/2.md and 13.md. -/
def nextTurn (s : State) : Host.Outcome State Fault Refusal :=
  match s.events with
  | [] => engineTurn s
  | e :: rest => serveEvent e { s with events := rest }

/-- The command word v pending in an idle engine whose turn is next: what acceptance of v
(10_state.md R36) and the stream's next item make of s. -/
def State.withPending (v : Word) (s : State) : State :=
  { s.accept v with resetLine := false, events := .engine :: s.events }

end Sys2Proof.Machine
end

