-- ==== Sys2Proof/Machine/Step.lean ====
section
/-! DEFINITION. The step of the machine, and a command placed where the step takes its next one. -/

namespace Sys2Proof.Machine

open Sys2Proof

/-- One step of the machine (20_memory.md R77). -/
def step (s : State) : Host.Outcome State Fault Refusal := nextTurn s

/-- s with the command of the `nbits` low bits of `w` accepted and the engine's turn next, so
that the very next step completes it. notes/assumptions/3.md. -/
def State.withFetchWord (s : State) (nbits w : Nat) : State :=
  s.withPending (commandWord nbits w)

end Sys2Proof.Machine
end

