-- ==== Sys2Proof/Safety.lean ====
section
/-! DEFINITION. The terms the statements use: the invariant of every reachable state, the
elimination of 41_elimination.md R152 as a relation on bits, the matrices that W and NV hold,
and the host discipline of 70_reset_and_hazards.md R261 and R262. -/

namespace Sys2Proof.Machine

open Sys2Proof

/-! ### The invariant -/

/-- NMAX is in its range (00_scope.md R7). -/
abbrev State.nmaxLegal (s : State) : Prop := 1 ≤ s.nmax ∧ s.nmax ≤ 2047

/-- The invariants of STATUS (10_state.md R27): BUSY implies DONE = 0, ERR = 0 and ERRCODE = 0;
ERR = 0 if and only if ERRCODE = 0; no reserved code (60_exceptions.md R210). -/
abbrev Status.Legal (st : Status) : Prop :=
  (st.busy = true → st.done = false ∧ st.err = false ∧ st.errcode = 0#4)
    ∧ (st.err = false ↔ st.errcode = 0#4) ∧ st.errcode.toNat ≤ 3

/-- Written marks stand only on bits that are RAM storage (20_memory.md R62, R72). -/
def Memory.inStorage (nmax : Nat) (m : Memory) : Bool :=
  m.marks.all fun c => (c.2 &&& ~~~(storageMask nmax c.1)) == 0#8

/-- The reset state of 70_reset_and_hazards.md R252. -/
abbrev State.InResetState (s : State) : Prop :=
  s.cmd = 0#32 ∧ s.status = Status.reset ∧ s.nulldim = 0#12 ∧ s.sres = false ∧ s.ie = false
    ∧ s.mem = Memory.blank

/-- What every reachable state keeps. -/
abbrev State.Inv (s : State) : Prop :=
  s.nmaxLegal ∧ s.status.Legal ∧ s.mem.wf = true ∧ s.mem.inStorage s.nmax = true
    ∧ (s.resetLine = true → s.InResetState)

/-! ### The stream -/

/-- The engine has the next turn: an engine item is next, or the stream is empty
(notes/assumptions/2.md). -/
abbrev State.engineNext (s : State) : Prop := s.events = [] ∨ s.events.head? = some .engine

/-- STATUS after a completion without an error (10_state.md R37). -/
def Status.completed (st : Status) : Status := { st with busy := false, done := true }

/-- STATUS after a completion with an error code (10_state.md R37). -/
def Status.failed (st : Status) (code : BitVec 4) : Status :=
  { st with busy := false, done := true, err := true, errcode := code }

/-- The next event respects 70_reset_and_hazards.md R261 and R262: while BUSY = 1 no CMD write
and no access to a mapped W or NV word. -/
def State.hostPatient (s : State) : Bool :=
  match s.events with
  | .read a _ :: _ =>
    !s.status.busy || decide (regionOf s.nmax a.toNat = .csr ∨ regionOf s.nmax a.toNat = .unmapped)
  | .write a _ _ :: _ =>
    !s.status.busy || (decide (a ≠ 0x008#22)
      && decide (regionOf s.nmax a.toNat = .csr ∨ regionOf s.nmax a.toNat = .unmapped))
  | .resetInput _ :: _ => true
  | .engine :: _ => true
  | [] => true

/-- An illegal command word (30_encoding.md R97). -/
abbrev illegalWord (w : Word) : Prop :=
  (w.extractLsb' 24 8).toNat ∉ [0x10, 0x11, 0x20, 0x21, 0x22, 0x23, 0x24, 0x25, 0x26]
    ∨ (0x20 ≤ (w.extractLsb' 24 8).toNat ∧ (w.extractLsb' 24 8).toNat ≤ 0x26
        ∧ w.extractLsb' 16 8 ≠ 0#8)

/-- A mapped offset of the W window (20_memory.md R62, 00_scope.md R8). -/
abbrev inWWindow (nmax a : Nat) : Prop :=
  0x100000 ≤ a ∧ a < 0x100000 + 4 * nmax * ((2 * nmax + 31) / 32)

/-- A mapped offset of the NV window (20_memory.md R62, 00_scope.md R8). -/
abbrev inNvWindow (nmax a : Nat) : Prop :=
  0x200000 ≤ a ∧ a < 0x200000 + 4 * nmax * ((nmax + 31) / 32)

/-! ### Matrices as bits -/

/-- A matrix as its bits by row and column (00_scope.md R12). -/
abbrev Bits := Nat → Nat → Bool

/-- Every bit of W rows [0, m) x columns [0, k) is written. -/
abbrev State.wWritten (s : State) (m k : Nat) : Prop :=
  ∀ r, r < m → ∀ c, c < k → (s.w r c).isSome = true

/-- The bits of W rows [0, m) x columns [0, k), 0 elsewhere. -/
def State.wBlock (s : State) (m k : Nat) : Bits :=
  fun r c => decide (r < m) && decide (c < k) && (s.w r c == some true)

/-- The bits of NV rows [0, d) x columns [0, n), 0 elsewhere. -/
def State.nvBlock (s : State) (d n : Nat) : Bits :=
  fun t c => decide (t < d) && decide (c < n) && (s.nv t c == some true)

/-- W rows [0, m) x columns [0, k) hold the bits of A. -/
abbrev State.wHolds (s : State) (m k : Nat) (A : Bits) : Prop :=
  ∀ r, r < m → ∀ c, c < k → s.w r c = some (A r c)

/-- A matrix over the field GF(2) of Mathlib. -/
def gf2Matrix (m k : Nat) (A : Bits) : Matrix (Fin m) (Fin k) (ZMod 2) :=
  fun r c => if A r c then 1 else 0

/-- Columns [j, ..) of a matrix from row i on. -/
def Bits.from (A : Bits) (i j : Nat) : Bits := fun r c => A (i + r) (j + c)

/-! ### The elimination, as a relation on bits -/

/-- Step 1 with a 1 in the column: p is the least row of [i, m) with a 1 in column i
(41_elimination.md R154). -/
def IsPivot (A : Bits) (m i p : Nat) : Prop :=
  i ≤ p ∧ p < m ∧ A p i = true ∧ ∀ r, i ≤ r → r < p → A r i = false

/-- Steps 3 and 4: row p receives the old row i, row i receives the pivot row divided by its
entry 1 (41_elimination.md R155, R156). -/
def exchanged (A : Bits) (i p : Nat) : Bits :=
  fun j c => if j = i then A p c else if j = p then A i c else A j c

/-- Step 5: row j, j other than i, becomes `row j XOR (f AND P)` with f its entry in column i and
P the pivot row (41_elimination.md R157). -/
def columnCleared (A : Bits) (i : Nat) : Bits :=
  fun j c => if j = i then A j c else A j c ^^ (A j i && A i c)

/-- The loop of 41_elimination.md R152 from column i on: from operand A to result B and
`nulldim` d (R153). -/
inductive EliminationRun (m : Nat) : Nat → Bits → Bits → Nat → Prop
  | finished (A : Bits) : EliminationRun m m A A 0
  | stopped (i : Nat) (A : Bits) : i < m → (∀ r, i ≤ r → r < m → A r i = false) →
      EliminationRun m i A A (m - i)
  | column (i p d : Nat) (A B : Bits) : i < m → IsPivot A m i p →
      EliminationRun m (i + 1) (columnCleared (exchanged A i p) i) B d →
      EliminationRun m i A B d

/-- `[A | I_n]` (42_inversion.md R183). -/
def augmentedBits (n : Nat) (A : Bits) : Bits :=
  fun r c => decide (r < n) && (if c < n then A r c else decide (c = n + r))

/-- Bit r of null vector t, for t < d and r < n (42_inversion.md R186). -/
def nullVectorOf (B : Bits) (n d t r : Nat) : Bool :=
  if r < n - d then B r (n - d + t) else decide (r - (n - d) = t)

end Sys2Proof.Machine
end

