-- ==== Sys2Proof/Certificates/Slice0/Obligations.lean ====
section
/-! DEFINITION. The statements about the machine, each from the spec's rules. -/

open Sys2Proof Sys2Proof.Machine

/-! ### Encoding -/

/-- Decoding the word of a well-formed command gives the command back: no field of a format is
dropped (30_encoding.md R93, R94, R96). -/
def Obligations.DecodeOfEncode : Prop :=
  ∀ i : Instr, i.wellFormed = true → decode (encode i) = .ok i

/-- A word that decodes is the one word of its command, which is well formed: no bit of a legal
word is ignored (30_encoding.md R98). -/
def Obligations.EncodeOfDecode : Prop :=
  ∀ (w : Word) (i : Instr), decode w = .ok i → i.wellFormed = true ∧ encode i = w

/-- The eighteen words of 30_encoding.md R102. -/
def Obligations.EncodingExamples : Prop :=
  decode 0x10001001#32 = .ok (.elim 1 1) ∧ decode 0x10002002#32 = .ok (.elim 2 2)
    ∧ decode 0x10004002#32 = .ok (.elim 2 4) ∧ decode 0x10003003#32 = .ok (.elim 3 3)
    ∧ decode 0x11001001#32 = .ok (.inv 1 1) ∧ decode 0x11004004#32 = .ok (.inv 4 4)
    ∧ decode 0x11010010#32 = .ok (.inv 16 16) ∧ decode 0x11019019#32 = .ok (.inv 25 25)
    ∧ decode 0x11002003#32 = .ok (.inv 3 2) ∧ decode 0x20000101#32 = .ok (.gadd 1 1)
    ∧ decode 0x2000FF03#32 = .ok (.gadd (-1) 3) ∧ decode 0x21000001#32 = .ok (.gsub 0 1)
    ∧ decode 0x22000101#32 = .ok (.gmul 1 1) ∧ decode 0x23000100#32 = .ok (.gdiv 1 0)
    ∧ decode 0x23000102#32 = .ok (.gdiv 1 2) ∧ decode 0x24000101#32 = .ok (.gceq 1 1)
    ∧ decode 0x25000001#32 = .ok (.gclt 0 1) ∧ decode 0x26000100#32 = .ok (.gcle 1 0)

/-- The GF(2) values of the two immediates are the bits 8 and 0 of the command word
(30_encoding.md R95). -/
def Obligations.ImmediatesReduceToBitZero : Prop :=
  ∀ w : Word,
    gf2OfInt (fieldIa w).toInt = decide ((w.extractLsb' 8 8).toInt % 2 = 1)
      ∧ decide ((w.extractLsb' 8 8).toInt % 2 = 1) = w.getLsbD 8
      ∧ gf2OfInt (fieldIb w).toInt = decide ((w.extractLsb' 0 8).toInt % 2 = 1)
      ∧ decide ((w.extractLsb' 0 8).toInt % 2 = 1) = w.getLsbD 0

/-- The decoder refuses exactly the illegal words of 30_encoding.md R97, and the engine completes
a pending one with ILLEGAL, code 1, changing no state but STATUS (60_exceptions.md R211). -/
def Obligations.IllegalWordsComplete : Prop :=
  (∀ w : Word, (∃ i, decode w = .ok i) ↔ ¬ illegalWord w)
    ∧ ∀ s : State, s.engineNext → s.resetLine = false → s.status.busy = true →
        illegalWord s.cmd →
        step s = .next { s with events := s.events.tail, status := s.status.failed 1#4 }

/-! ### The step -/

/-- On the engine's turn a step runs the decoded pending command (10_state.md R37), in the state
whose stream has moved past the turn (the stream is the model's, notes/assumptions/2.md). -/
def Obligations.StepRunsTheDecodedCommand : Prop :=
  ∀ (s : State) (i : Instr), s.engineNext → s.resetLine = false → s.status.busy = true →
    decode s.cmd = .ok i → step s = exec i { s with events := s.events.tail }

/-- A step serves the host's transactions and the reset input one by one, in the stream's order
(20_memory.md R61, R77; the stream is the model's, notes/assumptions/2.md). -/
def Obligations.StepServesTheNextEvent : Prop :=
  ∀ (s : State) (rest : List Event),
    (∀ a size, s.events = .read a size :: rest →
        step s = .next ({ s with events := rest }.busRead a size))
      ∧ (∀ a size v, s.events = .write a size v :: rest →
        step s = .next ({ s with events := rest }.busWrite a size v))
      ∧ (∀ asserted, s.events = .resetInput asserted :: rest →
        step s = .next ({ s with events := rest }.driveReset asserted))

/-- An engine with no pending command, or held in reset, does nothing on its turn
(70_reset_and_hazards.md R252; that a step with nothing to do gives the same state is the model's
form of it, notes/assumptions/13.md). -/
def Obligations.IdleEngineDoesNothing : Prop :=
  ∀ s : State, s.engineNext → (s.resetLine = true ∨ s.status.busy = false) →
    step s = .next { s with events := s.events.tail }

/-- The machine stops nowhere: every step and every command has a next state (an error is a
completion, 60_exceptions.md R224; a refused access is a response, 20_memory.md R74). -/
def Obligations.EveryStepHasANextState : Prop :=
  (∀ s : State, ∃ t, step s = .next t) ∧ ∀ (i : Instr) (s : State), ∃ t, exec i s = .next t

/-! ### The scalar commands

Each statement gives the decoding of the command's words, its result from the bits a = cmd[8] and
b = cmd[0], and its result from the two integers; the whole next state is given, so that
everything else is unchanged (40_gf2_scalar.md R120). -/

/-- GADD (40_gf2_scalar.md R122). -/
def Obligations.GaddResult : Prop :=
  (∀ w : Word, fieldOpc w = 0x20#8 → fieldRsv w = 0#8 →
    decode w = .ok (.gadd (fieldIa w).toInt (fieldIb w).toInt)
      ∧ ∀ s : State, exec (.gadd (fieldIa w).toInt (fieldIb w).toInt) s
          = .next { s with sres := w.getLsbD 8 ^^ w.getLsbD 0, status := s.status.completed })
  ∧ ∀ (ia ib : Int) (s : State), exec (.gadd ia ib) s
      = .next { s with sres := decide ((ia + ib) % 2 = 1), status := s.status.completed }

/-- GSUB (40_gf2_scalar.md R123). -/
def Obligations.GsubResult : Prop :=
  (∀ w : Word, fieldOpc w = 0x21#8 → fieldRsv w = 0#8 →
    decode w = .ok (.gsub (fieldIa w).toInt (fieldIb w).toInt)
      ∧ ∀ s : State, exec (.gsub (fieldIa w).toInt (fieldIb w).toInt) s
          = .next { s with sres := w.getLsbD 8 ^^ w.getLsbD 0, status := s.status.completed })
  ∧ ∀ (ia ib : Int) (s : State), exec (.gsub ia ib) s
      = .next { s with sres := decide ((ia - ib) % 2 = 1), status := s.status.completed }

/-- GMUL (40_gf2_scalar.md R124). -/
def Obligations.GmulResult : Prop :=
  (∀ w : Word, fieldOpc w = 0x22#8 → fieldRsv w = 0#8 →
    decode w = .ok (.gmul (fieldIa w).toInt (fieldIb w).toInt)
      ∧ ∀ s : State, exec (.gmul (fieldIa w).toInt (fieldIb w).toInt) s
          = .next { s with sres := w.getLsbD 8 && w.getLsbD 0, status := s.status.completed })
  ∧ ∀ (ia ib : Int) (s : State), exec (.gmul ia ib) s
      = .next { s with sres := decide ((ia * ib) % 2 = 1), status := s.status.completed }

/-- GDIV: the dividend when b = 1; DIVZERO, code 3, and SRES unchanged when b = 0
(40_gf2_scalar.md R125, 60_exceptions.md R213). -/
def Obligations.GdivResult : Prop :=
  (∀ w : Word, fieldOpc w = 0x23#8 → fieldRsv w = 0#8 →
    decode w = .ok (.gdiv (fieldIa w).toInt (fieldIb w).toInt)
      ∧ ∀ s : State, exec (.gdiv (fieldIa w).toInt (fieldIb w).toInt) s
          = if w.getLsbD 0 then
              .next { s with sres := w.getLsbD 8, status := s.status.completed }
            else .next { s with status := s.status.failed 3#4 })
  ∧ ∀ (ia ib : Int) (s : State),
      (ib % 2 = 1 → exec (.gdiv ia ib) s
        = .next { s with sres := decide (ia % 2 = 1), status := s.status.completed })
      ∧ (ib % 2 = 0 → exec (.gdiv ia ib) s = .next { s with status := s.status.failed 3#4 })

/-- GCEQ, of the reduced values (40_gf2_scalar.md R126, R129). -/
def Obligations.GceqResult : Prop :=
  (∀ w : Word, fieldOpc w = 0x24#8 → fieldRsv w = 0#8 →
    decode w = .ok (.gceq (fieldIa w).toInt (fieldIb w).toInt)
      ∧ ∀ s : State, exec (.gceq (fieldIa w).toInt (fieldIb w).toInt) s
          = .next { s with sres := !(w.getLsbD 8 ^^ w.getLsbD 0), status := s.status.completed })
  ∧ ∀ (ia ib : Int) (s : State), exec (.gceq ia ib) s
      = .next { s with sres := decide (ia % 2 = ib % 2), status := s.status.completed }

/-- GCLT, of the reduced values (40_gf2_scalar.md R127, R129). -/
def Obligations.GcltResult : Prop :=
  (∀ w : Word, fieldOpc w = 0x25#8 → fieldRsv w = 0#8 →
    decode w = .ok (.gclt (fieldIa w).toInt (fieldIb w).toInt)
      ∧ ∀ s : State, exec (.gclt (fieldIa w).toInt (fieldIb w).toInt) s
          = .next { s with sres := !w.getLsbD 8 && w.getLsbD 0, status := s.status.completed })
  ∧ ∀ (ia ib : Int) (s : State), exec (.gclt ia ib) s
      = .next { s with sres := decide (ia % 2 < ib % 2), status := s.status.completed }

/-- GCLE, of the reduced values (40_gf2_scalar.md R128, R129). -/
def Obligations.GcleResult : Prop :=
  (∀ w : Word, fieldOpc w = 0x26#8 → fieldRsv w = 0#8 →
    decode w = .ok (.gcle (fieldIa w).toInt (fieldIb w).toInt)
      ∧ ∀ s : State, exec (.gcle (fieldIa w).toInt (fieldIb w).toInt) s
          = .next { s with sres := !w.getLsbD 8 || w.getLsbD 0, status := s.status.completed })
  ∧ ∀ (ia ib : Int) (s : State), exec (.gcle ia ib) s
      = .next { s with sres := decide (ia % 2 ≤ ib % 2), status := s.status.completed }

/-! ### ELIM -/

/-- ELIM refuses exactly the shapes of 41_elimination.md R151, with SHAPE, code 2, and no other
change (60_exceptions.md R212); on every other shape it completes without an error. -/
def Obligations.ElimRefusesShapes : Prop :=
  ∀ (s : State) (m k : Nat),
    ((m < 1 ∨ m > s.nmax ∨ k < 1 ∨ k > 2 * s.nmax ∨ m > k) →
      exec (.elim m k) s = .next { s with status := s.status.failed 2#4 })
    ∧ (¬ (m < 1 ∨ m > s.nmax ∨ k < 1 ∨ k > 2 * s.nmax ∨ m > k) →
      ∃ t, exec (.elim m k) s = .next t ∧ t.status = s.status.completed)

/-- On a written operand ELIM runs the loop of 41_elimination.md R152 on W rows [0, m) x columns
[0, k) and writes `nulldim` (R153). Nothing else changes (R158): not SRES, CMD or CTRL, no other
bit of W, no bit of NV, no byte of the aperture outside the stored block. On a refused shape it
changes STATUS alone: no bit of W, and not NULLDIM. -/
def Obligations.ElimRunsTheElimination : Prop :=
  (∀ (s : State) (m k : Nat), s.nmaxLegal → 1 ≤ m → m ≤ s.nmax → m ≤ k → k ≤ 2 * s.nmax →
    s.wWritten m k →
    ∃ (t : State) (B : Bits) (d : Nat), exec (.elim m k) s = .next t
      ∧ EliminationRun m 0 (s.wBlock m k) B d ∧ d ≤ m ∧ t.nulldim.toNat = d
      ∧ t.wHolds m k B
      ∧ t = { s with mem := t.mem, nulldim := BitVec.ofNat 12 d, status := s.status.completed }
      ∧ (∀ r c, c < 2 * s.nmax → (m ≤ r ∨ k ≤ c) → t.w r c = s.w r c)
      ∧ (∀ r c, t.nv r c = s.nv r c)
      ∧ (∀ a j, inFoot (wFoot s.nmax m k) a j = false → t.mem.bit a j = s.mem.bit a j))
  ∧ ∀ (s : State) (m k : Nat), (m < 1 ∨ m > s.nmax ∨ k < 1 ∨ k > 2 * s.nmax ∨ m > k) →
    exec (.elim m k) s = .next { s with status := s.status.failed 2#4 }

/-- On an operand with an unwritten bit ELIM completes without an error, every bit of its output
footprint counts as written and may hold any value, NULLDIM may hold any value, and nothing else
changes (70_reset_and_hazards.md R255; `draws` is the model's, notes/assumptions/4.md). -/
def Obligations.ElimOnUnwrittenOperand : Prop :=
  ∀ (s : State) (m k : Nat), s.nmaxLegal → 1 ≤ m → m ≤ s.nmax → m ≤ k → k ≤ 2 * s.nmax →
    ¬ s.wWritten m k →
    ∃ t : State, exec (.elim m k) s = .next t ∧ t.wWritten m k
      ∧ t = { s with mem := t.mem, nulldim := t.nulldim, draws := t.draws,
                     status := s.status.completed }
      ∧ (∀ r c, c < 2 * s.nmax → (m ≤ r ∨ k ≤ c) → t.w r c = s.w r c)
      ∧ (∀ r c, t.nv r c = s.nv r c)
      ∧ (∀ a j, inFoot (wFoot s.nmax m k) a j = false → t.mem.bit a j = s.mem.bit a j)

/-- The form of the result of ELIM (41_elimination.md R159): with d = NULLDIM, the columns
[0, m - d) are unit columns; with d = 0 the leading block is the identity. -/
def Obligations.ElimResultForm : Prop :=
  ∀ (s : State) (m k : Nat), s.nmaxLegal → 1 ≤ m → m ≤ s.nmax → m ≤ k → k ≤ 2 * s.nmax →
    s.wWritten m k →
    ∃ t : State, exec (.elim m k) s = .next t ∧ t.nulldim.toNat ≤ m
      ∧ (∀ r, r < m → ∀ c, c < m - t.nulldim.toNat → t.w r c = some (decide (r = c)))
      ∧ (t.nulldim.toNat = 0 → gf2Matrix m m (t.wBlock m m) = 1)

/-- Row equivalence (41_elimination.md R160): the swap of two rows and the additions of the pivot
row to the others each multiply the operand by an invertible matrix; the final operand is E * A0 with E invertible, and the row space of the
operand is unchanged. -/
def Obligations.ElimRowEquivalence : Prop :=
  (∀ (m k i p : Nat) (A : Bits), i < m → p < m →
    (∃ E : Matrix (Fin m) (Fin m) (ZMod 2), IsUnit E
      ∧ gf2Matrix m k (exchanged A i p) = E * gf2Matrix m k A)
    ∧ ∃ E : Matrix (Fin m) (Fin m) (ZMod 2), IsUnit E
      ∧ gf2Matrix m k (columnCleared A i) = E * gf2Matrix m k A)
  ∧ ∀ (s : State) (m k : Nat), s.nmaxLegal → 1 ≤ m → m ≤ s.nmax → m ≤ k → k ≤ 2 * s.nmax →
    s.wWritten m k →
    ∃ t : State, exec (.elim m k) s = .next t
      ∧ (∃ E : Matrix (Fin m) (Fin m) (ZMod 2), IsUnit E
          ∧ gf2Matrix m k (t.wBlock m k) = E * gf2Matrix m k (s.wBlock m k))
      ∧ Submodule.span (ZMod 2) (Set.range fun r : Fin m => gf2Matrix m k (t.wBlock m k) r)
          = Submodule.span (ZMod 2) (Set.range fun r : Fin m => gf2Matrix m k (s.wBlock m k) r)

/-- What NULLDIM measures (41_elimination.md R161): with s = m - NULLDIM, the rank of the leading
m x m block of the operand is s plus the rank of the final block Y = W[s..m-1][s..m-1], and
NULLDIM is the true nullity exactly when Y is all zero. -/
def Obligations.ElimNulldimAndRank : Prop :=
  ∀ (s : State) (m k : Nat), s.nmaxLegal → 1 ≤ m → m ≤ s.nmax → m ≤ k → k ≤ 2 * s.nmax →
    s.wWritten m k →
    ∃ t : State, exec (.elim m k) s = .next t
      ∧ (gf2Matrix m m (s.wBlock m m)).rank
          = (m - t.nulldim.toNat)
            + (gf2Matrix t.nulldim.toNat t.nulldim.toNat
                ((t.wBlock m m).from (m - t.nulldim.toNat) (m - t.nulldim.toNat))).rank
      ∧ (t.nulldim.toNat + (gf2Matrix m m (s.wBlock m m)).rank = m
          ↔ ∀ r, m - t.nulldim.toNat ≤ r → r < m → ∀ c, m - t.nulldim.toNat ≤ c → c < m →
              t.w r c = some false)

/-- Operands that ELIM leaves as they are (41_elimination.md R163): the all-zero operand, with
NULLDIM = m, and an operand whose leading block is the identity, with NULLDIM = 0. -/
def Obligations.ElimFixedOperands : Prop :=
  ∀ (s : State) (m k : Nat), s.nmaxLegal → 1 ≤ m → m ≤ s.nmax → m ≤ k → k ≤ 2 * s.nmax →
    s.wWritten m k →
    ((∀ r, r < m → ∀ c, c < k → s.w r c = some false) →
      ∃ t : State, exec (.elim m k) s = .next t ∧ t.nulldim.toNat = m
        ∧ ∀ a j, t.mem.bit a j = s.mem.bit a j)
    ∧ ((∀ r, r < m → ∀ c, c < m → s.w r c = some (decide (r = c))) →
      ∃ t : State, exec (.elim m k) s = .next t ∧ t.nulldim.toNat = 0
        ∧ ∀ a j, t.mem.bit a j = s.mem.bit a j)

/-! ### INV -/

/-- INV refuses exactly the shapes of 42_inversion.md R181, with SHAPE, code 2, and no other
change (60_exceptions.md R212); on every other shape it completes without an error. -/
def Obligations.InvRefusesShapes : Prop :=
  ∀ (s : State) (m k : Nat),
    ((m ≠ k ∨ m < 1 ∨ m > s.nmax) →
      exec (.inv m k) s = .next { s with status := s.status.failed 2#4 })
    ∧ (¬ (m ≠ k ∨ m < 1 ∨ m > s.nmax) →
      ∃ t, exec (.inv m k) s = .next t ∧ t.status = s.status.completed)

/-- On a written operand A = W[0..n-1][0..n-1] INV eliminates [A | I_n] in W (42_inversion.md
R182 to R185), writes NULLDIM and every bit of NV, the null vectors and zeros (R186), and changes
nothing else (R187, R190): not SRES, CMD or CTRL, no other bit of W. -/
def Obligations.InvRunsTheInversion : Prop :=
  ∀ (s : State) (n : Nat), s.nmaxLegal → 1 ≤ n → n ≤ s.nmax → s.wWritten n n →
    ∃ (t : State) (B : Bits) (d : Nat), exec (.inv n n) s = .next t
      ∧ EliminationRun n 0 (augmentedBits n (s.wBlock n n)) B d ∧ d ≤ n ∧ t.nulldim.toNat = d
      ∧ t.wHolds n (2 * n) B
      ∧ (∀ v, v < s.nmax → ∀ c, c < s.nmax → t.nv v c =
          some (decide (v < d) && decide (c < n) && nullVectorOf B n d v c))
      ∧ t = { s with mem := t.mem, nulldim := BitVec.ofNat 12 d, status := s.status.completed }
      ∧ (∀ r c, r < s.nmax → c < 2 * s.nmax → (n ≤ r ∨ 2 * n ≤ c) → t.w r c = s.w r c)
      ∧ (∀ a j, inFoot (wFoot s.nmax n (2 * n)) a j = false → inFoot (nvFoot s.nmax) a j = false →
          t.mem.bit a j = s.mem.bit a j)

/-- On an operand with an unwritten bit INV completes without an error, every bit of its output
footprint (W rows [0, n) x columns [0, 2n) and all of NV) counts as written and may hold any
value, NULLDIM may hold any value, and nothing else changes (70_reset_and_hazards.md R255;
`draws` is the model's, notes/assumptions/4.md). -/
def Obligations.InvOnUnwrittenOperand : Prop :=
  ∀ (s : State) (n : Nat), s.nmaxLegal → 1 ≤ n → n ≤ s.nmax → ¬ s.wWritten n n →
    ∃ t : State, exec (.inv n n) s = .next t ∧ t.wWritten n (2 * n)
      ∧ (∀ v, v < s.nmax → ∀ c, c < s.nmax → (t.nv v c).isSome = true)
      ∧ t = { s with mem := t.mem, nulldim := t.nulldim, draws := t.draws,
                     status := s.status.completed }
      ∧ (∀ r c, r < s.nmax → c < 2 * s.nmax → (n ≤ r ∨ 2 * n ≤ c) → t.w r c = s.w r c)
      ∧ (∀ a j, inFoot (wFoot s.nmax n (2 * n)) a j = false → inFoot (nvFoot s.nmax) a j = false →
          t.mem.bit a j = s.mem.bit a j)

/-- The two blocks after INV (42_inversion.md R189): R * A = L and R is invertible; with
NULLDIM = 0, L is the identity and R the two-sided inverse of A; with NULLDIM > 0, rows [s, n) of
L are zero in columns [0, s], A and L are singular and R * A is not the identity. -/
def Obligations.InvBlockProduct : Prop :=
  ∀ (s : State) (n : Nat), s.nmaxLegal → 1 ≤ n → n ≤ s.nmax → s.wWritten n n →
    ∃ t : State, exec (.inv n n) s = .next t
      ∧ gf2Matrix n n ((t.wBlock n (2 * n)).from 0 n) * gf2Matrix n n (s.wBlock n n)
          = gf2Matrix n n (t.wBlock n n)
      ∧ IsUnit (gf2Matrix n n ((t.wBlock n (2 * n)).from 0 n))
      ∧ (t.nulldim = 0#12 → gf2Matrix n n (t.wBlock n n) = 1
          ∧ gf2Matrix n n (s.wBlock n n) * gf2Matrix n n ((t.wBlock n (2 * n)).from 0 n) = 1)
      ∧ (t.nulldim ≠ 0#12 →
          (∀ r, n - t.nulldim.toNat ≤ r → r < n → ∀ c, c ≤ n - t.nulldim.toNat →
            t.w r c = some false)
          ∧ ¬ IsUnit (gf2Matrix n n (s.wBlock n n)) ∧ ¬ IsUnit (gf2Matrix n n (t.wBlock n n))
          ∧ gf2Matrix n n (t.wBlock n n) ≠ 1)

/-- The null vectors that INV writes (42_inversion.md R191): always independent; all of them
null vectors of A exactly when Y = W[s..n-1][s..n-1] is zero; and then NULLDIM is the nullity of
A and they span the null space of A. -/
def Obligations.InvNullVectors : Prop :=
  ∀ (s : State) (n : Nat), s.nmaxLegal → 1 ≤ n → n ≤ s.nmax → s.wWritten n n →
    ∃ t : State, exec (.inv n n) s = .next t
      ∧ LinearIndependent (ZMod 2)
          (fun v : Fin t.nulldim.toNat => gf2Matrix t.nulldim.toNat n (t.nvBlock n n) v)
      ∧ ((∀ v : Fin t.nulldim.toNat, Matrix.mulVec (gf2Matrix n n (s.wBlock n n))
            (gf2Matrix t.nulldim.toNat n (t.nvBlock n n) v) = 0)
          ↔ ∀ r, n - t.nulldim.toNat ≤ r → r < n → ∀ c, n - t.nulldim.toNat ≤ c → c < n →
              t.w r c = some false)
      ∧ ((∀ r, n - t.nulldim.toNat ≤ r → r < n → ∀ c, n - t.nulldim.toNat ≤ c → c < n →
              t.w r c = some false) →
          t.nulldim.toNat + (gf2Matrix n n (s.wBlock n n)).rank = n
          ∧ Submodule.span (ZMod 2) (Set.range fun v : Fin t.nulldim.toNat =>
              gf2Matrix t.nulldim.toNat n (t.nvBlock n n) v)
            = LinearMap.ker (Matrix.mulVecLin (gf2Matrix n n (s.wBlock n n))))

/-- The bits of W[0..n-1][n..2n-1] before INV, written or not, have no effect on its result
(42_inversion.md R190). -/
def Obligations.InvIgnoresTheRightBlock : Prop :=
  ∀ (s u : State) (n : Nat), s.nmaxLegal → u.nmax = s.nmax → 1 ≤ n → n ≤ s.nmax →
    s.wWritten n n → (∀ r, r < n → ∀ c, c < n → u.w r c = s.w r c) →
    ∃ t v : State, exec (.inv n n) s = .next t ∧ exec (.inv n n) u = .next v
      ∧ (∀ r, r < n → ∀ c, c < 2 * n → v.w r c = t.w r c)
      ∧ (∀ r, r < s.nmax → ∀ c, c < s.nmax → v.nv r c = t.nv r c)
      ∧ v.nulldim = t.nulldim

/-! ### Errors and completion -/

/-- All or nothing (60_exceptions.md R220): a command that raises an error changes only BUSY,
DONE, ERR and ERRCODE, and its code is ILLEGAL, SHAPE or DIVZERO. -/
def Obligations.ErrorsChangeOnlyStatus : Prop :=
  (∀ (i : Instr) (s t : State), s.status.err = false → exec i s = .next t →
    t.status.err = true →
    t = { s with status := s.status.failed t.status.errcode }
      ∧ (t.status.errcode = 2#4 ∨ t.status.errcode = 3#4))
  ∧ ∀ s t : State, s.engineNext → s.status.err = false → step s = .next t →
    t.status.err = true →
    t = { s with events := s.events.tail, status := s.status.failed t.status.errcode }
      ∧ (t.status.errcode = 1#4 ∨ t.status.errcode = 2#4 ∨ t.status.errcode = 3#4)

/-- Which state a command writes at completion (10_state.md R42): ELIM its block of W and
NULLDIM, INV its block of W, NV and NULLDIM, a scalar command SRES; none of them CMD, CTRL,
STATUS.OVR or STATUS.HAZ. -/
def Obligations.WhatEachCommandWrites : Prop :=
  ∀ (i : Instr) (s t : State), s.nmaxLegal → exec i s = .next t →
    (match i with
      | .elim m k => t.sres = s.sres ∧ (∀ r c, t.nv r c = s.nv r c)
          ∧ ∀ r c, c < 2 * s.nmax → (m ≤ r ∨ k ≤ c) → t.w r c = s.w r c
      | .inv n _ => t.sres = s.sres
          ∧ ∀ r c, r < s.nmax → c < 2 * s.nmax → (n ≤ r ∨ 2 * n ≤ c) → t.w r c = s.w r c
      | .gadd _ _ => t.mem = s.mem ∧ t.nulldim = s.nulldim
      | .gsub _ _ => t.mem = s.mem ∧ t.nulldim = s.nulldim
      | .gmul _ _ => t.mem = s.mem ∧ t.nulldim = s.nulldim
      | .gdiv _ _ => t.mem = s.mem ∧ t.nulldim = s.nulldim
      | .gceq _ _ => t.mem = s.mem ∧ t.nulldim = s.nulldim
      | .gclt _ _ => t.mem = s.mem ∧ t.nulldim = s.nulldim
      | .gcle _ _ => t.mem = s.mem ∧ t.nulldim = s.nulldim)
    ∧ t.cmd = s.cmd ∧ t.ie = s.ie ∧ t.nmax = s.nmax ∧ t.resetLine = s.resetLine
    ∧ t.events = s.events ∧ t.answer = s.answer
    ∧ t.status.ovr = s.status.ovr ∧ t.status.haz = s.status.haz

/-- Completion (10_state.md R37): on the engine's turn the pending command ends with BUSY = 0 and
DONE = 1, either without an error, ERR and ERRCODE untouched, or with ERR = 1 and a code. -/
def Obligations.CompletionStatus : Prop :=
  ∀ s : State, s.engineNext → s.resetLine = false → s.status.busy = true →
    ∃ t, step s = .next t ∧ t.cmd = s.cmd ∧ t.ie = s.ie
      ∧ (t.status = s.status.completed
          ∨ ∃ e : ErrorCode,
              t = { s with events := s.events.tail, status := s.status.failed e.code })

/-! ### The host protocol -/

/-- A CMD write (10_state.md R36, R39): accepted while idle, whatever the word; discarded with
OVR while busy. -/
def Obligations.CmdWriteIssue : Prop :=
  ∀ (s : State) (v : Word) (rest : List Event), s.resetLine = false →
    s.events = .write 0x008#22 4 v :: rest →
    (s.status.busy = true →
      step s = .next { s with events := rest, answer := .write .okay,
                              status := { s.status with ovr := true } })
    ∧ (s.status.busy = false →
      step s = .next { s with events := rest, answer := .write .okay, cmd := v,
                              status := { s.status with busy := true, done := false,
                                                        err := false, errcode := 0#4 } })

/-- irq is the level DONE AND IE (10_state.md R41): it is IE after a completion, with or without
an error; low after an acceptance; what the new IE and DONE make it after a CTRL write; low
after the resets. -/
def Obligations.IrqLevel : Prop :=
  (∀ s : State, s.irq = (s.status.done && s.ie))
  ∧ (∀ s t : State, s.engineNext → s.resetLine = false → s.status.busy = true →
      step s = .next t → t.irq = s.ie)
  ∧ (∀ (s t : State) (v : Word) (rest : List Event), s.resetLine = false →
      s.events = .write 0x008#22 4 v :: rest → s.status.busy = false → step s = .next t →
      t.irq = false)
  ∧ (∀ (s t : State) (v : Word) (rest : List Event), s.resetLine = false →
      s.events = .write 0x018#22 4 v :: rest → step s = .next t →
      t.irq = (!v.getLsbD 31 && s.status.done && !v.getLsbD 1 && v.getLsbD 0))
  ∧ (∀ (s t : State) (rest : List Event), s.events = .resetInput true :: rest →
      step s = .next t → t.irq = false)
  ∧ ∀ n, (State.resetFor n).irq = false

/-- The CTRL register (10_state.md R30): a write with bit 31 = 0 sets IE and applies ACK and
CLRSTK together, in every phase; one with bit 31 = 1 is the soft reset alone, whatever its other
bits, and leaves IE = 0; a read gives IE and zeros. -/
def Obligations.CtrlWriteActions : Prop :=
  (∀ (s : State) (v : Word) (rest : List Event), s.resetLine = false →
    s.events = .write 0x018#22 4 v :: rest → v.getLsbD 31 = false →
    step s = .next { s with
      events := rest, answer := .write .okay, ie := v.getLsbD 0,
      status := { s.status with done := s.status.done && !v.getLsbD 1,
                                ovr := s.status.ovr && !v.getLsbD 2,
                                haz := s.status.haz && !v.getLsbD 2 } })
  ∧ (∀ (s u : State) (v x : Word) (rest : List Event), s.resetLine = false →
    s.events = .write 0x018#22 4 v :: rest → v.getLsbD 31 = true → x.getLsbD 31 = true →
    u = { s with events := .write 0x018#22 4 x :: rest } →
    step u = step s ∧ ∃ t, step s = .next t
      ∧ t = { s with events := rest, answer := .write .okay, cmd := 0#32, status := Status.reset,
                     nulldim := 0#12, sres := false, ie := false, mem := t.mem }
      ∧ (s.status.busy = false → t.mem = s.mem))
  ∧ ∀ (s : State) (j : Nat), (s.csrRead 0x018).getLsbD j = (decide (j = 0) && s.ie)

/-- Soft reset (70_reset_and_hazards.md R253): every CSR at its reset value, in any phase; a
pending ELIM(m, k) or INV(n) of an accepted shape is aborted and its output footprint becomes
unwritten; a pending scalar command or illegal word, or none, loses no bit. -/
def Obligations.SoftReset : Prop :=
  ∀ (s : State) (v : Word) (rest : List Event), s.nmaxLegal → s.resetLine = false →
    s.events = .write 0x018#22 4 v :: rest → v.getLsbD 31 = true →
    ∃ t : State, step s = .next t
      ∧ t = { s with events := rest, answer := .write .okay, cmd := 0#32, status := Status.reset,
                     nulldim := 0#12, sres := false, ie := false, mem := t.mem }
      ∧ (s.status.busy = false → t.mem = s.mem)
      ∧ (s.status.busy = true →
        (∀ m k, decode s.cmd = .ok (.elim m k) → elimShapeBad s.nmax m k = false →
          (∀ r c, c < 2 * s.nmax → t.w r c = if r < m ∧ c < k then none else s.w r c)
          ∧ ∀ r c, t.nv r c = s.nv r c)
        ∧ (∀ n, decode s.cmd = .ok (.inv n n) → invShapeBad s.nmax n n = false →
          (∀ r c, r < s.nmax → c < 2 * s.nmax →
            t.w r c = if r < n ∧ c < 2 * n then none else s.w r c)
          ∧ ∀ r c, r < s.nmax → c < s.nmax → t.nv r c = none)
        ∧ ((∀ m k, decode s.cmd ≠ .ok (.elim m k) ∧ decode s.cmd ≠ .ok (.inv m k)) →
          t.mem = s.mem))

/-- A soft reset that aborts a matrix command of a shape the command would refuse: the MODEL's
choice, notes/assumptions/6.md. The rule's footprint is taken by its letter and clipped to W; an
INV, square or not, is taken with n = ROWS and loses every bit of NV as well; an ELIM loses no bit
of NV. -/
def Obligations.SoftResetOfRefusedShape : Prop :=
  ∀ (s : State) (v : Word) (rest : List Event), s.nmaxLegal → s.resetLine = false →
    s.events = .write 0x018#22 4 v :: rest → v.getLsbD 31 = true → s.status.busy = true →
    ∃ t : State, step s = .next t
      ∧ (∀ m k, decode s.cmd = .ok (.elim m k) →
        (∀ r c, r < s.nmax → c < 2 * s.nmax →
          t.w r c = if r < m ∧ c < k then none else s.w r c)
        ∧ ∀ r c, t.nv r c = s.nv r c)
      ∧ (∀ m k, decode s.cmd = .ok (.inv m k) →
        (∀ r c, r < s.nmax → c < 2 * s.nmax →
          t.w r c = if r < m ∧ c < 2 * m then none else s.w r c)
        ∧ ∀ r c, r < s.nmax → c < s.nmax → t.nv r c = none)

/-- The reset input (70_reset_and_hazards.md R250): asserting it and releasing it leave the
engine in the reset state with every RAM bit unwritten and no pending command; while it is
asserted no transaction has any effect on the engine. -/
def Obligations.HardwareReset : Prop :=
  (∀ (s : State) (level : Bool) (rest : List Event),
    s.events = .resetInput level :: rest → (level = true ∨ s.resetLine = true) →
    ∃ t : State, step s = .next t ∧ t.InResetState ∧ t.resetLine = level ∧ t.pending = none
      ∧ t.irq = false ∧ (∀ r c, t.w r c = none ∧ t.nv r c = none))
  ∧ ∀ (s : State) (e : Event) (rest : List Event), s.resetLine = true → s.events = e :: rest →
    (∀ level, e ≠ .resetInput level) →
    ∃ t : State, step s = .next t ∧ t = { s with events := rest, answer := t.answer }

/-- What the host reads after a hardware reset (70_reset_and_hazards.md R251), for the reference
instance and for every NMAX. -/
def Obligations.ResetValues : Prop :=
  (∀ n, (State.resetFor n).csrRead 0x000 = 0x4746324A#32
    ∧ (State.resetFor n).csrRead 0x008 = 0#32 ∧ (State.resetFor n).csrRead 0x00C = 0#32
    ∧ (State.resetFor n).csrRead 0x010 = 0#32 ∧ (State.resetFor n).csrRead 0x014 = 0#32
    ∧ (State.resetFor n).csrRead 0x018 = 0#32 ∧ (State.resetFor n).csrRead 0x01C = 0x00010000#32
    ∧ (State.resetFor n).irq = false ∧ (State.resetFor n).pending = none
    ∧ ∀ r c, (State.resetFor n).w r c = none ∧ (State.resetFor n).nv r c = none)
  ∧ State.reset.csrRead 0x004 = 0x00102020#32

/-! ### The bus -/

/-- The refused transactions (20_memory.md R66, R67, R68, R69) get ERROR, a Read data 0, and
change no state (R74). -/
def Obligations.BusRefusals : Prop :=
  ∀ (s : State) (a : Offset) (size : Nat) (rest : List Event), s.resetLine = false →
    (s.events = .read a size :: rest →
      (size ≠ 4 ∨ a.toNat % 4 ≠ 0
        ∨ (0x100 ≤ a.toNat ∧ ¬ inWWindow s.nmax a.toNat ∧ ¬ inNvWindow s.nmax a.toNat)) →
      step s = .next { s with events := rest, answer := .read .error 0#32 })
    ∧ (∀ v, s.events = .write a size v :: rest →
      (size ≠ 4 ∨ a.toNat % 4 ≠ 0 ∨ (0x100 ≤ a.toNat ∧ ¬ inWWindow s.nmax a.toNat)) →
      step s = .next { s with events := rest, answer := .write .error })

/-- A window access while BUSY = 1 (20_memory.md R73, 10_state.md R40): a read returns OKAY with
some word, a write to W returns OKAY and stores nothing; both set HAZ and change nothing else. -/
def Obligations.WindowAccessWhileBusy : Prop :=
  ∀ (s : State) (a : Offset) (rest : List Event), s.resetLine = false →
    s.status.busy = true → a.toNat % 4 = 0 →
    ((inWWindow s.nmax a.toNat ∨ inNvWindow s.nmax a.toNat) → s.events = .read a 4 :: rest →
      ∃ x, step s = .next { s with events := rest, answer := .read .okay x,
                                   draws := s.draws + 1,
                                   status := { s.status with haz := true } })
    ∧ (∀ v, inWWindow s.nmax a.toNat → s.events = .write a 4 v :: rest →
      step s = .next { s with events := rest, answer := .write .okay,
                              status := { s.status with haz := true } })

/-- A W write while idle (20_memory.md R71, R63): with q = (a - 0x100000) / 4, r = q div WPR_W
and w = q mod WPR_W it stores bit j of the word in W[r][32w + j] for every column below 2*NMAX;
no other bit of W or NV and no other state changes. -/
def Obligations.WWriteStoresTheWord : Prop :=
  ∀ (s : State) (a : Offset) (v : Word) (rest : List Event), s.nmaxLegal →
    s.resetLine = false → s.status.busy = false → a.toNat % 4 = 0 → inWWindow s.nmax a.toNat →
    s.events = .write a 4 v :: rest →
    ∃ t : State, step s = .next t
      ∧ t = { s with events := rest, answer := .write .okay, mem := t.mem }
      ∧ (∀ r c, r < s.nmax → c < 2 * s.nmax → t.w r c =
          if r = (a.toNat - 0x100000) / 4 / ((2 * s.nmax + 31) / 32)
            ∧ c / 32 = (a.toNat - 0x100000) / 4 % ((2 * s.nmax + 31) / 32)
          then some (v.getLsbD (c % 32)) else s.w r c)
      ∧ (∀ r c, t.nv r c = s.nv r c)
      ∧ (∀ b j, (b < a.toNat ∨ a.toNat + 4 ≤ b) → t.mem.bit b j = s.mem.bit b j)

/-- A window read while idle (20_memory.md R70, R63, R64) of a word whose storage bits are all
written returns them, padding bits as 0 (R72), and changes nothing but the port's answer. -/
def Obligations.WindowReadReturnsTheWord : Prop :=
  ∀ (s : State) (a : Offset) (rest : List Event), s.nmaxLegal → s.resetLine = false →
    s.status.busy = false → a.toNat % 4 = 0 → s.events = .read a 4 :: rest →
    (∀ r w, r < s.nmax → w < (2 * s.nmax + 31) / 32 →
      a.toNat = 0x100000 + 4 * (r * ((2 * s.nmax + 31) / 32) + w) →
      (∀ j, j < 32 → 32 * w + j < 2 * s.nmax → (s.w r (32 * w + j)).isSome = true) →
      ∃ x : Word, step s = .next { s with events := rest, answer := .read .okay x }
        ∧ ∀ j, j < 32 → x.getLsbD j =
            (decide (32 * w + j < 2 * s.nmax) && (s.w r (32 * w + j) == some true)))
    ∧ (∀ r w, r < s.nmax → w < (s.nmax + 31) / 32 →
      a.toNat = 0x200000 + 4 * (r * ((s.nmax + 31) / 32) + w) →
      (∀ j, j < 32 → 32 * w + j < s.nmax → (s.nv r (32 * w + j)).isSome = true) →
      ∃ x : Word, step s = .next { s with events := rest, answer := .read .okay x }
        ∧ ∀ j, j < 32 → x.getLsbD j =
            (decide (32 * w + j < s.nmax) && (s.nv r (32 * w + j) == some true)))

/-- A window read while idle of a word with an unwritten bit (70_reset_and_hazards.md R255): the
written bits read as stored and the padding bits as 0; an unwritten bit may read as anything; no
state of the engine changes (`draws` is the model's, notes/assumptions/4.md). -/
def Obligations.WindowReadOfUnwrittenBits : Prop :=
  ∀ (s : State) (a : Offset) (rest : List Event), s.nmaxLegal → s.resetLine = false →
    s.status.busy = false → a.toNat % 4 = 0 → s.events = .read a 4 :: rest →
    (∀ r w, r < s.nmax → w < (2 * s.nmax + 31) / 32 →
      a.toNat = 0x100000 + 4 * (r * ((2 * s.nmax + 31) / 32) + w) →
      (∃ j, j < 32 ∧ 32 * w + j < 2 * s.nmax ∧ s.w r (32 * w + j) = none) →
      ∃ x : Word,
        step s = .next { s with events := rest, answer := .read .okay x, draws := s.draws + 1 }
        ∧ ∀ j, j < 32 → (2 * s.nmax ≤ 32 * w + j → x.getLsbD j = false)
            ∧ ∀ b, 32 * w + j < 2 * s.nmax → s.w r (32 * w + j) = some b → x.getLsbD j = b)
    ∧ (∀ r w, r < s.nmax → w < (s.nmax + 31) / 32 →
      a.toNat = 0x200000 + 4 * (r * ((s.nmax + 31) / 32) + w) →
      (∃ j, j < 32 ∧ 32 * w + j < s.nmax ∧ s.nv r (32 * w + j) = none) →
      ∃ x : Word,
        step s = .next { s with events := rest, answer := .read .okay x, draws := s.draws + 1 }
        ∧ ∀ j, j < 32 → (s.nmax ≤ 32 * w + j → x.getLsbD j = false)
            ∧ ∀ b, 32 * w + j < s.nmax → s.nv r (32 * w + j) = some b → x.getLsbD j = b)

/-- A read of the CSR page (20_memory.md R70, 10_state.md R24 to R32), in every phase, returns
the register at the offset and has no side effect. -/
def Obligations.CsrReads : Prop :=
  ∀ (s : State) (a : Offset) (rest : List Event), s.resetLine = false →
    s.events = .read a 4 :: rest → a.toNat < 0x100 → a.toNat % 4 = 0 →
    ∃ x : Word, step s = .next { s with events := rest, answer := .read .okay x }
      ∧ (a = 0x000#22 → x = 0x4746324A#32) ∧ (a = 0x004#22 → x = configWord s.nmax)
      ∧ (a = 0x008#22 → x = s.cmd) ∧ (a = 0x00C#22 → x = s.status.word)
      ∧ (a = 0x010#22 → x.toNat = s.nulldim.toNat)
      ∧ (a = 0x014#22 → x.toNat = s.sres.toNat) ∧ (a = 0x018#22 → x.toNat = s.ie.toNat)
      ∧ (a = 0x01C#22 → x = 0x00010000#32) ∧ (0x020 ≤ a.toNat → x = 0#32)

/-- The places of the fields in the STATUS word, its reserved bits 0 (10_state.md R27). -/
def Obligations.StatusWordLayout : Prop :=
  ∀ st : Status, st.word.getLsbD 0 = st.busy ∧ st.word.getLsbD 1 = st.done
    ∧ st.word.getLsbD 2 = st.err ∧ st.word.getLsbD 3 = st.ovr ∧ st.word.getLsbD 4 = st.haz
    ∧ st.word.extractLsb' 8 4 = st.errcode
    ∧ ∀ j, (5 ≤ j ∧ j < 8) ∨ 12 ≤ j → st.word.getLsbD j = false

/-- The fields of CONFIG for every legal NMAX, its value for NMAX = 32, and that no step changes
it (10_state.md R25). -/
def Obligations.ConfigWordLayout : Prop :=
  (∀ n, 1 ≤ n → n ≤ 2047 →
    ((configWord n).extractLsb' 0 12).toNat = n
      ∧ ((configWord n).extractLsb' 12 8).toNat = (2 * n + 31) / 32
      ∧ 1 ≤ (2 * n + 31) / 32 ∧ (2 * n + 31) / 32 ≤ 128
      ∧ ((configWord n).extractLsb' 20 8).toNat = (n + 31) / 32
      ∧ 1 ≤ (n + 31) / 32 ∧ (n + 31) / 32 ≤ 64
      ∧ (configWord n).extractLsb' 28 4 = 0#4)
  ∧ configWord 32 = 0x00102020#32
  ∧ ∀ s t : State, step s = .next t → t.csrRead 0x004 = s.csrRead 0x004

/-- A write to a read-only register or a reserved word of the CSR page gets OKAY and changes no
state, in every phase (10_state.md R23, R32). -/
def Obligations.ReadOnlyWritesIgnored : Prop :=
  ∀ (s : State) (a : Offset) (v : Word) (rest : List Event), s.resetLine = false →
    s.events = .write a 4 v :: rest → a.toNat < 0x100 → a.toNat % 4 = 0 → a ≠ 0x008#22 →
    a ≠ 0x018#22 → step s = .next { s with events := rest, answer := .write .okay }

/-- The aperture at ENGINE_BASE (20_memory.md R60): a multiple of 4 MiB from which every offset is
reached, and outside which no host address reaches the engine. -/
def Obligations.ApertureSelection : Prop :=
  ∃ base, base % 0x400000 = 0 ∧ (∀ a : Offset, apertureOffset (base + a.toNat) = some a)
    ∧ ∀ addr, (addr < base ∨ base + 0x400000 ≤ addr) → apertureOffset addr = none

/-- The places of W and NV (20_memory.md R63, R64): `W[r][c]` is bit c mod 32 of the word at
0x100000 + 4*(r*WPR_W + c div 32), `NV[t][c]` likewise at 0x200000, no two of them at one place. -/
def Obligations.StorageBitsAreDistinct : Prop :=
  ∀ n, 1 ≤ n → n ≤ 2047 →
    (∀ r c, wAddr n r c = 0x100000 + 4 * (r * ((2 * n + 31) / 32) + c / 32) + c % 32 / 8)
    ∧ (∀ r c, nvAddr n r c = 0x200000 + 4 * (r * ((n + 31) / 32) + c / 32) + c % 32 / 8)
    ∧ (∀ r r' c c', c < 2 * n → c' < 2 * n → wAddr n r c = wAddr n r' c' → c % 8 = c' % 8 →
        r = r' ∧ c = c')
    ∧ (∀ r r' c c', c < n → c' < n → nvAddr n r c = nvAddr n r' c' → c % 8 = c' % 8 →
        r = r' ∧ c = c')
    ∧ (∀ r r' c c', r < n → c < 2 * n → wAddr n r c ≠ nvAddr n r' c')

/-! ### Rules of the whole machine -/

/-- The reset state of every instance has the invariant. -/
def Obligations.ResetHasInv : Prop :=
  (∀ n, 1 ≤ n → n ≤ 2047 → (State.resetFor n).Inv) ∧ State.reset.Inv

/-- Every step keeps the invariant: NMAX in range, the invariants of STATUS (10_state.md R27), no
reserved error code (60_exceptions.md R210), the canonical form of the RAM cells with marks on
storage bits only, and the reset state while reset is asserted (70_reset_and_hazards.md R250). -/
def Obligations.StepKeepsInv : Prop :=
  ∀ s t : State, s.Inv → step s = .next t → t.Inv

/-- ID and VERSION read as their constants in every state (10_state.md R24, R31). That no step, a
reset among them, changes the parameter NMAX (00_scope.md R7) behind CONFIG (10_state.md R25) rests
on the MODEL's choice to hold NMAX in a field of the state, notes/assumptions/1.md. -/
def Obligations.ConstantsNeverChange : Prop :=
  (∀ s : State, s.csrRead 0x000 = 0x4746324A#32 ∧ s.csrRead 0x01C = 0x00010000#32)
  ∧ ∀ s t : State, step s = .next t → t.nmax = s.nmax

/-- A pending command is completed, or dropped by a reset, after finitely many steps
(70_reset_and_hazards.md R270). That the bound is the length of the stream plus one is the
MODEL's form of weak fairness, notes/assumptions/2.md. -/
def Obligations.PendingCommandEnds : Prop :=
  ∀ s : State, s.status.busy = true → s.resetLine = false →
    ∃ (n : Nat) (t : State), n ≤ s.events.length + 1
      ∧ Host.Core.run Sys2Proof.core n s = .next t ∧ t.status.busy = false

/-- NV is written only by INV (10_state.md R34): a step that changes a bit of NV completes a
pending INV, or is a soft reset that aborts one, or a change of the reset input. -/
def Obligations.NvChangesOnlyByInvOrReset : Prop :=
  ∀ s t : State, s.nmaxLegal → step s = .next t →
    (∃ a j, nvBase ≤ a ∧ t.mem.bit a j ≠ s.mem.bit a j) →
    (s.engineNext ∧ s.status.busy = true ∧ ∃ n, decode s.cmd = .ok (.inv n n))
    ∨ (∃ v, s.events.head? = some (.write 0x018#22 4 v) ∧ v.getLsbD 31 = true
        ∧ s.status.busy = true ∧ ∃ m k, decode s.cmd = .ok (.inv m k))
    ∨ (∃ level, s.events.head? = some (.resetInput level))

/-- NULLDIM changes only when a pending ELIM or INV completes without an error, SRES only when a
pending scalar command does (10_state.md R28, R29), or when a soft reset (a CTRL write with bit
31 = 1) or a change of the reset input clears them. -/
def Obligations.ResultsChangeOnlyByTheirCommands : Prop :=
  ∀ s t : State, step s = .next t →
    (t.nulldim ≠ s.nulldim →
      (s.engineNext ∧ s.status.busy = true ∧ t.status = s.status.completed
        ∧ ∃ m k, decode s.cmd = .ok (.elim m k) ∨ decode s.cmd = .ok (.inv m k))
      ∨ (((∃ v, s.events.head? = some (.write 0x018#22 4 v) ∧ v.getLsbD 31 = true)
            ∨ ∃ level, s.events.head? = some (.resetInput level))
          ∧ t.nulldim = 0#12 ∧ t.status = Status.reset ∧ t.cmd = 0#32))
    ∧ (t.sres ≠ s.sres →
      (s.engineNext ∧ s.status.busy = true ∧ t.status = s.status.completed
        ∧ ∃ i, decode s.cmd = .ok i ∧ 0x20 ≤ (opcodeOf i).toNat)
      ∨ (((∃ v, s.events.head? = some (.write 0x018#22 4 v) ∧ v.getLsbD 31 = true)
            ∨ ∃ level, s.events.head? = some (.resetInput level))
          ∧ t.sres = false ∧ t.status = Status.reset ∧ t.cmd = 0#32))

/-- The sticky bits (10_state.md R39, R40): under a host that respects 70_reset_and_hazards.md
R261 and R262 no step sets OVR or HAZ; and a step that clears one of them is a CTRL write with
CLRSTK or SRST, or a change of the reset input. -/
def Obligations.StickyBits : Prop :=
  (∀ s t : State, s.hostPatient = true → step s = .next t →
    (t.status.ovr = true → s.status.ovr = true) ∧ (t.status.haz = true → s.status.haz = true))
  ∧ ∀ s t : State, step s = .next t →
    ((s.status.ovr = true ∧ t.status.ovr = false) ∨ (s.status.haz = true ∧ t.status.haz = false)) →
    (∃ v, s.events.head? = some (.write 0x018#22 4 v)
      ∧ (v.getLsbD 2 = true ∨ v.getLsbD 31 = true))
    ∨ ∃ level, s.events.head? = some (.resetInput level)

/-- Between acceptance and completion (70_reset_and_hazards.md R262) a transaction of the host,
other than a CTRL write, changes nothing but STATUS.OVR and STATUS.HAZ (and the model's own
fields). -/
def Obligations.BusyHidesIntermediateState : Prop :=
  ∀ (s t : State) (e : Event) (rest : List Event), s.status.busy = true →
    s.events = e :: rest →
    ((∃ a size, e = .read a size) ∨ ∃ a size v, e = .write a size v ∧ a ≠ 0x018#22) →
    step s = .next t →
    t = { s with events := rest, answer := t.answer, draws := t.draws,
                 status := { s.status with ovr := t.status.ovr, haz := t.status.haz } }
end

