-- ==== Sys2Proof/Laws/State.lean ====
section
/-! SUPPORT. What each named update of the state does to each field: one lemma per field and
update, true by rfl, so that no proof unfolds a record update. -/

namespace Sys2Proof.Machine

open Sys2Proof

/-! ### `complete` (10_state.md R37) -/

@[simp] theorem State.complete_nmax (s : State) :
    s.complete.nmax = s.nmax := rfl
@[simp] theorem State.complete_cmd (s : State) :
    s.complete.cmd = s.cmd := rfl
@[simp] theorem State.complete_status (s : State) :
    s.complete.status = { s.status with busy := false, done := true } := rfl
@[simp] theorem State.complete_nulldim (s : State) :
    s.complete.nulldim = s.nulldim := rfl
@[simp] theorem State.complete_sres (s : State) :
    s.complete.sres = s.sres := rfl
@[simp] theorem State.complete_ie (s : State) :
    s.complete.ie = s.ie := rfl
@[simp] theorem State.complete_mem (s : State) :
    s.complete.mem = s.mem := rfl
@[simp] theorem State.complete_resetLine (s : State) :
    s.complete.resetLine = s.resetLine := rfl
@[simp] theorem State.complete_events (s : State) :
    s.complete.events = s.events := rfl
@[simp] theorem State.complete_answer (s : State) :
    s.complete.answer = s.answer := rfl
@[simp] theorem State.complete_draws (s : State) :
    s.complete.draws = s.draws := rfl

/-! ### `raise` (60_exceptions.md R220) -/

@[simp] theorem State.raise_nmax (s : State) (e : ErrorCode) :
    (s.raise e).nmax = s.nmax := rfl
@[simp] theorem State.raise_cmd (s : State) (e : ErrorCode) :
    (s.raise e).cmd = s.cmd := rfl
@[simp] theorem State.raise_status (s : State) (e : ErrorCode) :
    (s.raise e).status = { s.status with busy := false, done := true, err := true, errcode := e.code } := rfl
@[simp] theorem State.raise_nulldim (s : State) (e : ErrorCode) :
    (s.raise e).nulldim = s.nulldim := rfl
@[simp] theorem State.raise_sres (s : State) (e : ErrorCode) :
    (s.raise e).sres = s.sres := rfl
@[simp] theorem State.raise_ie (s : State) (e : ErrorCode) :
    (s.raise e).ie = s.ie := rfl
@[simp] theorem State.raise_mem (s : State) (e : ErrorCode) :
    (s.raise e).mem = s.mem := rfl
@[simp] theorem State.raise_resetLine (s : State) (e : ErrorCode) :
    (s.raise e).resetLine = s.resetLine := rfl
@[simp] theorem State.raise_events (s : State) (e : ErrorCode) :
    (s.raise e).events = s.events := rfl
@[simp] theorem State.raise_answer (s : State) (e : ErrorCode) :
    (s.raise e).answer = s.answer := rfl
@[simp] theorem State.raise_draws (s : State) (e : ErrorCode) :
    (s.raise e).draws = s.draws := rfl

/-! ### CTRL.ACK (10_state.md R30) -/

@[simp] theorem State.acknowledge_nmax (s : State) :
    s.acknowledge.nmax = s.nmax := rfl
@[simp] theorem State.acknowledge_cmd (s : State) :
    s.acknowledge.cmd = s.cmd := rfl
@[simp] theorem State.acknowledge_status (s : State) :
    s.acknowledge.status = { s.status with done := false } := rfl
@[simp] theorem State.acknowledge_nulldim (s : State) :
    s.acknowledge.nulldim = s.nulldim := rfl
@[simp] theorem State.acknowledge_sres (s : State) :
    s.acknowledge.sres = s.sres := rfl
@[simp] theorem State.acknowledge_ie (s : State) :
    s.acknowledge.ie = s.ie := rfl
@[simp] theorem State.acknowledge_mem (s : State) :
    s.acknowledge.mem = s.mem := rfl
@[simp] theorem State.acknowledge_resetLine (s : State) :
    s.acknowledge.resetLine = s.resetLine := rfl
@[simp] theorem State.acknowledge_events (s : State) :
    s.acknowledge.events = s.events := rfl
@[simp] theorem State.acknowledge_answer (s : State) :
    s.acknowledge.answer = s.answer := rfl
@[simp] theorem State.acknowledge_draws (s : State) :
    s.acknowledge.draws = s.draws := rfl

/-! ### CTRL.CLRSTK (10_state.md R30) -/

@[simp] theorem State.clearSticky_nmax (s : State) :
    s.clearSticky.nmax = s.nmax := rfl
@[simp] theorem State.clearSticky_cmd (s : State) :
    s.clearSticky.cmd = s.cmd := rfl
@[simp] theorem State.clearSticky_status (s : State) :
    s.clearSticky.status = { s.status with ovr := false, haz := false } := rfl
@[simp] theorem State.clearSticky_nulldim (s : State) :
    s.clearSticky.nulldim = s.nulldim := rfl
@[simp] theorem State.clearSticky_sres (s : State) :
    s.clearSticky.sres = s.sres := rfl
@[simp] theorem State.clearSticky_ie (s : State) :
    s.clearSticky.ie = s.ie := rfl
@[simp] theorem State.clearSticky_mem (s : State) :
    s.clearSticky.mem = s.mem := rfl
@[simp] theorem State.clearSticky_resetLine (s : State) :
    s.clearSticky.resetLine = s.resetLine := rfl
@[simp] theorem State.clearSticky_events (s : State) :
    s.clearSticky.events = s.events := rfl
@[simp] theorem State.clearSticky_answer (s : State) :
    s.clearSticky.answer = s.answer := rfl
@[simp] theorem State.clearSticky_draws (s : State) :
    s.clearSticky.draws = s.draws := rfl

/-! ### Acceptance (10_state.md R36) -/

@[simp] theorem State.accept_nmax (s : State) (v : Word) :
    (s.accept v).nmax = s.nmax := rfl
@[simp] theorem State.accept_cmd (s : State) (v : Word) :
    (s.accept v).cmd = v := rfl
@[simp] theorem State.accept_status (s : State) (v : Word) :
    (s.accept v).status = { s.status with busy := true, done := false, err := false, errcode := 0#4 } := rfl
@[simp] theorem State.accept_nulldim (s : State) (v : Word) :
    (s.accept v).nulldim = s.nulldim := rfl
@[simp] theorem State.accept_sres (s : State) (v : Word) :
    (s.accept v).sres = s.sres := rfl
@[simp] theorem State.accept_ie (s : State) (v : Word) :
    (s.accept v).ie = s.ie := rfl
@[simp] theorem State.accept_mem (s : State) (v : Word) :
    (s.accept v).mem = s.mem := rfl
@[simp] theorem State.accept_resetLine (s : State) (v : Word) :
    (s.accept v).resetLine = s.resetLine := rfl
@[simp] theorem State.accept_events (s : State) (v : Word) :
    (s.accept v).events = s.events := rfl
@[simp] theorem State.accept_answer (s : State) (v : Word) :
    (s.accept v).answer = s.answer := rfl
@[simp] theorem State.accept_draws (s : State) (v : Word) :
    (s.accept v).draws = s.draws := rfl

/-! ### A discarded CMD write (10_state.md R39) -/

@[simp] theorem State.overrun_nmax (s : State) :
    s.overrun.nmax = s.nmax := rfl
@[simp] theorem State.overrun_cmd (s : State) :
    s.overrun.cmd = s.cmd := rfl
@[simp] theorem State.overrun_status (s : State) :
    s.overrun.status = { s.status with ovr := true } := rfl
@[simp] theorem State.overrun_nulldim (s : State) :
    s.overrun.nulldim = s.nulldim := rfl
@[simp] theorem State.overrun_sres (s : State) :
    s.overrun.sres = s.sres := rfl
@[simp] theorem State.overrun_ie (s : State) :
    s.overrun.ie = s.ie := rfl
@[simp] theorem State.overrun_mem (s : State) :
    s.overrun.mem = s.mem := rfl
@[simp] theorem State.overrun_resetLine (s : State) :
    s.overrun.resetLine = s.resetLine := rfl
@[simp] theorem State.overrun_events (s : State) :
    s.overrun.events = s.events := rfl
@[simp] theorem State.overrun_answer (s : State) :
    s.overrun.answer = s.answer := rfl
@[simp] theorem State.overrun_draws (s : State) :
    s.overrun.draws = s.draws := rfl

/-! ### A window access while busy (10_state.md R40) -/

@[simp] theorem State.hazard_nmax (s : State) :
    s.hazard.nmax = s.nmax := rfl
@[simp] theorem State.hazard_cmd (s : State) :
    s.hazard.cmd = s.cmd := rfl
@[simp] theorem State.hazard_status (s : State) :
    s.hazard.status = { s.status with haz := true } := rfl
@[simp] theorem State.hazard_nulldim (s : State) :
    s.hazard.nulldim = s.nulldim := rfl
@[simp] theorem State.hazard_sres (s : State) :
    s.hazard.sres = s.sres := rfl
@[simp] theorem State.hazard_ie (s : State) :
    s.hazard.ie = s.ie := rfl
@[simp] theorem State.hazard_mem (s : State) :
    s.hazard.mem = s.mem := rfl
@[simp] theorem State.hazard_resetLine (s : State) :
    s.hazard.resetLine = s.resetLine := rfl
@[simp] theorem State.hazard_events (s : State) :
    s.hazard.events = s.events := rfl
@[simp] theorem State.hazard_answer (s : State) :
    s.hazard.answer = s.answer := rfl
@[simp] theorem State.hazard_draws (s : State) :
    s.hazard.draws = s.draws := rfl

/-! ### Every CSR reset (70_reset_and_hazards.md R252) -/

@[simp] theorem State.resetCsrs_nmax (s : State) :
    s.resetCsrs.nmax = s.nmax := rfl
@[simp] theorem State.resetCsrs_cmd (s : State) :
    s.resetCsrs.cmd = 0#32 := rfl
@[simp] theorem State.resetCsrs_status (s : State) :
    s.resetCsrs.status = Status.reset := rfl
@[simp] theorem State.resetCsrs_nulldim (s : State) :
    s.resetCsrs.nulldim = 0#12 := rfl
@[simp] theorem State.resetCsrs_sres (s : State) :
    s.resetCsrs.sres = false := rfl
@[simp] theorem State.resetCsrs_ie (s : State) :
    s.resetCsrs.ie = false := rfl
@[simp] theorem State.resetCsrs_mem (s : State) :
    s.resetCsrs.mem = s.mem := rfl
@[simp] theorem State.resetCsrs_resetLine (s : State) :
    s.resetCsrs.resetLine = s.resetLine := rfl
@[simp] theorem State.resetCsrs_events (s : State) :
    s.resetCsrs.events = s.events := rfl
@[simp] theorem State.resetCsrs_answer (s : State) :
    s.resetCsrs.answer = s.answer := rfl
@[simp] theorem State.resetCsrs_draws (s : State) :
    s.resetCsrs.draws = s.draws := rfl

/-! ### Hardware reset (70_reset_and_hazards.md R250) -/

@[simp] theorem State.hardwareReset_nmax (s : State) :
    s.hardwareReset.nmax = s.nmax := rfl
@[simp] theorem State.hardwareReset_cmd (s : State) :
    s.hardwareReset.cmd = 0#32 := rfl
@[simp] theorem State.hardwareReset_status (s : State) :
    s.hardwareReset.status = Status.reset := rfl
@[simp] theorem State.hardwareReset_nulldim (s : State) :
    s.hardwareReset.nulldim = 0#12 := rfl
@[simp] theorem State.hardwareReset_sres (s : State) :
    s.hardwareReset.sres = false := rfl
@[simp] theorem State.hardwareReset_ie (s : State) :
    s.hardwareReset.ie = false := rfl
@[simp] theorem State.hardwareReset_mem (s : State) :
    s.hardwareReset.mem = Memory.blank := rfl
@[simp] theorem State.hardwareReset_resetLine (s : State) :
    s.hardwareReset.resetLine = s.resetLine := rfl
@[simp] theorem State.hardwareReset_events (s : State) :
    s.hardwareReset.events = s.events := rfl
@[simp] theorem State.hardwareReset_answer (s : State) :
    s.hardwareReset.answer = s.answer := rfl
@[simp] theorem State.hardwareReset_draws (s : State) :
    s.hardwareReset.draws = s.draws := rfl

/-! ### The port's answer (20_memory.md R61) -/

@[simp] theorem State.reply_nmax (s : State) (x : Answer) :
    (s.reply x).nmax = s.nmax := rfl
@[simp] theorem State.reply_cmd (s : State) (x : Answer) :
    (s.reply x).cmd = s.cmd := rfl
@[simp] theorem State.reply_status (s : State) (x : Answer) :
    (s.reply x).status = s.status := rfl
@[simp] theorem State.reply_nulldim (s : State) (x : Answer) :
    (s.reply x).nulldim = s.nulldim := rfl
@[simp] theorem State.reply_sres (s : State) (x : Answer) :
    (s.reply x).sres = s.sres := rfl
@[simp] theorem State.reply_ie (s : State) (x : Answer) :
    (s.reply x).ie = s.ie := rfl
@[simp] theorem State.reply_mem (s : State) (x : Answer) :
    (s.reply x).mem = s.mem := rfl
@[simp] theorem State.reply_resetLine (s : State) (x : Answer) :
    (s.reply x).resetLine = s.resetLine := rfl
@[simp] theorem State.reply_events (s : State) (x : Answer) :
    (s.reply x).events = s.events := rfl
@[simp] theorem State.reply_answer (s : State) (x : Answer) :
    (s.reply x).answer = x := rfl
@[simp] theorem State.reply_draws (s : State) (x : Answer) :
    (s.reply x).draws = s.draws := rfl

/-! ### A scalar result (40_gf2_scalar.md R120) -/

@[simp] theorem State.scalarResult_nmax (s : State) (res : Bool) :
    (s.scalarResult res).nmax = s.nmax := rfl
@[simp] theorem State.scalarResult_cmd (s : State) (res : Bool) :
    (s.scalarResult res).cmd = s.cmd := rfl
@[simp] theorem State.scalarResult_status (s : State) (res : Bool) :
    (s.scalarResult res).status = { s.status with busy := false, done := true } := rfl
@[simp] theorem State.scalarResult_nulldim (s : State) (res : Bool) :
    (s.scalarResult res).nulldim = s.nulldim := rfl
@[simp] theorem State.scalarResult_sres (s : State) (res : Bool) :
    (s.scalarResult res).sres = res := rfl
@[simp] theorem State.scalarResult_ie (s : State) (res : Bool) :
    (s.scalarResult res).ie = s.ie := rfl
@[simp] theorem State.scalarResult_mem (s : State) (res : Bool) :
    (s.scalarResult res).mem = s.mem := rfl
@[simp] theorem State.scalarResult_resetLine (s : State) (res : Bool) :
    (s.scalarResult res).resetLine = s.resetLine := rfl
@[simp] theorem State.scalarResult_events (s : State) (res : Bool) :
    (s.scalarResult res).events = s.events := rfl
@[simp] theorem State.scalarResult_answer (s : State) (res : Bool) :
    (s.scalarResult res).answer = s.answer := rfl
@[simp] theorem State.scalarResult_draws (s : State) (res : Bool) :
    (s.scalarResult res).draws = s.draws := rfl

/-! ### The result of an elimination (41_elimination.md R158) -/

@[simp] theorem State.storeW_nmax {k : Nat} (s : State) (m d : Nat) (A : BitMatrix k) :
    (s.storeW m A d).nmax = s.nmax := rfl
@[simp] theorem State.storeW_cmd {k : Nat} (s : State) (m d : Nat) (A : BitMatrix k) :
    (s.storeW m A d).cmd = s.cmd := rfl
@[simp] theorem State.storeW_status {k : Nat} (s : State) (m d : Nat) (A : BitMatrix k) :
    (s.storeW m A d).status = s.status := rfl
@[simp] theorem State.storeW_nulldim {k : Nat} (s : State) (m d : Nat) (A : BitMatrix k) :
    (s.storeW m A d).nulldim = BitVec.ofNat 12 d := rfl
@[simp] theorem State.storeW_sres {k : Nat} (s : State) (m d : Nat) (A : BitMatrix k) :
    (s.storeW m A d).sres = s.sres := rfl
@[simp] theorem State.storeW_ie {k : Nat} (s : State) (m d : Nat) (A : BitMatrix k) :
    (s.storeW m A d).ie = s.ie := rfl
@[simp] theorem State.storeW_mem {k : Nat} (s : State) (m d : Nat) (A : BitMatrix k) :
    (s.storeW m A d).mem = s.mem.writeFoot (wFoot s.nmax m k) (matrixByte A wBase (wStride s.nmax)) := rfl
@[simp] theorem State.storeW_resetLine {k : Nat} (s : State) (m d : Nat) (A : BitMatrix k) :
    (s.storeW m A d).resetLine = s.resetLine := rfl
@[simp] theorem State.storeW_events {k : Nat} (s : State) (m d : Nat) (A : BitMatrix k) :
    (s.storeW m A d).events = s.events := rfl
@[simp] theorem State.storeW_answer {k : Nat} (s : State) (m d : Nat) (A : BitMatrix k) :
    (s.storeW m A d).answer = s.answer := rfl
@[simp] theorem State.storeW_draws {k : Nat} (s : State) (m d : Nat) (A : BitMatrix k) :
    (s.storeW m A d).draws = s.draws := rfl

/-! ### The null vectors (42_inversion.md R186) -/

@[simp] theorem State.storeNv_nmax {k : Nat} (s : State) (A : BitMatrix k) :
    (s.storeNv A).nmax = s.nmax := rfl
@[simp] theorem State.storeNv_cmd {k : Nat} (s : State) (A : BitMatrix k) :
    (s.storeNv A).cmd = s.cmd := rfl
@[simp] theorem State.storeNv_status {k : Nat} (s : State) (A : BitMatrix k) :
    (s.storeNv A).status = s.status := rfl
@[simp] theorem State.storeNv_nulldim {k : Nat} (s : State) (A : BitMatrix k) :
    (s.storeNv A).nulldim = s.nulldim := rfl
@[simp] theorem State.storeNv_sres {k : Nat} (s : State) (A : BitMatrix k) :
    (s.storeNv A).sres = s.sres := rfl
@[simp] theorem State.storeNv_ie {k : Nat} (s : State) (A : BitMatrix k) :
    (s.storeNv A).ie = s.ie := rfl
@[simp] theorem State.storeNv_mem {k : Nat} (s : State) (A : BitMatrix k) :
    (s.storeNv A).mem = s.mem.writeFoot (nvFoot s.nmax) (matrixByte A nvBase (nvStride s.nmax)) := rfl
@[simp] theorem State.storeNv_resetLine {k : Nat} (s : State) (A : BitMatrix k) :
    (s.storeNv A).resetLine = s.resetLine := rfl
@[simp] theorem State.storeNv_events {k : Nat} (s : State) (A : BitMatrix k) :
    (s.storeNv A).events = s.events := rfl
@[simp] theorem State.storeNv_answer {k : Nat} (s : State) (A : BitMatrix k) :
    (s.storeNv A).answer = s.answer := rfl
@[simp] theorem State.storeNv_draws {k : Nat} (s : State) (A : BitMatrix k) :
    (s.storeNv A).draws = s.draws := rfl

/-! ### An unspecified result (70_reset_and_hazards.md R255) -/

@[simp] theorem State.unspecifiedResult_nmax (s : State) (foot : List Host.Cell) :
    (s.unspecifiedResult foot).nmax = s.nmax := rfl
@[simp] theorem State.unspecifiedResult_cmd (s : State) (foot : List Host.Cell) :
    (s.unspecifiedResult foot).cmd = s.cmd := rfl
@[simp] theorem State.unspecifiedResult_status (s : State) (foot : List Host.Cell) :
    (s.unspecifiedResult foot).status = s.status := rfl
@[simp] theorem State.unspecifiedResult_nulldim (s : State) (foot : List Host.Cell) :
    (s.unspecifiedResult foot).nulldim = Config.freeNulldim s.draws := rfl
@[simp] theorem State.unspecifiedResult_sres (s : State) (foot : List Host.Cell) :
    (s.unspecifiedResult foot).sres = s.sres := rfl
@[simp] theorem State.unspecifiedResult_ie (s : State) (foot : List Host.Cell) :
    (s.unspecifiedResult foot).ie = s.ie := rfl
@[simp] theorem State.unspecifiedResult_mem (s : State) (foot : List Host.Cell) :
    (s.unspecifiedResult foot).mem = s.mem.writeFoot foot (Config.freeByte s.draws) := rfl
@[simp] theorem State.unspecifiedResult_resetLine (s : State) (foot : List Host.Cell) :
    (s.unspecifiedResult foot).resetLine = s.resetLine := rfl
@[simp] theorem State.unspecifiedResult_events (s : State) (foot : List Host.Cell) :
    (s.unspecifiedResult foot).events = s.events := rfl
@[simp] theorem State.unspecifiedResult_answer (s : State) (foot : List Host.Cell) :
    (s.unspecifiedResult foot).answer = s.answer := rfl
@[simp] theorem State.unspecifiedResult_draws (s : State) (foot : List Host.Cell) :
    (s.unspecifiedResult foot).draws = s.draws + 1 := rfl

end Sys2Proof.Machine
end

