-- ==== Sys2Proof/Laws/Step.lean ====
section
/-! SUPPORT. What one step can do, said once: the case that applies gives the next state. -/

namespace Sys2Proof.Machine

open Sys2Proof

/-- A step with nothing left in the stream is the engine's turn. -/
theorem step_of_no_event {s : State} (h : s.events = []) : step s = engineTurn s := by
  simp [step, nextTurn, h]

/-- A step with an event next serves it. -/
theorem step_of_event {s : State} {e : Event} {rest : List Event} (h : s.events = e :: rest) :
    step s = serveEvent e { s with events := rest } := by
  simp [step, nextTurn, h]

/-- The engine's turn with nothing pending. -/
theorem engineTurn_idle {s : State} (h : s.fetch = none) : engineTurn s = .next s := by
  simp [engineTurn, h]

/-- The engine's turn with a legal command pending. -/
theorem engineTurn_command {s : State} {w : Word} {i : Instr} (h : s.fetch = some w)
    (hd : decode w = .ok i) : engineTurn s = exec i s := by
  simp [engineTurn, h, hd]

/-- The engine's turn with an illegal word pending (30_encoding.md R97). -/
theorem engineTurn_illegal {s : State} {w : Word} {e : DecodeError} (h : s.fetch = some w)
    (hd : decode w = .error e) : engineTurn s = .next (s.raise .illegal) := by
  simp [engineTurn, h, hd]

theorem fetch_eq_some {s : State} {w : Word} :
    s.fetch = some w ↔ s.resetLine = false ∧ s.status.busy = true ∧ s.cmd = w := by
  unfold State.fetch State.pending
  cases s.resetLine <;> cases s.status.busy <;> simp

theorem fetch_eq_none {s : State} :
    s.fetch = none ↔ s.resetLine = true ∨ s.status.busy = false := by
  unfold State.fetch State.pending
  cases s.resetLine <;> cases s.status.busy <;> simp

/-! ### Every meaning, by its cases -/

/-- ELIM by its three cases. -/
theorem execElim_cases (rows cols : Nat) (s : State) :
    (elimShapeBad s.nmax rows cols = true ∧ execElim rows cols s = .next (s.raise .shape))
    ∨ (elimShapeBad s.nmax rows cols = false
        ∧ s.mem.footWritten (wFoot s.nmax rows cols) = true
        ∧ execElim rows cols s = .next (s.storeW rows
            (eliminate rows (s.loadW rows cols)).1 (eliminate rows (s.loadW rows cols)).2).complete)
    ∨ (elimShapeBad s.nmax rows cols = false
        ∧ s.mem.footWritten (wFoot s.nmax rows cols) = false
        ∧ execElim rows cols s
            = .next (s.unspecifiedResult (wFoot s.nmax rows cols)).complete) := by
  unfold execElim
  cases h1 : elimShapeBad s.nmax rows cols <;>
    cases h2 : s.mem.footWritten (wFoot s.nmax rows cols) <;> simp

/-- INV by its three cases. -/
theorem execInv_cases (rows cols : Nat) (s : State) :
    (invShapeBad s.nmax rows cols = true ∧ execInv rows cols s = .next (s.raise .shape))
    ∨ (invShapeBad s.nmax rows cols = false
        ∧ s.mem.footWritten (wFoot s.nmax rows rows) = true
        ∧ execInv rows cols s = .next
            ((s.storeW rows (eliminate rows (augment (s.loadW rows rows))).1
                (eliminate rows (augment (s.loadW rows rows))).2).storeNv
              (nullRows s.nmax (eliminate rows (augment (s.loadW rows rows))).1 rows
                (eliminate rows (augment (s.loadW rows rows))).2)).complete)
    ∨ (invShapeBad s.nmax rows cols = false
        ∧ s.mem.footWritten (wFoot s.nmax rows rows) = false
        ∧ execInv rows cols s = .next
            (s.unspecifiedResult
              (wFoot s.nmax rows (2 * rows) ++ nvFoot s.nmax)).complete) := by
  unfold execInv
  cases h1 : invShapeBad s.nmax rows cols <;>
    cases h2 : s.mem.footWritten (wFoot s.nmax rows rows) <;> simp

theorem execGdiv_cases (ia ib : Int) (s : State) :
    (gf2OfInt ib = true ∧ execGdiv ia ib s = .next (s.scalarResult (gf2OfInt ia)))
    ∨ (gf2OfInt ib = false ∧ execGdiv ia ib s = .next (s.raise .divzero)) := by
  unfold execGdiv gf2Div
  cases h : gf2OfInt ib <;> simp

/-! ### GF(2) -/

theorem gf2Add_eq_xor (a b : Bool) : gf2Add a b = (a ^^ b) := by cases a <;> cases b <;> decide
theorem gf2Sub_eq_xor (a b : Bool) : gf2Sub a b = (a ^^ b) := by cases a <;> cases b <;> decide
theorem gf2Mul_eq_and (a b : Bool) : gf2Mul a b = (a && b) := by cases a <;> cases b <;> decide
theorem gf2Eq_eq (a b : Bool) : gf2Eq a b = !(a ^^ b) := by cases a <;> cases b <;> decide
theorem gf2Lt_eq (a b : Bool) : gf2Lt a b = (!a && b) := by cases a <;> cases b <;> decide
theorem gf2Le_eq (a b : Bool) : gf2Le a b = (!a || b) := by cases a <;> cases b <;> decide

/-! ### The window operations -/

/-- An idle window read by its two cases (20_memory.md R70): nothing unwritten, and only the
answer changes; or a value is drawn for the unwritten bits. -/
theorem windowRead_cases (foot : List Host.Cell) (a : Nat) (s : State) :
    (s.mem.footWritten foot = true ∧ ∃ v, s.windowRead foot a = s.reply (.read .okay v))
    ∨ (s.mem.footWritten foot = false
        ∧ ∃ v, s.windowRead foot a
            = { s.reply (.read .okay v) with draws := s.draws + 1 }) := by
  unfold State.windowRead
  cases h : s.mem.footWritten foot
  · exact .inr ⟨rfl, _, rfl⟩
  · exact .inl ⟨rfl, _, rfl⟩

/-- A read changes nothing but the answer and the draw counter, and, in a window while busy,
HAZ (20_memory.md R70, R73, R75). -/
theorem busRead_cases (a : Offset) (size : Nat) (s : State) :
    ∃ x d, s.busRead a size = { s with answer := x, draws := d }
      ∨ (s.status.busy = true ∧ s.busRead a size
          = { s with status := { s.status with haz := true }, answer := x, draws := d }) := by
  have hwin : ∀ foot, ∃ x d, s.windowRead foot a.toNat = { s with answer := x, draws := d } := by
    intro foot
    rcases windowRead_cases foot a.toNat s with ⟨_, v, h⟩ | ⟨_, v, h⟩
    · exact ⟨.read .okay v, s.draws, by rw [h]; rfl⟩
    · exact ⟨.read .okay v, s.draws + 1, by rw [h]; rfl⟩
  unfold State.busRead State.serveRead
  split
  · exact ⟨.notServed, s.draws, .inl rfl⟩
  split
  · exact ⟨readError, s.draws, .inl rfl⟩
  split
  · exact ⟨.read .okay (s.csrRead a.toNat), s.draws, .inl rfl⟩
  · split
    · rename_i hb
      exact ⟨.read .okay (Config.freeWord s.draws), s.draws + 1, .inr ⟨hb, rfl⟩⟩
    · obtain ⟨x, d, h⟩ := hwin (wWordFoot s.nmax a.toNat)
      exact ⟨x, d, .inl h⟩
  · split
    · rename_i hb
      exact ⟨.read .okay (Config.freeWord s.draws), s.draws + 1, .inr ⟨hb, rfl⟩⟩
    · obtain ⟨x, d, h⟩ := hwin (nvWordFoot s.nmax a.toNat)
      exact ⟨x, d, .inl h⟩
  · exact ⟨readError, s.draws, .inl rfl⟩

/-- A served W write by its two cases (20_memory.md R71). -/
theorem wWrite_cases (a : Nat) (v : Word) (s : State) :
    (s.status.busy = true ∧ s.wWrite a v = s.hazard)
    ∨ (s.status.busy = false
        ∧ s.wWrite a v = { s with mem := s.mem.writeFoot (wWordFoot s.nmax a) (laneOf v a) }) := by
  unfold State.wWrite
  cases h : s.status.busy <;> simp

/-- A soft reset by its two cases (70_reset_and_hazards.md R253). -/
theorem softReset_cases (s : State) :
    (s.status.busy = true ∧ s.softReset
        = { s.resetCsrs with mem := s.mem.forgetFoot (abortFoot s.nmax s.cmd) })
    ∨ (s.status.busy = false ∧ s.softReset = s.resetCsrs) := by
  unfold State.softReset State.pending
  cases h : s.status.busy <;> simp

end Sys2Proof.Machine
end

