-- ==== Sys2Proof/Laws/Effect.lean ====
section
/-! SUPPORT. One inversion lemma for exec and one for the step: everything that either can do. -/

namespace Sys2Proof.Machine

open Sys2Proof

/-! ### The meanings -/

/-- A meaning ends in one of two ways (10_state.md R37): it completes, or it raises SHAPE or
DIVZERO and changes nothing else; either way it leaves the registers it has no business with. -/
theorem exec_cases {i : Instr} {s t : State} (h : exec i s = .next t) :
    (t.status = { s.status with busy := false, done := true } ∧ t.cmd = s.cmd ∧ t.ie = s.ie
        ∧ t.nmax = s.nmax ∧ t.resetLine = s.resetLine ∧ t.events = s.events
        ∧ t.answer = s.answer)
      ∨ t = s.raise .shape ∨ t = s.raise .divzero := by
  cases i with
  | elim m k =>
    rcases execElim_cases m k s with ⟨_, e⟩ | ⟨_, _, e⟩ | ⟨_, _, e⟩ <;> rw [exec, e] at h <;> cases h
    · exact .inr (.inl rfl)
    · exact .inl ⟨rfl, rfl, rfl, rfl, rfl, rfl, rfl⟩
    · exact .inl ⟨rfl, rfl, rfl, rfl, rfl, rfl, rfl⟩
  | inv m k =>
    rcases execInv_cases m k s with ⟨_, e⟩ | ⟨_, _, e⟩ | ⟨_, _, e⟩ <;> rw [exec, e] at h <;> cases h
    · exact .inr (.inl rfl)
    · exact .inl ⟨rfl, rfl, rfl, rfl, rfl, rfl, rfl⟩
    · exact .inl ⟨rfl, rfl, rfl, rfl, rfl, rfl, rfl⟩
  | gdiv a b =>
    rcases execGdiv_cases a b s with ⟨_, e⟩ | ⟨_, e⟩ <;> rw [exec, e] at h <;> cases h
    · exact .inl ⟨rfl, rfl, rfl, rfl, rfl, rfl, rfl⟩
    · exact .inr (.inr rfl)
  | gadd a b => cases h; exact .inl ⟨rfl, rfl, rfl, rfl, rfl, rfl, rfl⟩
  | gsub a b => cases h; exact .inl ⟨rfl, rfl, rfl, rfl, rfl, rfl, rfl⟩
  | gmul a b => cases h; exact .inl ⟨rfl, rfl, rfl, rfl, rfl, rfl, rfl⟩
  | gceq a b => cases h; exact .inl ⟨rfl, rfl, rfl, rfl, rfl, rfl, rfl⟩
  | gclt a b => cases h; exact .inl ⟨rfl, rfl, rfl, rfl, rfl, rfl, rfl⟩
  | gcle a b => cases h; exact .inl ⟨rfl, rfl, rfl, rfl, rfl, rfl, rfl⟩

/-! ### The step -/

/-- The ways a step leads from s to a state. -/
inductive StepEffect (s : State) : State → Prop
  /-- Nothing of the engine changes: an idle turn, a read, a refused or ignored access, an
  unasserted reset input. -/
  | quiet (x : Answer) (d : Nat) :
      StepEffect s { s with events := s.events.tail, answer := x, draws := d }
  /-- A window access while busy (10_state.md R40). -/
  | hazard (x : Answer) (d : Nat) : s.resetLine = false →
      s.status.busy = true → s.hostPatient = false →
      StepEffect s { s with events := s.events.tail, answer := x, draws := d,
                            status := { s.status with haz := true } }
  /-- A CMD write while busy (10_state.md R39). -/
  | overrun (x : Answer) : s.resetLine = false → s.status.busy = true →
      s.hostPatient = false →
      StepEffect s { s with events := s.events.tail, answer := x,
                            status := { s.status with ovr := true } }
  /-- A CMD write while idle (10_state.md R36). -/
  | accepted (v : Word) (rest : List Event) : s.resetLine = false →
      s.events = .write 0x008#22 4 v :: rest → s.status.busy = false →
      StepEffect s { s with events := rest, answer := .write .okay, cmd := v,
                            status := { s.status with busy := true, done := false, err := false,
                                                      errcode := 0#4 } }
  /-- The engine completes a legal command (10_state.md R37). -/
  | command (i : Instr) (t : State) : s.engineNext → s.resetLine = false →
      s.status.busy = true → decode s.cmd = .ok i →
      exec i { s with events := s.events.tail } = .next t → StepEffect s t
  /-- The engine completes an illegal word (60_exceptions.md R211). -/
  | illegal (e : DecodeError) : s.engineNext → s.resetLine = false → s.status.busy = true →
      decode s.cmd = .error e →
      StepEffect s (({ s with events := s.events.tail } : State).raise .illegal)
  /-- A CTRL write with bit 31 = 0 (10_state.md R30). -/
  | control (v : Word) (rest : List Event) : s.resetLine = false →
      s.events = .write 0x018#22 4 v :: rest → v.getLsbD 31 = false →
      StepEffect s { s with
        events := rest, answer := .write .okay, ie := v.getLsbD 0,
        status := { s.status with done := s.status.done && !v.getLsbD 1,
                                  ovr := s.status.ovr && !v.getLsbD 2,
                                  haz := s.status.haz && !v.getLsbD 2 } }
  /-- A CTRL write with bit 31 = 1 (70_reset_and_hazards.md R253). -/
  | softReset (v : Word) (rest : List Event) (m : Memory) : s.resetLine = false →
      s.events = .write 0x018#22 4 v :: rest → v.getLsbD 31 = true →
      (s.status.busy = false → m = s.mem) →
      (s.status.busy = true → m = s.mem.forgetFoot (abortFoot s.nmax s.cmd)) →
      StepEffect s { s with events := rest, answer := .write .okay, cmd := 0#32,
                            status := Status.reset, nulldim := 0#12, sres := false, ie := false,
                            mem := m }
  /-- A W write while idle (20_memory.md R71). -/
  | stored (a : Offset) (v : Word) (rest : List Event) : s.resetLine = false →
      s.events = .write a 4 v :: rest → s.status.busy = false → a.toNat % 4 = 0 →
      regionOf s.nmax a.toNat = .wWindow →
      StepEffect s { s with events := rest, answer := .write .okay,
                            mem := s.mem.writeFoot (wWordFoot s.nmax a.toNat) (laneOf v a.toNat) }
  /-- The reset input is asserted, or released after it was (70_reset_and_hazards.md R250). -/
  | hardwareReset (level : Bool) (rest : List Event) : s.events = .resetInput level :: rest →
      StepEffect s { s with events := rest, cmd := 0#32, status := Status.reset,
                            nulldim := 0#12, sres := false, ie := false, mem := Memory.blank,
                            resetLine := level }

/-- On the engine's turn a step is the turn in the state whose stream has moved past it. -/
theorem step_of_engineNext {s : State} (h : s.engineNext) :
    step s = engineTurn { s with events := s.events.tail } := by
  rcases h with h | h
  · rw [step_of_no_event h, h, List.tail_nil, ← h]
  · obtain ⟨rest, h⟩ := List.head?_eq_some_iff.mp h
    rw [step_of_event h, h]; rfl

theorem hostPatient_false_of_window {s : State} {a : Offset} (hb : s.status.busy = true)
    (hr : regionOf s.nmax a.toNat = .wWindow ∨ regionOf s.nmax a.toNat = .nvWindow)
    (he : (∃ z rest, s.events = .read a z :: rest) ∨ ∃ z v rest, s.events = .write a z v :: rest) :
    s.hostPatient = false := by
  unfold State.hostPatient
  rcases he with ⟨z, rest, he⟩ | ⟨z, v, rest, he⟩ <;> rcases hr with hr | hr <;> simp [he, hr, hb]

/-- A host Read, as a step. -/
theorem stepEffect_read {s : State} {a : Offset} {z : Nat} {rest : List Event}
    (he : s.events = .read a z :: rest) :
    StepEffect s (({ s with events := rest } : State).busRead a z) := by
  obtain rfl : s.events.tail = rest := by rw [he]; rfl
  have hpat := fun hb hr => hostPatient_false_of_window (s := s) (a := a) hb hr
    (.inl ⟨z, _, he⟩)
  have hwin : ∀ foot : List Host.Cell, StepEffect s
      (({ s with events := s.events.tail } : State).windowRead foot a.toNat) := by
    intro foot
    rcases windowRead_cases foot a.toNat { s with events := s.events.tail } with ⟨_, v, h⟩ | ⟨_, v, h⟩
    · rw [h]; exact .quiet (.read .okay v) s.draws
    · rw [h]; exact .quiet (.read .okay v) (s.draws + 1)
  unfold State.busRead
  split
  · exact .quiet .notServed s.draws
  rename_i hl
  have hl : s.resetLine = false := by simpa using hl
  split
  · exact .quiet readError s.draws
  unfold State.serveRead
  split
  · exact .quiet (.read .okay (s.csrRead a.toNat)) s.draws
  · rename_i hr
    split
    · rename_i hb
      exact .hazard (.read .okay (Config.freeWord s.draws)) (s.draws + 1) hl hb
        (hpat hb (.inl hr))
    · exact hwin _
  · rename_i hr
    split
    · rename_i hb
      exact .hazard (.read .okay (Config.freeWord s.draws)) (s.draws + 1) hl hb
        (hpat hb (.inr hr))
    · exact hwin _
  · exact .quiet readError s.draws

theorem offset_eq {a : Offset} {n : Nat} (h : a.toNat = n) (hn : n < 2 ^ 22) :
    a = BitVec.ofNat 22 n := by
  apply BitVec.eq_of_toNat_eq
  rw [h, BitVec.toNat_ofNat, Nat.mod_eq_of_lt hn]

/-- A host Write of CTRL, as a step. -/
theorem stepEffect_ctrl {s : State} {v : Word} {rest : List Event} (hl : s.resetLine = false)
    (he : s.events = .write 0x018#22 4 v :: rest) :
    StepEffect s ((({ s with events := rest } : State).ctrlWrite v).reply (.write .okay)) := by
  cases hv : v.getLsbD 31
  · have h := StepEffect.control v rest hl he hv
    unfold State.ctrlWrite
    rw [hv]
    cases h1 : v.getLsbD 1 <;> cases h2 : v.getLsbD 2 <;> rw [h1, h2] at h <;>
      simpa [State.acknowledge, State.clearSticky, State.reply] using h
  · have h := fun m => StepEffect.softReset v rest m hl he hv
    unfold State.ctrlWrite
    rw [hv]
    rcases softReset_cases { s with events := rest } with ⟨hb, hs⟩ | ⟨hb, hs⟩
    · have hb' : s.status.busy = true := hb
      simp only [if_true, hs]
      exact h (s.mem.forgetFoot (abortFoot s.nmax s.cmd)) (fun h' => by rw [hb'] at h'; cases h')
        (fun _ => rfl)
    · have hb' : s.status.busy = false := hb
      simp only [if_true, hs]
      exact h s.mem (fun _ => rfl) (fun h' => by rw [hb'] at h'; cases h')

/-- A host Write, as a step. -/
theorem stepEffect_write {s : State} {a : Offset} {z : Nat} {v : Word} {rest : List Event}
    (he : s.events = .write a z v :: rest) :
    StepEffect s (({ s with events := rest } : State).busWrite a z v) := by
  obtain rfl : s.events.tail = rest := by rw [he]; rfl
  unfold State.busWrite
  split
  · exact .quiet .notServed s.draws
  rename_i hl
  have hl : s.resetLine = false := by simpa using hl
  split
  · exact .quiet writeError s.draws
  rename_i hbad
  obtain ⟨rfl, h4⟩ : z = 4 ∧ a.toNat % 4 = 0 := by simpa [badAccess] using hbad
  unfold State.serveWrite
  split
  · unfold State.csrWrite
    split
    · rename_i ha
      obtain rfl : a = 0x008#22 := offset_eq ha (by norm_num)
      unfold State.cmdWrite
      split
      · rename_i hb
        exact .overrun (.write .okay) hl hb (by
          have hb' : s.status.busy = true := hb
          unfold State.hostPatient
          rw [he]; simp [hb'])
      · rename_i hb
        exact .accepted v _ hl he (by simpa using hb)
    split
    · rename_i ha
      obtain rfl : a = 0x018#22 := offset_eq ha (by norm_num)
      exact stepEffect_ctrl hl he
    · exact .quiet (.write .okay) s.draws
  · rename_i hr
    rcases wWrite_cases a.toNat v { s with events := s.events.tail } with ⟨hb, hw⟩ | ⟨hb, hw⟩
    · rw [hw]
      exact .hazard (.write .okay) s.draws hl hb
        (hostPatient_false_of_window hb (.inl hr) (.inr ⟨4, v, _, he⟩))
    · rw [hw]; exact .stored a v _ hl he hb h4 hr
  · exact .quiet writeError s.draws
  · exact .quiet writeError s.draws

/-- A level of the reset input, as a step. -/
theorem stepEffect_resetInput {s : State} {level : Bool} {rest : List Event}
    (he : s.events = .resetInput level :: rest) :
    StepEffect s (({ s with events := rest } : State).driveReset level) := by
  obtain rfl : s.events.tail = rest := by rw [he]; rfl
  unfold State.driveReset
  split
  · exact .hardwareReset level _ he
  · exact .quiet s.answer s.draws

/-- The engine's turn, as a step. -/
theorem stepEffect_engine {s t : State} (hn : s.engineNext)
    (h : engineTurn { s with events := s.events.tail } = .next t) : StepEffect s t := by
  by_cases hp : s.resetLine = true ∨ s.status.busy = false
  · rw [engineTurn_idle (s := { s with events := s.events.tail }) (fetch_eq_none.mpr hp)] at h
    cases h; exact .quiet s.answer s.draws
  · simp only [not_or, Bool.not_eq_true, Bool.not_eq_false] at hp
    have hf : ({ s with events := s.events.tail } : State).fetch = some s.cmd :=
      fetch_eq_some.mpr ⟨hp.1, hp.2, rfl⟩
    cases hd : decode s.cmd with
    | ok i =>
      rw [engineTurn_command hf hd] at h
      exact .command i t hn hp.1 hp.2 hd h
    | error e =>
      rw [engineTurn_illegal hf hd] at h
      cases h; exact .illegal e hn hp.1 hp.2 hd

/-- Everything a step can do. -/
theorem step_cases {s t : State} (h : step s = .next t) : StepEffect s t := by
  by_cases hn : s.engineNext
  · rw [step_of_engineNext hn] at h
    exact stepEffect_engine hn h
  · cases he : s.events with
    | nil => exact absurd (.inl he) hn
    | cons e rest =>
      rw [step_of_event he] at h
      cases e with
      | read a z => cases h; exact stepEffect_read he
      | write a z v => cases h; exact stepEffect_write he
      | resetInput level => cases h; exact stepEffect_resetInput he
      | engine => exact absurd (.inr (by rw [he]; rfl)) hn

end Sys2Proof.Machine
end

