-- ==== Sys2Proof/Laws/Memory.lean ====
section
/-! SUPPORT. What each memory operation can do, said once: reading after listing and unlisting a
cell, reading a bit after writing or forgetting a footprint, and that every operation keeps the
canonical form. -/

namespace Sys2Proof.Machine

open Sys2Proof

/-! ### Cells -/

theorem cellGet_cellSet (cells : List Host.Cell) (a b : Nat) (v : Byte) :
    cellGet (cellSet cells a v) b = if a = b then some v else cellGet cells b := by
  induction cells with
  | nil => simp [cellSet, cellGet]
  | cons c rest ih =>
    simp only [cellSet]
    split
    · rename_i hlt
      simp only [cellGet, ih]
      split
      · rename_i hc
        rw [if_neg (by omega)]
      · rfl
    · split
      · rename_i hlt heq
        simp only [cellGet, heq]
        split <;> rfl
      · simp only [cellGet]

theorem cellGet_cellErase (cells : List Host.Cell) (a b : Nat) :
    cellGet (cellErase cells a) b = if a = b then none else cellGet cells b := by
  induction cells with
  | nil => simp [cellErase, cellGet]
  | cons c rest ih =>
    unfold cellErase at ih ⊢
    by_cases hc : c.1 = a
    · rw [List.filter_cons_of_neg (by simp [hc]), ih]
      by_cases hab : a = b
      · simp [hab]
      · simp [hab, cellGet, hc]
    · rw [List.filter_cons_of_pos (by simp [hc])]
      simp only [cellGet, ih]
      by_cases hcb : c.1 = b
      · rw [if_pos hcb, if_neg (by omega), if_pos hcb]
      · simp [hcb]

/-! ### One byte -/

theorem Memory.value_put (m : Memory) (a b : Nat) (v k : Byte) :
    (m.put a v k).value b = if a = b then v &&& k else m.value b := by
  unfold Memory.put Memory.value
  split
  · rename_i hk
    simp only [cellGet_cellErase, hk]
    split <;> simp [Memory.unlisted]
  · simp only [cellGet_cellSet]
    split <;> simp

theorem Memory.mark_put (m : Memory) (a b : Nat) (v k : Byte) :
    (m.put a v k).mark b = if a = b then k else m.mark b := by
  unfold Memory.put Memory.mark
  split
  · rename_i hk
    simp only [cellGet_cellErase, hk]
    split <;> simp [Memory.unlisted]
  · simp only [cellGet_cellSet]
    split <;> simp

/-- Reading a bit after writing bits of one byte. -/
theorem Memory.bit_merge (m : Memory) (a b j : Nat) (v k : Byte) :
    (m.merge a v k).bit b j =
      if a = b ∧ k.getLsbD j = true then some (v.getLsbD j) else m.bit b j := by
  unfold Memory.merge Memory.bit
  simp only [Memory.value_put, Memory.mark_put]
  by_cases hab : a = b
  · subst hab
    by_cases hk : k.getLsbD j = true
    · simp [hk]
    · simp only [Bool.not_eq_true] at hk
      have hj : (m.mark a).getLsbD j = true → j < 8 := BitVec.lt_of_getLsbD
      by_cases hm : (m.mark a).getLsbD j = true
      · have hj8 := hj hm
        rw [BitVec.getLsbD_eq_getElem hj8] at hk hm
        simp [hk, hm, hj8]
      · simp [hk, hm]
  · simp [hab]

/-- Reading a bit after making bits of one byte unwritten. -/
theorem Memory.bit_forget (m : Memory) (a b j : Nat) (k : Byte) :
    (m.forget a k).bit b j =
      if a = b ∧ k.getLsbD j = true then none else m.bit b j := by
  unfold Memory.forget Memory.bit
  simp only [Memory.value_put, Memory.mark_put]
  by_cases hab : a = b
  · subst hab
    by_cases hk : k.getLsbD j = true
    · simp [hk]
    · simp only [Bool.not_eq_true] at hk
      have hj : (m.mark a).getLsbD j = true → j < 8 := BitVec.lt_of_getLsbD
      by_cases hm : (m.mark a).getLsbD j = true
      · have hj8 := hj hm
        rw [BitVec.getLsbD_eq_getElem hj8] at hk hm
        simp [hk, hm, hj8]
      · simp [hk, hm]
  · simp [hab]

theorem Memory.bit_blank (a j : Nat) : Memory.blank.bit a j = none := by
  simp [Memory.bit, Memory.blank, Memory.mark, cellGet, Memory.unlisted]

/-- The mark of a byte that no written cell names is unchanged. -/
theorem Memory.mark_merge (m : Memory) (a b : Nat) (v k : Byte) :
    (m.merge a v k).mark b = if a = b then m.mark a ||| k else m.mark b :=
  Memory.mark_put m a b _ _

theorem Memory.mark_forget (m : Memory) (a b : Nat) (k : Byte) :
    (m.forget a k).mark b = if a = b then m.mark a &&& ~~~k else m.mark b :=
  Memory.mark_put m a b _ _

/-! ### Footprints -/

@[simp] theorem inFoot_nil (a j : Nat) : inFoot [] a j = false := rfl

theorem inFoot_cons (c : Host.Cell) (foot : List Host.Cell) (a j : Nat) :
    inFoot (c :: foot) a j = ((c.1 == a && c.2.getLsbD j) || inFoot foot a j) := rfl

theorem inFoot_append (f g : List Host.Cell) (a j : Nat) :
    inFoot (f ++ g) a j = (inFoot f a j || inFoot g a j) := by
  simp [inFoot]

theorem inFoot_iff (foot : List Host.Cell) (a j : Nat) :
    inFoot foot a j = true ↔ ∃ k, (a, k) ∈ foot ∧ k.getLsbD j = true := by
  simp only [inFoot, List.any_eq_true, Bool.and_eq_true, beq_iff_eq]
  constructor
  · rintro ⟨⟨b, k⟩, hmem, rfl, hk⟩
    exact ⟨k, hmem, hk⟩
  · rintro ⟨k, hmem, hk⟩
    exact ⟨(a, k), hmem, rfl, hk⟩

/-- Reading a bit after writing a footprint: everything the operation can do. -/
theorem Memory.bit_writeFoot (foot : List Host.Cell) (f : Nat → Byte) (m : Memory) (a j : Nat) :
    (m.writeFoot foot f).bit a j =
      if inFoot foot a j = true then some ((f a).getLsbD j) else m.bit a j := by
  induction foot generalizing m with
  | nil => simp [Memory.writeFoot]
  | cons c rest ih =>
    have hstep : m.writeFoot (c :: rest) f = (m.merge c.1 (f c.1) c.2).writeFoot rest f := rfl
    rw [hstep, ih, inFoot_cons, Memory.bit_merge]
    by_cases hr : inFoot rest a j = true
    · simp [hr]
    · by_cases hc : c.1 = a
      · subst hc; simp [hr]
      · simp [hr, hc]

/-- Reading a bit after making a footprint unwritten: everything the operation can do. -/
theorem Memory.bit_forgetFoot (foot : List Host.Cell) (m : Memory) (a j : Nat) :
    (m.forgetFoot foot).bit a j = if inFoot foot a j = true then none else m.bit a j := by
  induction foot generalizing m with
  | nil => simp [Memory.forgetFoot]
  | cons c rest ih =>
    have hstep : m.forgetFoot (c :: rest) = (m.forget c.1 c.2).forgetFoot rest := rfl
    rw [hstep, ih, inFoot_cons, Memory.bit_forget]
    by_cases hr : inFoot rest a j = true
    · simp [hr]
    · by_cases hc : c.1 = a
      · subst hc; simp [hr]
      · simp [hr, hc]

/-- A footprint is written exactly when each of its bits has a value. -/
theorem Memory.footWritten_iff (m : Memory) (foot : List Host.Cell) :
    m.footWritten foot = true ↔ ∀ a j, inFoot foot a j = true → (m.bit a j).isSome = true := by
  simp only [Memory.footWritten, List.all_eq_true, beq_iff_eq]
  constructor
  · intro h a j hin
    obtain ⟨k, hmem, hk⟩ := (inFoot_iff foot a j).mp hin
    have hmask := congrArg (BitVec.getLsbD · j) (h (a, k) hmem)
    simp only [BitVec.getLsbD_and, hk, Bool.and_true] at hmask
    simp [Memory.bit, hmask]
  · rintro h ⟨a, k⟩ hmem
    ext j hj
    by_cases hk : k.getLsbD j = true
    · have := h a j ((inFoot_iff foot a j).mpr ⟨k, hmem, hk⟩)
      have hmark : (m.mark a).getLsbD j = true := by
        by_contra hno
        simp [Memory.bit, hno] at this
      simp [← BitVec.getLsbD_eq_getElem, hk, hmark]
    · simp only [Bool.not_eq_true] at hk
      simp [← BitVec.getLsbD_eq_getElem, hk]

/-! ### The canonical form -/

theorem mem_keys_cellSet {cells : List Host.Cell} {a : Nat} {v : Byte} {x : Nat} :
    x ∈ (cellSet cells a v).map Prod.fst ↔ x = a ∨ x ∈ cells.map Prod.fst := by
  induction cells with
  | nil => simp [cellSet]
  | cons c rest ih =>
    simp only [cellSet]
    split
    · simp only [List.map_cons, List.mem_cons, ih]; tauto
    · split
      · rename_i h1 h2
        simp only [List.map_cons, List.mem_cons]
        rw [h2]; tauto
      · simp only [List.map_cons, List.mem_cons]

theorem rising_cons {a : Nat} {l : List Nat} :
    rising (a :: l) = true ↔ (∀ b ∈ l, a < b) ∧ rising l = true := by
  induction l generalizing a with
  | nil => simp [rising]
  | cons b rest ih =>
    simp only [rising, Bool.and_eq_true, decide_eq_true_eq, List.mem_cons, forall_eq_or_imp]
    constructor
    · rintro ⟨hab, hr⟩
      refine ⟨⟨hab, fun c hc => ?_⟩, hr⟩
      exact lt_trans hab ((ih.mp hr).1 c hc)
    · rintro ⟨⟨hab, _⟩, hr⟩
      exact ⟨hab, hr⟩

theorem rising_keys_cellSet {cells : List Host.Cell} {a : Nat} {v : Byte}
    (h : rising (cells.map Prod.fst) = true) :
    rising ((cellSet cells a v).map Prod.fst) = true := by
  induction cells with
  | nil => simp [cellSet, rising]
  | cons c rest ih =>
    obtain ⟨hlt, hr⟩ := rising_cons.mp (show rising (c.1 :: rest.map Prod.fst) = true from h)
    simp only [cellSet]
    split
    · rename_i hca
      refine rising_cons.mpr ⟨fun b hb => ?_, ih hr⟩
      rcases mem_keys_cellSet.mp hb with rfl | hb
      · exact hca
      · exact hlt b hb
    · split
      · rename_i hca
        exact rising_cons.mpr ⟨fun b hb => hca ▸ hlt b hb, hr⟩
      · rename_i h1 h2
        refine rising_cons.mpr ⟨fun b hb => ?_, h⟩
        rcases List.mem_cons.mp hb with rfl | hb
        · show a < c.1; omega
        · have := hlt b hb; omega

theorem keys_cellSet_congr {x y : List Host.Cell} (h : x.map Prod.fst = y.map Prod.fst)
    (a : Nat) (u v : Byte) :
    (cellSet x a u).map Prod.fst = (cellSet y a v).map Prod.fst := by
  induction x generalizing y with
  | nil =>
    cases y with
    | nil => simp [cellSet]
    | cons d rest => simp at h
  | cons c rest ih =>
    cases y with
    | nil => simp at h
    | cons d rest' =>
      simp only [List.map_cons, List.cons.injEq] at h
      obtain ⟨hcd, hrest⟩ := h
      simp only [cellSet, hcd]
      split
      · simp [hcd, ih hrest]
      · split <;> simp [hrest, hcd]

theorem keys_cellErase (cells : List Host.Cell) (a : Nat) :
    (cellErase cells a).map Prod.fst = (cells.map Prod.fst).filter (· != a) := by
  simp [cellErase, List.filter_map, Function.comp_def]

theorem rising_iff_pairwise (l : List Nat) : rising l = true ↔ l.Pairwise (· < ·) := by
  induction l with
  | nil => simp [rising]
  | cons a rest ih => rw [rising_cons, List.pairwise_cons, ih]

theorem mem_cellSet {cells : List Host.Cell} {a : Nat} {v : Byte} {c : Host.Cell}
    (h : c ∈ cellSet cells a v) : c = (a, v) ∨ (c ∈ cells) := by
  induction cells with
  | nil => simpa [cellSet] using h
  | cons d rest ih =>
    simp only [cellSet] at h
    split at h
    · rcases List.mem_cons.mp h with rfl | h
      · simp
      · rcases ih h with h | h <;> simp [h]
    · split at h
      · rcases List.mem_cons.mp h with rfl | h <;> simp_all
      · rcases List.mem_cons.mp h with rfl | h <;> simp_all

/-- In a rising list the cell at an address is the one `cellGet` finds. -/
theorem cellGet_of_mem {cells : List Host.Cell} (h : rising (cells.map Prod.fst) = true)
    {c : Host.Cell} (hc : c ∈ cells) : cellGet cells c.1 = some c.2 := by
  induction cells with
  | nil => simp at hc
  | cons d rest ih =>
    obtain ⟨hlt, hr⟩ := rising_cons.mp (show rising (d.1 :: rest.map Prod.fst) = true from h)
    rcases List.mem_cons.mp hc with rfl | hc
    · simp [cellGet]
    · have hd : d.1 < c.1 := hlt c.1 (List.mem_map_of_mem hc)
      simp [cellGet, Nat.ne_of_lt hd, ih hr hc]

/-- The canonical form, spelled out. -/
theorem Memory.wf_iff (m : Memory) :
    m.wf = true ↔ m.bytes.map Prod.fst = m.marks.map Prod.fst
      ∧ rising (m.marks.map Prod.fst) = true
      ∧ (∀ c ∈ m.marks, c.2 ≠ 0#8)
      ∧ (∀ c ∈ m.bytes, c.2 &&& ~~~(m.mark c.1) = 0#8) := by
  simp [Memory.wf, and_assoc]

theorem Memory.wf_put {m : Memory} (h : m.wf = true) (a : Nat) (v k : Byte) :
    (m.put a v k).wf = true := by
  obtain ⟨hkeys, hrise, hnz, hsub⟩ := (Memory.wf_iff m).mp h
  have hmark := fun b => Memory.mark_put m a b v k
  refine (Memory.wf_iff _).mpr ?_
  by_cases hk : k = 0#8
  · have hput : m.put a v k = { bytes := cellErase m.bytes a, marks := cellErase m.marks a } := by
      simp [Memory.put, hk]
    refine ⟨?_, ?_, ?_, ?_⟩
    · rw [hput]; simp only [keys_cellErase, hkeys]
    · rw [hput]; simp only [keys_cellErase]
      rw [rising_iff_pairwise] at hrise ⊢
      exact hrise.filter _
    · rw [hput]
      intro c hc
      exact hnz c (List.mem_filter.mp hc).1
    · intro c hc
      rw [hmark]
      rw [hput] at hc
      obtain ⟨hc, hne⟩ := List.mem_filter.mp hc
      have hne : a ≠ c.1 := fun e => by simp [e] at hne
      rw [if_neg hne]
      exact hsub c hc
  · have hput : m.put a v k =
        { bytes := cellSet m.bytes a (v &&& k), marks := cellSet m.marks a k } := by
      simp [Memory.put, hk]
    have hrise' : rising ((cellSet m.bytes a (v &&& k)).map Prod.fst) = true :=
      rising_keys_cellSet (hkeys ▸ hrise)
    refine ⟨?_, ?_, ?_, ?_⟩
    · rw [hput]; exact keys_cellSet_congr hkeys a _ _
    · rw [hput]; exact rising_keys_cellSet hrise
    · rw [hput]
      intro c hc
      rcases mem_cellSet hc with rfl | hc
      · exact hk
      · exact hnz c hc
    · intro c hc
      rw [hmark]
      rw [hput] at hc
      have hget := cellGet_of_mem hrise' hc
      rw [cellGet_cellSet] at hget
      by_cases hac : a = c.1
      · rw [if_pos hac] at hget ⊢
        have : v &&& k = c.2 := by simpa using hget
        rw [← this]
        ext j hj
        simp
      · rw [if_neg hac]
        rcases mem_cellSet hc with rfl | hc
        · exact absurd rfl hac
        · exact hsub c hc

theorem Memory.wf_merge {m : Memory} (h : m.wf = true) (a : Nat) (v k : Byte) :
    (m.merge a v k).wf = true := Memory.wf_put h _ _ _

theorem Memory.wf_forget {m : Memory} (h : m.wf = true) (a : Nat) (k : Byte) :
    (m.forget a k).wf = true := Memory.wf_put h _ _ _

theorem Memory.wf_writeFoot {m : Memory} (h : m.wf = true) (foot : List Host.Cell)
    (f : Nat → Byte) : (m.writeFoot foot f).wf = true := by
  induction foot generalizing m with
  | nil => exact h
  | cons c rest ih => exact ih (Memory.wf_merge h _ _ _)

theorem Memory.wf_forgetFoot {m : Memory} (h : m.wf = true) (foot : List Host.Cell) :
    (m.forgetFoot foot).wf = true := by
  induction foot generalizing m with
  | nil => exact h
  | cons c rest ih => exact ih (Memory.wf_forget h _ _)

theorem Memory.wf_blank : Memory.blank.wf = true := by decide

/-- The reset state's memory has the canonical form. -/
theorem State.reset_mem_wf : State.reset.mem.wf = true := by decide

end Sys2Proof.Machine
end

