-- ==== Sys2Proof/Laws/Layout.lean ====
section
/-! SUPPORT. Which bits a footprint holds, in terms of rows and columns, and that W and NV never
share a byte (20_memory.md R62 to R64). -/

namespace Sys2Proof.Machine

open Sys2Proof

theorem getLsbD_colMask (k b j : Nat) :
    (colMask k b).getLsbD j = (decide (j < 8) && decide (8 * b + j < k)) := by
  unfold colMask
  split
  · rename_i h
    by_cases hj : j < 8
    · have h2 : 8 * b + j < k := by omega
      have h3 : (0xFF#8).getLsbD j = true := by
        interval_cases j <;> rfl
      simp [h3, hj, h2]
    · simp only [hj, decide_false, Bool.false_and]
      exact BitVec.getLsbD_of_ge _ _ (by omega)
  · split
    · rename_i h1 h2
      have : ¬ 8 * b + j < k := by omega
      simp [this]
    · rename_i h1 h2
      simp only [BitVec.getLsbD_ofNat, Nat.testBit_two_pow_sub_one]
      by_cases hj : j < 8
      · simp only [hj, decide_true, Bool.true_and, decide_eq_decide]; omega
      · simp [hj]

/-- The bits of a block of rows and columns. -/
theorem inFoot_blockFoot (base stride m k a j : Nat) :
    inFoot (blockFoot base stride m k) a j = true ↔
      ∃ r b, r < m ∧ a = base + stride * r + b ∧ j < 8 ∧ 8 * b + j < k := by
  rw [inFoot_iff]
  simp only [blockFoot, List.mem_flatMap, List.mem_map, List.mem_range, Prod.mk.injEq]
  constructor
  · rintro ⟨_, ⟨r, hr, b, hb, rfl, rfl⟩, hj⟩
    rw [getLsbD_colMask, Bool.and_eq_true, decide_eq_true_eq, decide_eq_true_eq] at hj
    exact ⟨r, b, hr, rfl, hj.1, hj.2⟩
  · rintro ⟨r, b, hr, rfl, hj, hk⟩
    refine ⟨colMask k b, ⟨r, hr, b, by omega, rfl, rfl⟩, ?_⟩
    simp [getLsbD_colMask, hj, hk]

theorem row_byte_unique {stride r r' b b' : Nat} (hb : b < stride) (hb' : b' < stride)
    (h : stride * r + b = stride * r' + b') : r = r' ∧ b = b' := by
  have hr : r = r' := by
    have h1 : (stride * r + b) / stride = r := by
      rw [Nat.mul_add_div (by omega), Nat.div_eq_of_lt hb, Nat.add_zero]
    have h2 : (stride * r' + b') / stride = r' := by
      rw [Nat.mul_add_div (by omega), Nat.div_eq_of_lt hb', Nat.add_zero]
    rw [← h1, ← h2, h]
  subst hr
  exact ⟨rfl, by omega⟩

/-- The bit of row r, column c lies in the block of rows [0, m), columns [0, k) exactly when
r < m and c < k. -/
theorem inFoot_blockFoot_at {base stride m k r c : Nat} (hc : c < 8 * stride)
    (hk : k ≤ 8 * stride) :
    inFoot (blockFoot base stride m k) (base + stride * r + c / 8) (c % 8) = true ↔
      r < m ∧ c < k := by
  rw [inFoot_blockFoot]
  constructor
  · rintro ⟨r', b, hr, ha, hj, hbk⟩
    obtain ⟨rfl, rfl⟩ := row_byte_unique (stride := stride) (r := r) (r' := r') (b := c / 8)
      (b' := b) (by omega) (by omega) (by omega)
    exact ⟨hr, by omega⟩
  · rintro ⟨hr, hck⟩
    exact ⟨r, c / 8, hr, rfl, by omega, by omega⟩

/-- A block lies in the bytes of its rows. -/
theorem inFoot_blockFoot_range {base stride m k a j : Nat} (hk : k ≤ 8 * stride)
    (h : inFoot (blockFoot base stride m k) a j = true) :
    base ≤ a ∧ a < base + stride * m := by
  obtain ⟨r, b, hr, rfl, hj, hb⟩ := (inFoot_blockFoot _ _ _ _ _ _).mp h
  have h1 : stride * r + stride ≤ stride * m := by
    calc stride * r + stride = stride * (r + 1) := by ring
      _ ≤ stride * m := Nat.mul_le_mul_left _ hr
  omega

theorem two_nmax_le_wStride (nmax : Nat) : 2 * nmax ≤ 8 * wStride nmax := by
  unfold wStride wprW; omega

theorem nmax_le_nvStride (nmax : Nat) : nmax ≤ 8 * nvStride nmax := by
  unfold nvStride wprN; omega

theorem wBytes_eq (nmax : Nat) : wBytes nmax = wStride nmax * nmax := by
  unfold wBytes wStride; ring

theorem nvBytes_eq (nmax : Nat) : nvBytes nmax = nvStride nmax * nmax := by
  unfold nvBytes nvStride; ring

/-- W_BYTES is at most 1,048,064 (20_memory.md R62). -/
theorem wBytes_le {nmax : Nat} (h : nmax ≤ 2047) : wBytes nmax ≤ 1048064 := by
  have h1 : wprW nmax ≤ 128 := by unfold wprW; omega
  have h2 : 4 * nmax * wprW nmax ≤ 4 * nmax * 128 := Nat.mul_le_mul_left _ h1
  unfold wBytes; omega

/-- NV_BYTES is at most 524,032 (20_memory.md R62). -/
theorem nvBytes_le {nmax : Nat} (h : nmax ≤ 2047) : nvBytes nmax ≤ 524032 := by
  have h1 : wprN nmax ≤ 64 := by unfold wprN; omega
  have h2 : 4 * nmax * wprN nmax ≤ 4 * nmax * 64 := Nat.mul_le_mul_left _ h1
  unfold nvBytes; omega

theorem wAddr_ge (nmax r c : Nat) : wBase ≤ wAddr nmax r c := by unfold wAddr; omega

theorem nvAddr_ge (nmax r c : Nat) : nvBase ≤ nvAddr nmax r c := by unfold nvAddr; omega

theorem wAddr_lt {nmax r c : Nat} (hr : r < nmax) (hc : c < 2 * nmax) :
    wAddr nmax r c < wBase + wBytes nmax := by
  have h1 := two_nmax_le_wStride nmax
  have h2 : wStride nmax * r + wStride nmax ≤ wStride nmax * nmax := by
    calc wStride nmax * r + wStride nmax = wStride nmax * (r + 1) := by ring
      _ ≤ wStride nmax * nmax := Nat.mul_le_mul_left _ hr
  rw [wBytes_eq]; unfold wAddr; omega

theorem nvAddr_lt {nmax t c : Nat} (ht : t < nmax) (hc : c < nmax) :
    nvAddr nmax t c < nvBase + nvBytes nmax := by
  have h1 := nmax_le_nvStride nmax
  have h2 : nvStride nmax * t + nvStride nmax ≤ nvStride nmax * nmax := by
    calc nvStride nmax * t + nvStride nmax = nvStride nmax * (t + 1) := by ring
      _ ≤ nvStride nmax * nmax := Nat.mul_le_mul_left _ ht
  rw [nvBytes_eq]; unfold nvAddr; omega

/-- W rows [0, m), columns [0, k), read at `W[r][c]`. -/
theorem inFoot_wFoot_wAddr {nmax m k r c : Nat} (hc : c < 2 * nmax) (hk : k ≤ 2 * nmax) :
    inFoot (wFoot nmax m k) (wAddr nmax r c) (c % 8) = true ↔ r < m ∧ c < k := by
  have h := two_nmax_le_wStride nmax
  exact inFoot_blockFoot_at (by omega) (by omega)

/-- No bit of NV lies in a block of W. -/
theorem inFoot_wFoot_nv {nmax m k a j : Nat} (hn : nmax ≤ 2047) (hm : m ≤ nmax)
    (hk : k ≤ 2 * nmax) (ha : nvBase ≤ a) : inFoot (wFoot nmax m k) a j = false := by
  rw [Bool.eq_false_iff]
  intro h
  have h0 := two_nmax_le_wStride nmax
  have h1 := inFoot_blockFoot_range (by omega) h
  have h2 : wStride nmax * m ≤ wBytes nmax := by
    rw [wBytes_eq]; exact Nat.mul_le_mul_left _ hm
  have h3 := wBytes_le hn
  unfold nvBase at ha
  unfold wBase at h1
  omega

/-- All of NV, read at `NV[t][c]`. -/
theorem inFoot_nvFoot_nvAddr {nmax t c : Nat} (hc : c < nmax) :
    inFoot (nvFoot nmax) (nvAddr nmax t c) (c % 8) = true ↔ t < nmax := by
  have h := nmax_le_nvStride nmax
  have h2 := inFoot_blockFoot_at (base := nvBase) (m := nmax) (k := nmax) (r := t)
    (show c < 8 * nvStride nmax by omega) h
  exact h2.trans (by simp [hc])

/-- No bit below the NV window lies in NV. -/
theorem inFoot_nvFoot_below {nmax a j : Nat} (ha : a < nvBase) :
    inFoot (nvFoot nmax) a j = false := by
  rw [Bool.eq_false_iff]
  intro h
  have h1 := inFoot_blockFoot_range (nmax_le_nvStride nmax) h
  omega

theorem wAddr_lt_nvBase {nmax r c : Nat} (hn : nmax ≤ 2047) (hr : r < nmax)
    (hc : c < 2 * nmax) : wAddr nmax r c < nvBase := by
  have h1 := wAddr_lt hr hc
  have h2 := wBytes_le hn
  unfold wBase at h1
  unfold nvBase
  omega

/-- The 32-bit word at row r, word q of W: its storage bits are the columns 32q .. 32q+31 below
2*NMAX (20_memory.md R63, R72). -/
theorem inFoot_wWordFoot {nmax a b j : Nat} :
    inFoot (wWordFoot nmax a) b j = true ↔
      ∃ l, l < 4 ∧ b = a + l ∧ j < 8 ∧ 8 * ((a - wBase) % wStride nmax + l) + j < 2 * nmax := by
  rw [inFoot_iff]
  simp only [wWordFoot, List.mem_map, List.mem_range, Prod.mk.injEq]
  constructor
  · rintro ⟨_, ⟨l, hl, rfl, rfl⟩, hj⟩
    rw [getLsbD_colMask, Bool.and_eq_true, decide_eq_true_eq, decide_eq_true_eq] at hj
    exact ⟨l, hl, rfl, hj.1, hj.2⟩
  · rintro ⟨l, hl, rfl, hj, hk⟩
    exact ⟨_, ⟨l, hl, rfl, rfl⟩, by simp [getLsbD_colMask, hj, hk]⟩

theorem inFoot_nvWordFoot {nmax a b j : Nat} :
    inFoot (nvWordFoot nmax a) b j = true ↔
      ∃ l, l < 4 ∧ b = a + l ∧ j < 8 ∧ 8 * ((a - nvBase) % nvStride nmax + l) + j < nmax := by
  rw [inFoot_iff]
  simp only [nvWordFoot, List.mem_map, List.mem_range, Prod.mk.injEq]
  constructor
  · rintro ⟨_, ⟨l, hl, rfl, rfl⟩, hj⟩
    rw [getLsbD_colMask, Bool.and_eq_true, decide_eq_true_eq, decide_eq_true_eq] at hj
    exact ⟨l, hl, rfl, hj.1, hj.2⟩
  · rintro ⟨l, hl, rfl, hj, hk⟩
    exact ⟨_, ⟨l, hl, rfl, rfl⟩, by simp [getLsbD_colMask, hj, hk]⟩

end Sys2Proof.Machine
end

