-- ==== Sys2Proof/Laws/Matrix.lean ====
section
/-! SUPPORT. Reading a matrix out of W and storing one: the bit at row r, column c is
`W[r][c]` each time. Packing a row from a rule for its bits. -/

namespace Sys2Proof.Machine

open Sys2Proof

theorem testBit_bytesNat (m : Memory) (a n c : Nat) :
    (bytesNat m a n).testBit c = (decide (c < 8 * n) && (m.value (a + c / 8)).getLsbD (c % 8)) := by
  induction n generalizing a c with
  | zero => simp [bytesNat]
  | succ n ih =>
    have hlt : (m.value a).toNat < 2 ^ 8 := (m.value a).isLt
    have hform : bytesNat m a (n + 1) = 2 ^ 8 * bytesNat m (a + 1) n + (m.value a).toNat := by
      simp only [bytesNat]; omega
    rw [hform, Nat.testBit_two_pow_mul_add _ hlt]
    split
    · rename_i h
      have h1 : c / 8 = 0 := by omega
      have h2 : c % 8 = c := by omega
      have h3 : c < 8 * (n + 1) := by omega
      simp [h1, h2, h3, BitVec.getLsbD]
    · rename_i h
      rw [ih]
      have h1 : a + 1 + (c - 8) / 8 = a + c / 8 := by omega
      have h2 : (c - 8) % 8 = c % 8 := by omega
      rw [h1, h2]
      congr 1
      simp only [decide_eq_decide]; omega

/-- Column c of a loaded row. -/
theorem getLsbD_loadRow (m : Memory) (a k c : Nat) :
    (loadRow m a k).getLsbD c = (decide (c < k) && (m.value (a + c / 8)).getLsbD (c % 8)) := by
  unfold loadRow
  rw [BitVec.getLsbD_ofNat, testBit_bytesNat]
  by_cases hc : c < k
  · have : c < 8 * ((k + 7) / 8) := by omega
    simp [hc, this]
  · simp [hc]

/-- The matrix read from W holds `W[r][c]` at row r, column c. -/
theorem at_loadW (s : State) {rows k r c : Nat} (hr : r < rows) (hc : c < k) {b : Bool}
    (h : s.w r c = some b) : (s.loadW rows k).at r c = b := by
  unfold State.w Memory.bit at h
  split at h
  · unfold State.loadW BitMatrix.at
    rw [List.getD_eq_getElem _ _ (by simpa using hr)]
    simp only [List.getElem_map, List.getElem_range, getLsbD_loadRow, hc, decide_true,
      Bool.true_and]
    simpa [wAddr] using h
  · exact absurd h (by simp)

theorem length_loadW (s : State) (rows k : Nat) : (s.loadW rows k).length = rows := by
  simp [State.loadW]

/-- Column 8b + j of a row, from its byte b. -/
theorem getLsbD_rowByte {k : Nat} (row : BitVec k) (b j : Nat) (hj : j < 8) :
    (rowByte row b).getLsbD j = row.getLsbD (8 * b + j) := by
  simp [rowByte, hj]

/-- The byte a stored matrix puts at the place of row r, column c holds the bit (r, c). -/
theorem getLsbD_matrixByte {k : Nat} (A : BitMatrix k) {base stride r c : Nat}
    (hc : c < 8 * stride) :
    (matrixByte A base stride (base + stride * r + c / 8)).getLsbD (c % 8) = A.at r c := by
  have hs : c / 8 < stride := by omega
  have h0 : base + stride * r + c / 8 - base = stride * r + c / 8 := by omega
  have h1 : (stride * r + c / 8) / stride = r := by
    rw [Nat.mul_add_div (by omega), Nat.div_eq_of_lt hs, Nat.add_zero]
  have h2 : (stride * r + c / 8) % stride = c / 8 := by
    rw [Nat.mul_add_mod, Nat.mod_eq_of_lt hs]
  unfold matrixByte BitMatrix.at
  rw [h0, h1, h2, getLsbD_rowByte _ _ _ (by omega)]
  congr 1
  omega

/-- `W[r][c]` after a matrix is stored: everything the operation does to W. -/
theorem w_storeW {k : Nat} (s : State) (A : BitMatrix k) (m d : Nat) {r c : Nat}
    (hk : k ≤ 2 * s.nmax) (hc : c < 2 * s.nmax) :
    (s.storeW m A d).w r c = if r < m ∧ c < k then some (A.at r c) else s.w r c := by
  have hs := two_nmax_le_wStride s.nmax
  have hin := inFoot_wFoot_wAddr (m := m) (r := r) hc hk
  show (s.mem.writeFoot _ _).bit (wAddr s.nmax r c) (c % 8) = _
  rw [Memory.bit_writeFoot]
  by_cases h : r < m ∧ c < k
  · rw [if_pos (hin.mpr h), if_pos h]
    exact congrArg some (getLsbD_matrixByte A (by omega))
  · rw [if_neg (fun hf => h (hin.mp hf)), if_neg h]; rfl

/-- NV after a matrix is stored in W: unchanged. -/
theorem bit_storeW_nv {k : Nat} (s : State) (A : BitMatrix k) (m d : Nat) {a j : Nat}
    (hn : s.nmax ≤ 2047) (hm : m ≤ s.nmax) (hk : k ≤ 2 * s.nmax) (ha : nvBase ≤ a) :
    (s.storeW m A d).mem.bit a j = s.mem.bit a j := by
  show (s.mem.writeFoot _ _).bit a j = _
  rw [Memory.bit_writeFoot, inFoot_wFoot_nv hn hm hk ha]
  simp

/-- `NV[t][c]` after the null vectors are stored: everything the operation does to NV. -/
theorem nv_storeNv {k : Nat} (s : State) (A : BitMatrix k) {t c : Nat} (ht : t < s.nmax)
    (hc : c < s.nmax) : (s.storeNv A).nv t c = some (A.at t c) := by
  have hs := nmax_le_nvStride s.nmax
  have hin := (inFoot_nvFoot_nvAddr (t := t) hc).mpr ht
  show (s.mem.writeFoot _ _).bit (nvAddr s.nmax t c) (c % 8) = _
  rw [Memory.bit_writeFoot, if_pos hin]
  exact congrArg some (getLsbD_matrixByte A (by omega))

/-- W after the null vectors are stored: unchanged. -/
theorem bit_storeNv_below {k : Nat} (s : State) (A : BitMatrix k) {a j : Nat} (ha : a < nvBase) :
    (s.storeNv A).mem.bit a j = s.mem.bit a j := by
  show (s.mem.writeFoot _ _).bit a j = _
  rw [Memory.bit_writeFoot, inFoot_nvFoot_below ha]
  simp

theorem testBit_packFrom (f : Nat → Bool) (i n j : Nat) :
    (packFrom f i n).testBit j = (decide (j < n) && f (i + j)) := by
  induction n generalizing i j with
  | zero => simp [packFrom]
  | succ n ih =>
    have hform : packFrom f i (n + 1) =
        2 ^ 1 * packFrom f (i + 1) n + (if f i then 1 else 0) := by
      simp only [packFrom]; omega
    have hlt : (if f i then 1 else 0) < 2 ^ 1 := by split <;> simp
    rw [hform, Nat.testBit_two_pow_mul_add _ hlt]
    split
    · rename_i h
      have h0 : j = 0 := by omega
      subst h0
      cases f i <;> simp
    · rename_i h
      rw [ih]
      have h1 : i + 1 + (j - 1) = i + j := by omega
      rw [h1]
      congr 1
      simp only [decide_eq_decide]; omega

/-- Bit c of a packed row. -/
theorem getLsbD_packRow (k : Nat) (f : Nat → Bool) (c : Nat) :
    (packRow k f).getLsbD c = (decide (c < k) && f c) := by
  unfold packRow
  rw [BitVec.getLsbD_ofNat, testBit_packFrom]
  simp

/-- The rows of NV (42_inversion.md R186). -/
theorem at_nullRows {k : Nat} (nmax : Nat) (M : BitMatrix k) (n d : Nat) {t c : Nat}
    (ht : t < nmax) (hc : c < nmax) :
    (nullRows nmax M n d).at t c = (decide (t < d) && nullVectorBit M n d t c) := by
  unfold nullRows BitMatrix.at
  rw [List.getD_eq_getElem _ _ (by simpa using ht)]
  simp only [List.getElem_map, List.getElem_range, nullRow]
  by_cases h : t < d
  · rw [if_pos h, getLsbD_packRow]
    simp [h, hc]
  · simp [h]

/-- The augmented matrix (42_inversion.md R183). -/
theorem at_augment {n : Nat} (A : BitMatrix n) (hlen : A.length = n) {r c : Nat} (hr : r < n) :
    (augment A).at r c =
      if c < n then A.at r c else decide (c = n + r) := by
  unfold augment BitMatrix.at
  rw [List.getD_eq_getElem _ _ (by simpa [hlen] using hr),
    List.getD_eq_getElem _ _ (by simpa [hlen] using hr)]
  simp only [List.getElem_mapIdx, BitVec.getLsbD_or, BitVec.getLsbD_setWidth,
    BitVec.getLsbD_twoPow]
  by_cases hc : c < n
  · have h1 : c < 2 * n := by omega
    have h2 : n + r ≠ c := by omega
    simp [hc, h1, h2]
  · have h3 : (A[r]'(by omega)).getLsbD c = false := BitVec.getLsbD_of_ge _ _ (by omega)
    simp only [h3, hc, if_false]
    by_cases h4 : c = n + r
    · subst h4; simp; omega
    · have h5 : ¬ n + r = c := fun h => h4 h.symm
      simp [h4, h5]

theorem length_augment {n : Nat} (A : BitMatrix n) : (augment A).length = A.length := by
  simp [augment]

end Sys2Proof.Machine
end

