-- ==== Sys2Proof/Laws/Elimination.lean ====
section
/-! SUPPORT. The packed elimination computes, bit by bit, the loop of 41_elimination.md R152. -/

namespace Sys2Proof.Machine

open Sys2Proof

variable {k : Nat}

theorem BitMatrix.at_of_length_le (A : BitMatrix k) {r : Nat} (h : A.length ≤ r) (c : Nat) :
    A.at r c = false := by
  unfold BitMatrix.at
  rw [List.getD_eq_default _ _ h]; simp

theorem length_moveRows (A : BitMatrix k) (i p : Nat) : (moveRows A i p).length = A.length := by
  simp [moveRows]

theorem length_clearColumn (A : BitMatrix k) (i : Nat) (P : BitVec k) :
    (clearColumn A i P).length = A.length := by simp [clearColumn]

theorem length_columnStep (A : BitMatrix k) (i p : Nat) :
    (columnStep A i p).length = A.length := by
  simp [columnStep, length_clearColumn, length_moveRows]

/-- Steps 3 and 4 by bits (41_elimination.md R156). -/
theorem at_moveRows (A : BitMatrix k) {i p : Nat} (hi : i < A.length) (hp : p < A.length) :
    (moveRows A i p).at = exchanged A.at i p := by
  funext j c
  unfold moveRows normalized exchanged BitMatrix.at
  simp only [List.getD_eq_getElem?_getD, List.getElem?_set]
  by_cases hji : j = i
  · subst hji; simp [hi]
  · by_cases hjp : j = p
    · subst hjp
      simp [hji, Ne.symm hji, hp]
    · simp [hji, hjp, Ne.symm hji, Ne.symm hjp]

/-- Step 5 by bits (41_elimination.md R157). -/
theorem at_clearColumn (A : BitMatrix k) {i : Nat} (hi : i < A.length) :
    (clearColumn A i (A.getD i 0#k)).at = columnCleared A.at i := by
  funext j c
  unfold columnCleared
  by_cases hj : j < A.length
  · unfold clearColumn BitMatrix.at
    rw [List.getD_eq_getElem _ _ (by simpa using hj), List.getD_eq_getElem _ _ hj]
    simp only [List.getElem_mapIdx]
    split
    · rfl
    · split
      · rename_i hf; simp [hf]
      · rename_i hf; simp [hf]
  · have h1 : A.length ≤ j := by omega
    have h2 : j ≠ i := by omega
    rw [BitMatrix.at_of_length_le _ (by rw [length_clearColumn]; exact h1)]
    simp [h2, BitMatrix.at_of_length_le A h1]

theorem getD_moveRows_self (A : BitMatrix k) {i p : Nat} (hi : i < A.length) :
    (moveRows A i p).getD i 0#k = normalized A p := by
  unfold moveRows
  simp [List.getD_eq_getElem?_getD, hi]

/-- One column step by bits. -/
theorem at_columnStep (A : BitMatrix k) {i p : Nat} (hi : i < A.length) (hp : p < A.length) :
    (columnStep A i p).at = columnCleared (exchanged A.at i p) i := by
  unfold columnStep
  rw [← getD_moveRows_self A hi,
    at_clearColumn _ (by rw [length_moveRows]; exact hi), at_moveRows A hi hp]

/-- The search finds the least row with a 1, or answers i when every row it looks at holds 0. -/
theorem pivotSearch_cases (A : BitMatrix k) (i fuel r : Nat) :
    (∃ p, r ≤ p ∧ p < r + fuel ∧ A.at p i = true ∧ (∀ x, r ≤ x → x < p → A.at x i = false)
        ∧ pivotSearch A i fuel r = p)
      ∨ ((∀ x, r ≤ x → x < r + fuel → A.at x i = false) ∧ pivotSearch A i fuel r = i) := by
  induction fuel generalizing r with
  | zero => exact .inr ⟨fun x h1 h2 => by omega, rfl⟩
  | succ fuel ih =>
    simp only [pivotSearch]
    split
    · rename_i h
      exact .inl ⟨r, le_rfl, by omega, h, fun x h1 h2 => by omega, rfl⟩
    · rename_i h
      simp only [Bool.not_eq_true] at h
      rcases ih (r + 1) with ⟨p, h1, h2, h3, h4, h5⟩ | ⟨h1, h2⟩
      · refine .inl ⟨p, by omega, by omega, h3, fun x hx1 hx2 => ?_, h5⟩
        rcases Nat.eq_or_lt_of_le hx1 with rfl | hx
        · exact h
        · exact h4 x hx hx2
      · refine .inr ⟨fun x hx1 hx2 => ?_, h2⟩
        rcases Nat.eq_or_lt_of_le hx1 with rfl | hx
        · exact h
        · exact h1 x hx (by omega)

/-- The pivot row: the pivot of R154 where column i has a 1 in rows [i, m), and row i, holding 0,
where it has none. -/
theorem pivotRow_cases (A : BitMatrix k) {m i : Nat} (hi : i < m) :
    (A.at (pivotRow A m i) i = true ∧ IsPivot A.at m i (pivotRow A m i))
      ∨ (A.at (pivotRow A m i) i = false ∧ ∀ r, i ≤ r → r < m → A.at r i = false) := by
  unfold pivotRow
  rcases pivotSearch_cases A i (m - i) i with ⟨p, h1, h2, h3, h4, h5⟩ | ⟨h1, h2⟩
  · rw [h5]; exact .inl ⟨h3, h1, by omega, h3, h4⟩
  · rw [h2]
    exact .inr ⟨h1 i le_rfl (by omega), fun r hr1 hr2 => h1 r hr1 (by omega)⟩

/-- The packed loop runs the loop of R152. -/
theorem eliminateFrom_run (m fuel i : Nat) (A : BitMatrix k) (hlen : A.length = m)
    (hfuel : i + fuel = m) :
    EliminationRun m i A.at (eliminateFrom m fuel i A).1.at (eliminateFrom m fuel i A).2
      ∧ (eliminateFrom m fuel i A).1.length = m := by
  induction fuel generalizing i A with
  | zero =>
    obtain rfl : i = m := by omega
    exact ⟨.finished _, hlen⟩
  | succ fuel ih =>
    have hi : i < m := by omega
    simp only [eliminateFrom]
    rcases pivotRow_cases A hi with ⟨h1, h2⟩ | ⟨h1, h2⟩
    · rw [if_pos h1]
      have hp : pivotRow A m i < A.length := by rw [hlen]; exact h2.2.1
      have hstep := at_columnStep A (by rw [hlen]; exact hi) hp
      have hrec := ih (i + 1) (columnStep A i (pivotRow A m i))
        (by rw [length_columnStep]; exact hlen) (by omega)
      rw [hstep] at hrec
      exact ⟨.column i _ _ _ _ hi h2 hrec.1, hrec.2⟩
    · rw [if_neg (by simp [h1])]
      exact ⟨.stopped i _ hi h2, hlen⟩

/-- The packed elimination runs R152 on the bits of its operand. -/
theorem eliminate_run (m : Nat) (A : BitMatrix k) (hlen : A.length = m) :
    EliminationRun m 0 A.at (eliminate m A).1.at (eliminate m A).2 :=
  (eliminateFrom_run m m 0 A hlen (by omega)).1

/-- `0 <= nulldim <= m` (41_elimination.md R153). -/
theorem EliminationRun.le {m i d : Nat} {A B : Bits} (h : EliminationRun m i A B d) : d ≤ m := by
  induction h <;> omega

/-- The loop has one result. -/
theorem EliminationRun.unique {m i d d' : Nat} {A B B' : Bits} (h : EliminationRun m i A B d)
    (h' : EliminationRun m i A B' d') : B = B' ∧ d = d' := by
  induction h generalizing B' d' with
  | finished A =>
    cases h' with
    | finished => exact ⟨rfl, rfl⟩
    | stopped _ _ hi => omega
    | column _ _ _ _ _ hi => omega
  | stopped i A hi hz =>
    cases h' with
    | finished => omega
    | stopped => exact ⟨rfl, rfl⟩
    | column _ p _ _ _ _ hp => exact absurd hp.2.2.1 (by rw [hz p hp.1 hp.2.1]; decide)
  | column i p d A B hi hp _ ih =>
    cases h' with
    | finished => omega
    | stopped _ _ _ hz => exact absurd hp.2.2.1 (by rw [hz p hp.1 hp.2.1]; decide)
    | column _ q _ _ _ _ hq hr =>
      obtain rfl : p = q := by
        rcases Nat.lt_trichotomy p q with hlt | heq | hlt
        · exact absurd hp.2.2.1 (by rw [hq.2.2.2 p hp.1 hlt]; decide)
        · exact heq
        · exact absurd hq.2.2.1 (by rw [hp.2.2.2 q hq.1 hlt]; decide)
      exact ih hr

/-! ### Operands in W -/

/-- A footprint of W is written exactly when its bits are. -/
theorem footWritten_wFoot {s : State} {m k : Nat} (hk : k ≤ 2 * s.nmax) :
    s.mem.footWritten (wFoot s.nmax m k) = true ↔ s.wWritten m k := by
  rw [Memory.footWritten_iff]
  constructor
  · intro h r hr c hc
    exact h _ _ ((inFoot_wFoot_wAddr (by omega) hk).mpr ⟨hr, hc⟩)
  · intro h a j hin
    obtain ⟨r, b, hr, rfl, hj, hb⟩ := (inFoot_blockFoot _ _ _ _ _ _).mp hin
    have hw := h r hr (8 * b + j) hb
    have h1 : (8 * b + j) / 8 = b := by omega
    have h2 : (8 * b + j) % 8 = j := by omega
    unfold State.w wAddr at hw
    rwa [h1, h2] at hw

/-- A written operand, loaded, has the bits that W holds. -/
theorem at_loadW_eq_wBlock {s : State} {m k : Nat} (h : s.wWritten m k) :
    (s.loadW m k).at = s.wBlock m k := by
  funext r c
  unfold State.wBlock
  by_cases hr : r < m
  · by_cases hc : c < k
    · obtain ⟨b, hb⟩ := Option.isSome_iff_exists.mp (h r hr c hc)
      rw [at_loadW s hr hc hb, hb]
      simp [hr, hc]
    · have hz : (s.loadW m k).at r c = false := BitVec.getLsbD_of_ge _ _ (by omega)
      simp [hz, hc]
  · rw [BitMatrix.at_of_length_le _ (by rw [length_loadW]; omega)]
    simp [hr]

/-- The augmented matrix of a written operand (42_inversion.md R183). -/
theorem at_augment_loadW {s : State} {n : Nat} (h : s.wWritten n n) :
    (augment (s.loadW n n)).at = augmentedBits n (s.wBlock n n) := by
  funext r c
  unfold augmentedBits
  by_cases hr : r < n
  · rw [at_augment _ (length_loadW s n n) hr, at_loadW_eq_wBlock h]
    simp [hr]
  · rw [BitMatrix.at_of_length_le _ (by rw [length_augment, length_loadW]; omega)]
    simp [hr]

end Sys2Proof.Machine
end

