-- ==== Sys2Proof/Laws/PerInstr.lean ====
section
/-! SUPPORT. A fact about every command as syntax: the word of a command carries its opcode in
bits [31:24] (30_encoding.md R91, R96). -/

namespace Sys2Proof.Laws

open Sys2Proof

/-- Bit j of a placed field. -/
theorem getLsbD_placed {w : Nat} (v : BitVec w) (lo j : Nat) :
    (placed v lo).getLsbD j = (decide (j < 32) && decide (lo ≤ j) && v.getLsbD (j - lo)) := by
  unfold placed
  by_cases h1 : j < 32 <;> by_cases h2 : lo ≤ j
  · have h3 : ¬ j < lo := by omega
    simp [h1, h2, h3]
  · have h3 : j < lo := by omega
    simp [h1, h2, h3]
  · simp [h1]
  · simp [h1]

theorem fieldOpc_encodeMatrix (opc : BitVec 8) (rows cols : Nat) :
    fieldOpc (encodeMatrix opc rows cols) = opc := by
  unfold fieldOpc encodeMatrix
  apply BitVec.eq_of_getLsbD_eq
  intro j hj
  rw [BitVec.getLsbD_extractLsb', BitVec.getLsbD_or, BitVec.getLsbD_or]
  simp only [getLsbD_placed]
  rw [BitVec.getLsbD_of_ge (BitVec.ofNat 12 cols) (24 + j - 12) (by omega),
    BitVec.getLsbD_of_ge (BitVec.ofNat 12 rows) (24 + j - 0) (by omega)]
  simp [hj]; omega

theorem fieldOpc_encodeScalar (opc : BitVec 8) (ia ib : Int) :
    fieldOpc (encodeScalar opc ia ib) = opc := by
  unfold fieldOpc encodeScalar
  apply BitVec.eq_of_getLsbD_eq
  intro j hj
  rw [BitVec.getLsbD_extractLsb', BitVec.getLsbD_or, BitVec.getLsbD_or]
  simp only [getLsbD_placed]
  rw [BitVec.getLsbD_of_ge (BitVec.ofInt 8 ia) (24 + j - 8) (by omega),
    BitVec.getLsbD_of_ge (BitVec.ofInt 8 ib) (24 + j - 0) (by omega)]
  simp [hj]; omega

/-- The word of a command carries its opcode. -/
def OpcodeKept.Statement (i : Instr) : Prop := fieldOpc (encode i) = opcodeOf i

theorem OpcodeKept.elim (rows cols : Nat) : OpcodeKept.Statement (.elim rows cols) :=
  fieldOpc_encodeMatrix _ _ _
theorem OpcodeKept.inv (rows cols : Nat) : OpcodeKept.Statement (.inv rows cols) :=
  fieldOpc_encodeMatrix _ _ _
theorem OpcodeKept.gadd (ia ib : Int) : OpcodeKept.Statement (.gadd ia ib) :=
  fieldOpc_encodeScalar _ _ _
theorem OpcodeKept.gsub (ia ib : Int) : OpcodeKept.Statement (.gsub ia ib) :=
  fieldOpc_encodeScalar _ _ _
theorem OpcodeKept.gmul (ia ib : Int) : OpcodeKept.Statement (.gmul ia ib) :=
  fieldOpc_encodeScalar _ _ _
theorem OpcodeKept.gdiv (ia ib : Int) : OpcodeKept.Statement (.gdiv ia ib) :=
  fieldOpc_encodeScalar _ _ _
theorem OpcodeKept.gceq (ia ib : Int) : OpcodeKept.Statement (.gceq ia ib) :=
  fieldOpc_encodeScalar _ _ _
theorem OpcodeKept.gclt (ia ib : Int) : OpcodeKept.Statement (.gclt ia ib) :=
  fieldOpc_encodeScalar _ _ _
theorem OpcodeKept.gcle (ia ib : Int) : OpcodeKept.Statement (.gcle ia ib) :=
  fieldOpc_encodeScalar _ _ _

end Sys2Proof.Laws
end

