-- ==== Sys2Proof/Laws/Window.lean ====
section
/-! SUPPORT. Regions of the aperture, the bits of a window word, and everything an idle window
read can return, bit by bit. -/

namespace Sys2Proof.Machine

open Sys2Proof

/-! ### Regions (20_memory.md R62) -/

theorem regionOf_eq_wWindow {nmax a : Nat} :
    regionOf nmax a = .wWindow ↔ wBase ≤ a ∧ a < wBase + wBytes nmax := by
  unfold regionOf
  split
  · rename_i h; unfold wBase; constructor
    · intro h'; cases h'
    · intro h'; omega
  split
  · rename_i h; exact ⟨fun _ => h, fun _ => rfl⟩
  · rename_i h
    split
    · exact ⟨fun h' => (by cases h'), fun h' => absurd h' h⟩
    · exact ⟨fun h' => (by cases h'), fun h' => absurd h' h⟩

theorem regionOf_eq_nvWindow {nmax a : Nat} (hn : nmax ≤ 2047) :
    regionOf nmax a = .nvWindow ↔ nvBase ≤ a ∧ a < nvBase + nvBytes nmax := by
  have hw := wBytes_le hn
  unfold regionOf
  split
  · rename_i h; unfold nvBase; constructor
    · intro h'; cases h'
    · intro h'; omega
  split
  · rename_i h; unfold wBase at h; unfold nvBase; constructor
    · intro h'; cases h'
    · intro h'; omega
  · split
    · rename_i h; exact ⟨fun _ => h, fun _ => rfl⟩
    · rename_i h; exact ⟨fun h' => (by cases h'), fun h' => absurd h' h⟩

/-! ### Words -/

/-- Bit j of a word of bytes is bit j mod 8 of its byte j div 8 (20_memory.md R65). -/
theorem getLsbD_wordOfBytes (f : Nat → Byte) (a : Nat) {j : Nat} (hj : j < 32) :
    (wordOfBytes f a).getLsbD j = (f (a + j / 8)).getLsbD (j % 8) := by
  unfold wordOfBytes placed
  interval_cases j <;> simp

/-- Bit j of the byte that a word puts at the offset l bytes above its own. -/
theorem getLsbD_laneOf (v : Word) (a l : Nat) {j : Nat} (hj : j < 8) :
    (laneOf v a (a + l)).getLsbD j = v.getLsbD (8 * l + j) := by
  unfold laneOf
  rw [Nat.add_sub_cancel_left]
  simp [hj]

theorem footMask_lanes (g : Nat → Byte) (a : Nat) {l : Nat} (hl : l < 4) :
    footMask ((List.range 4).map fun l => (a + l, g l)) (a + l) = g l := by
  unfold footMask
  obtain rfl | rfl | rfl | rfl : l = 0 ∨ l = 1 ∨ l = 2 ∨ l = 3 := by omega
  all_goals simp [List.range_succ, cellGet]

theorem footMask_wWordFoot (nmax a : Nat) {l : Nat} (hl : l < 4) :
    footMask (wWordFoot nmax a) (a + l)
      = colMask (2 * nmax) ((a - wBase) % wStride nmax + l) :=
  footMask_lanes (fun l => colMask (2 * nmax) ((a - wBase) % wStride nmax + l)) a hl

theorem footMask_nvWordFoot (nmax a : Nat) {l : Nat} (hl : l < 4) :
    footMask (nvWordFoot nmax a) (a + l) = colMask nmax ((a - nvBase) % nvStride nmax + l) :=
  footMask_lanes (fun l => colMask nmax ((a - nvBase) % nvStride nmax + l)) a hl

/-- The bytes of a row that the word with index w of row r starts at (20_memory.md R63, R64). -/
theorem wordOffset_mod {wpr r w : Nat} (hw : w < wpr) (base : Nat) :
    (base + 4 * (r * wpr + w) - base) % (4 * wpr) = 4 * w := by
  rw [Nat.add_sub_cancel_left, Nat.mul_mod_mul_left, Nat.mul_comm r wpr, Nat.mul_add_mod,
    Nat.mod_eq_of_lt hw]

/-- Everything an idle window read can return (20_memory.md R70): for a word whose storage bits
are the columns 32w + j below `cols` and stand at their bits j, the written bits as stored and 0
in the padding, and a drawn value, if one is drawn, only in unwritten bits. -/
theorem windowRead_bits {s : State} {foot : List Host.Cell} {a cols w : Nat}
    {column : Nat → Option Bool}
    (hmask : ∀ l, l < 4 → footMask foot (a + l) = colMask cols (4 * w + l))
    (hbit : ∀ j, j < 32 → s.mem.bit (a + j / 8) (j % 8) = column (32 * w + j)) :
    ∃ x : Word, (s.windowRead foot a = s.reply (.read .okay x)
        ∨ s.windowRead foot a = { s.reply (.read .okay x) with draws := s.draws + 1 })
      ∧ ∀ j, j < 32 → (cols ≤ 32 * w + j → x.getLsbD j = false)
        ∧ ∀ b, 32 * w + j < cols → column (32 * w + j) = some b → x.getLsbD j = b := by
  have hm : ∀ j, j < 32 →
      (footMask foot (a + j / 8)).getLsbD (j % 8) = decide (32 * w + j < cols) := by
    intro j hj
    have h8 : j % 8 < 8 := by omega
    rw [hmask _ (by omega), getLsbD_colMask]
    simp only [h8, decide_true, Bool.true_and, decide_eq_decide]
    omega
  unfold State.windowRead
  split
  · refine ⟨_, .inl rfl, fun j hj => ⟨fun hc => ?_, fun b hc hb => ?_⟩⟩
    · have : ¬ 32 * w + j < cols := by omega
      simp [getLsbD_wordOfBytes _ _ hj, hm j hj, this]
    · rw [← hbit j hj] at hb
      unfold Memory.bit at hb
      split at hb
      · simpa [getLsbD_wordOfBytes _ _ hj, hm j hj, hc] using hb
      · cases hb
  · refine ⟨_, .inr rfl, fun j hj => ⟨fun hc => ?_, fun b hc hb => ?_⟩⟩
    · have : ¬ 32 * w + j < cols := by omega
      simp [getLsbD_wordOfBytes _ _ hj, hm j hj, this]
    · rw [← hbit j hj] at hb
      unfold Memory.bit at hb
      split at hb
      · rename_i hk
        have h8 : j % 8 < 8 := by omega
        simpa only [BitVec.getLsbD_or, BitVec.getLsbD_and, BitVec.getLsbD_not,
          getLsbD_wordOfBytes _ _ hj, hm j hj, hc, hk, hj, h8, decide_true, Bool.and_true,
          Bool.not_true, Bool.and_false, Bool.not_false, Bool.or_false, Option.some.injEq]
          using hb
      · cases hb

end Sys2Proof.Machine
end

