-- ==== Sys2Proof/Laws/Storage.lean ====
section
/-! SUPPORT. Written marks stay on the RAM's storage bits: every footprint that a command or a
write uses lies in them. -/

namespace Sys2Proof.Machine

open Sys2Proof

theorem mem_of_cellGet {cells : List Host.Cell} {a : Nat} {v : Byte}
    (h : cellGet cells a = some v) : (a, v) ∈ cells := by
  induction cells with
  | nil => cases h
  | cons c rest ih =>
    unfold cellGet at h
    split at h
    · rename_i hc; cases h; subst hc; exact List.mem_cons_self
    · exact List.mem_cons_of_mem _ (ih h)

theorem Memory.isSome_bit (m : Memory) (a j : Nat) :
    (m.bit a j).isSome = (m.mark a).getLsbD j := by
  unfold Memory.bit
  split
  · rename_i h; simp [h]
  · rename_i h; simpa using h

/-- Of a memory in canonical form: every written bit is a storage bit. -/
theorem Memory.inStorage_iff {nmax : Nat} {m : Memory} (h : m.wf = true) :
    m.inStorage nmax = true ↔
      ∀ a j, (m.bit a j).isSome = true → (storageMask nmax a).getLsbD j = true := by
  have hrise := ((Memory.wf_iff m).mp h).2.1
  simp only [Memory.inStorage, List.all_eq_true, beq_iff_eq, Memory.isSome_bit]
  constructor
  · intro hall a j hb
    unfold Memory.mark at hb
    cases hg : cellGet m.marks a with
    | none => rw [hg] at hb; simp [Memory.unlisted] at hb
    | some v =>
      rw [hg, Option.getD_some] at hb
      have hz := congrArg (fun x => x.getLsbD j) (hall _ (mem_of_cellGet hg))
      have hj : j < 8 := BitVec.lt_of_getLsbD hb
      simpa [hb, hj] using hz
  · intro hall c hc
    have hm : m.mark c.1 = c.2 := by unfold Memory.mark; rw [cellGet_of_mem hrise hc]; rfl
    apply BitVec.eq_of_getLsbD_eq
    intro j hj
    have hb := hall c.1 j
    rw [hm] at hb
    simpa [hj] using hb

theorem Memory.inStorage_writeFoot {nmax : Nat} {m : Memory} {foot : List Host.Cell}
    {f : Nat → Byte} (hw : m.wf = true) (hs : m.inStorage nmax = true)
    (hf : ∀ a j, inFoot foot a j = true → (storageMask nmax a).getLsbD j = true) :
    (m.writeFoot foot f).inStorage nmax = true := by
  rw [Memory.inStorage_iff (Memory.wf_writeFoot hw _ _)]
  intro a j hb
  rw [Memory.bit_writeFoot] at hb
  split at hb
  · exact hf a j ‹_›
  · exact (Memory.inStorage_iff hw).mp hs a j hb

theorem Memory.inStorage_forgetFoot {nmax : Nat} {m : Memory} (foot : List Host.Cell)
    (hw : m.wf = true) (hs : m.inStorage nmax = true) :
    (m.forgetFoot foot).inStorage nmax = true := by
  rw [Memory.inStorage_iff (Memory.wf_forgetFoot hw _)]
  intro a j hb
  rw [Memory.bit_forgetFoot] at hb
  split at hb
  · cases hb
  · exact (Memory.inStorage_iff hw).mp hs a j hb

theorem rowByte_in_window {stride r b m : Nat} (hb : b < stride) (hr : r < m) :
    stride * r + b < stride * m ∧ (stride * r + b) % stride = b := by
  constructor
  · calc stride * r + b < stride * r + stride := by omega
      _ = stride * (r + 1) := by ring
      _ ≤ stride * m := Nat.mul_le_mul_left _ hr
  · rw [Nat.mul_add_mod, Nat.mod_eq_of_lt hb]

/-- A block of W lies in W's storage. -/
theorem storageMask_of_wFoot {nmax m k a j : Nat} (hm : m ≤ nmax) (hk : k ≤ 2 * nmax)
    (h : inFoot (wFoot nmax m k) a j = true) : (storageMask nmax a).getLsbD j = true := by
  obtain ⟨r, b, hr, rfl, hj, hb⟩ := (inFoot_blockFoot _ _ _ _ _ _).mp h
  have hs := two_nmax_le_wStride nmax
  obtain ⟨h1, h2⟩ := rowByte_in_window (stride := wStride nmax) (r := r) (b := b) (m := nmax)
    (by omega) (by omega)
  unfold storageMask
  rw [regionOf_eq_wWindow.mpr ⟨by omega, by rw [wBytes_eq]; omega⟩]
  show (colMask _ ((wBase + wStride nmax * r + b - wBase) % wStride nmax)).getLsbD j = true
  rw [Nat.add_assoc, Nat.add_sub_cancel_left, h2, getLsbD_colMask]
  simp only [hj, decide_true, Bool.true_and, decide_eq_true_eq]
  omega

/-- The rows of NV lie in NV's storage. -/
theorem storageMask_of_nvFoot {nmax a j : Nat} (hn : nmax ≤ 2047)
    (h : inFoot (nvFoot nmax) a j = true) : (storageMask nmax a).getLsbD j = true := by
  obtain ⟨r, b, hr, rfl, hj, hb⟩ := (inFoot_blockFoot _ _ _ _ _ _).mp h
  have hs := nmax_le_nvStride nmax
  obtain ⟨h1, h2⟩ := rowByte_in_window (stride := nvStride nmax) (r := r) (b := b) (m := nmax)
    (by omega) (by omega)
  unfold storageMask
  rw [(regionOf_eq_nvWindow hn).mpr ⟨by omega, by rw [nvBytes_eq]; omega⟩]
  show (colMask _ ((nvBase + nvStride nmax * r + b - nvBase) % nvStride nmax)).getLsbD j = true
  rw [Nat.add_assoc, Nat.add_sub_cancel_left, h2, getLsbD_colMask]
  simp only [hj, decide_true, Bool.true_and, decide_eq_true_eq]
  omega

/-- The four bytes of an aligned word of W lie in one row. -/
theorem wByte_in_row {nmax a l : Nat} (ha : regionOf nmax a = .wWindow) (h4 : a % 4 = 0)
    (hl : l < 4) : regionOf nmax (a + l) = .wWindow
      ∧ (a + l - wBase) % wStride nmax = (a - wBase) % wStride nmax + l := by
  obtain ⟨h1, h2⟩ := regionOf_eq_wWindow.mp ha
  have hb : wBytes nmax = 4 * (wprW nmax * nmax) := by unfold wBytes; ring
  have hs : wStride nmax = 4 * wprW nmax := rfl
  have hpos : 0 < wprW nmax := by
    rcases Nat.eq_zero_or_pos (wprW nmax) with h0 | h0
    · rw [hb, h0] at h2; omega
    · exact h0
  obtain ⟨q, hq⟩ : ∃ q, a - wBase = 4 * q := ⟨(a - wBase) / 4, by unfold wBase at *; omega⟩
  have hq' := Nat.mod_lt q hpos
  have hdm := Nat.div_add_mod q (wprW nmax)
  refine ⟨regionOf_eq_wWindow.mpr ⟨by omega, ?_⟩, ?_⟩
  · rw [hb] at h2 ⊢; unfold wBase at *; omega
  · rw [hs, hq, Nat.mul_mod_mul_left]
    have he : a + l - wBase = (4 * wprW nmax) * (q / wprW nmax) + (4 * (q % wprW nmax) + l) := by
      rw [Nat.mul_assoc]; omega
    rw [he, Nat.mul_add_mod, Nat.mod_eq_of_lt (by omega)]

/-- The storage bits of an aligned word of W lie in W's storage. -/
theorem storageMask_of_wWordFoot {nmax a b j : Nat} (ha : regionOf nmax a = .wWindow)
    (h4 : a % 4 = 0) (h : inFoot (wWordFoot nmax a) b j = true) :
    (storageMask nmax b).getLsbD j = true := by
  obtain ⟨l, hl, rfl, hj, hc⟩ := inFoot_wWordFoot.mp h
  obtain ⟨h1, h2⟩ := wByte_in_row ha h4 hl
  unfold storageMask
  rw [h1]
  show (colMask _ ((a + l - wBase) % wStride nmax)).getLsbD j = true
  rw [h2, getLsbD_colMask]
  simp [hj, hc]

end Sys2Proof.Machine
end

