-- ==== Sys2Proof/Tests/Slice0.lean ====
section
/-! SUPPORT. Small tests, each from the spec's own words or vectors (the source is named at each),
and for every statement with hypotheses a witness: a concrete state and operands that meet them. -/

set_option Elab.async false

namespace Sys2Proof.Tests

open Sys2Proof Sys2Proof.Machine

/-! ### WellFormed refuses (30_encoding.md R99) -/

theorem test_wellFormed_limits :
    (Instr.elim 4095 4095).wellFormed = true ∧ (Instr.gadd (-128) 127).wellFormed = true := by
  decide
theorem test_refuses_rows : (Instr.elim 4096 1).wellFormed = false ∧
    (Instr.inv 4096 1).wellFormed = false := by decide
theorem test_refuses_cols : (Instr.elim 1 4096).wellFormed = false ∧
    (Instr.inv 1 4096).wellFormed = false := by decide
theorem test_refuses_ia : (Instr.gadd 128 0).wellFormed = false ∧
    (Instr.gsub (-129) 0).wellFormed = false ∧ (Instr.gmul 128 0).wellFormed = false ∧
    (Instr.gdiv (-129) 0).wellFormed = false ∧ (Instr.gceq 128 0).wellFormed = false ∧
    (Instr.gclt (-129) 0).wellFormed = false ∧ (Instr.gcle 128 0).wellFormed = false := by decide
theorem test_refuses_ib : (Instr.gadd 0 (-129)).wellFormed = false ∧
    (Instr.gsub 0 128).wellFormed = false ∧ (Instr.gmul 0 (-129)).wellFormed = false ∧
    (Instr.gdiv 0 128).wellFormed = false ∧ (Instr.gceq 0 (-129)).wellFormed = false ∧
    (Instr.gclt 0 128).wellFormed = false ∧ (Instr.gcle 0 (-129)).wellFormed = false := by decide

/-! ### Decoding, words written out bit by bit from the formats (30_encoding.md R93, R94, R96) -/

theorem test_decode_elim : decode 0b00010000_000000000100_000000000010#32 = .ok (.elim 2 4) := by
  decide
theorem test_decode_inv : decode 0b00010001_000000000010_000000000011#32 = .ok (.inv 3 2) := by
  decide
theorem test_decode_gadd : decode 0b00100000_00000000_11111111_00000011#32 = .ok (.gadd (-1) 3) := by
  decide
theorem test_decode_gsub : decode 0b00100001_00000000_00000000_00000001#32 = .ok (.gsub 0 1) := by
  decide
theorem test_decode_gmul : decode 0b00100010_00000000_01111111_11111111#32 = .ok (.gmul 127 (-1)) := by
  decide
theorem test_decode_gdiv : decode 0b00100011_00000000_00000001_10000000#32 = .ok (.gdiv 1 (-128)) := by
  decide
theorem test_decode_gceq : decode 0b00100100_00000000_00000011_00000001#32 = .ok (.gceq 3 1) := by
  decide
theorem test_decode_gclt : decode 0b00100101_00000000_11111110_00000011#32 = .ok (.gclt (-2) 3) := by
  decide
theorem test_decode_gcle : decode 0b00100110_00000000_00000001_00000010#32 = .ok (.gcle 1 2) := by
  decide

/-- The illegal words of 95_test_vectors.md section 3. -/
theorem test_decode_illegal :
    decode 0x00000000#32 = .error (.unknownOpcode 0x00#8) ∧
    decode 0xFF000000#32 = .error (.unknownOpcode 0xFF#8) ∧
    decode 0x12000000#32 = .error (.unknownOpcode 0x12#8) ∧
    decode 0x27000101#32 = .error (.unknownOpcode 0x27#8) ∧
    decode 0x20010101#32 = .error (.reservedField 0x01#8) ∧
    decode 0x23010100#32 = .error (.reservedField 0x01#8) := by decide

theorem test_table_word : decodeTableWord 32 0x11019019 = some (.inv 25 25) := by decide

/-! ### Helpers -/

/-- An instance with one W word a row, from row 0 on (word 0 of each row). -/
def withRows (nmax : Nat) (rows : List Word) : State :=
  rows.foldl (fun s v => { s with
      mem := s.mem.writeFoot (wWordFoot s.nmax (wBase + wStride s.nmax * s.draws))
        (laneOf v (wBase + wStride s.nmax * s.draws))
      draws := s.draws + 1 }) (State.resetFor nmax)

/-- The next state, where there is one. -/
def after (o : Host.Outcome State Fault Refusal) (s : State) : State :=
  match o with
  | .next t => t
  | .fault _ => s
  | .refused _ => s

/-- A state with the given command pending and the engine's turn next. -/
def pendingIn (s : State) (w : Nat) : State := s.withFetchWord 32 w

/-- A state whose next events are the given ones. -/
def facing (s : State) (events : List Event) : State := { s with events := events }

/-- The word the host reads at an offset of an idle state. -/
def reads (s : State) (a : Nat) : Answer := (s.busRead (BitVec.ofNat 22 a) 4).answer

/-! ### Scalar vectors (95_test_vectors.md 4.1, 4.2) -/

theorem test_gadd : (after (step (pendingIn State.reset 0x2000FF03)) State.reset).sres = false ∧
    (after (step (pendingIn State.reset 0x20000001)) State.reset).sres = true := by decide +kernel
theorem test_gsub : (after (step (pendingIn State.reset 0x21000001)) State.reset).sres = true ∧
    (after (step (pendingIn State.reset 0x21000101)) State.reset).sres = false := by decide +kernel
theorem test_gmul : (after (step (pendingIn State.reset 0x22007FFF)) State.reset).sres = true ∧
    (after (step (pendingIn State.reset 0x22008001)) State.reset).sres = false := by decide +kernel
theorem test_gdiv_zero : (after (step (pendingIn State.reset 0x230001FE)) State.reset).status.word
    = 0x00000306#32 := by decide +kernel
theorem test_gdiv : (after (step (pendingIn State.reset 0x2300FF01)) State.reset).sres = true ∧
    (after (step (pendingIn State.reset 0x2300FF01)) State.reset).status.word = 0x00000002#32 := by
  decide +kernel
theorem test_gceq : (after (step (pendingIn State.reset 0x24000301)) State.reset).sres = true ∧
    (after (step (pendingIn State.reset 0x24000001)) State.reset).sres = false := by decide +kernel
theorem test_gclt : (after (step (pendingIn State.reset 0x2500FE03)) State.reset).sres = true ∧
    (after (step (pendingIn State.reset 0x25000102)) State.reset).sres = false := by decide +kernel
theorem test_gcle : (after (step (pendingIn State.reset 0x26000102)) State.reset).sres = false ∧
    (after (step (pendingIn State.reset 0x26000000)) State.reset).sres = true := by decide +kernel

/-! ### ELIM and INV vectors (95_test_vectors.md 4.3, 4.4, 4.6) -/

/-- E10: the swap moves only columns [0, k). -/
theorem test_elim_swap :
    let t := after (step (pendingIn (withRows 32 [0xF2#32, 0x501#32]) 0x10002002)) State.reset
    reads t 0x100000 = .read .okay 0xF1#32 ∧ reads t 0x100008 = .read .okay 0x502#32
      ∧ t.nulldim = 0#12 := by decide +kernel

/-- E5: early stop although column 2 has a pivot. -/
theorem test_elim_early_stop :
    let t := after (step (pendingIn (withRows 32 [3#32, 3#32, 4#32]) 0x10003003)) State.reset
    reads t 0x100000 = .read .okay 3#32 ∧ reads t 0x100008 = .read .okay 0#32
      ∧ reads t 0x100010 = .read .okay 4#32 ∧ t.nulldim = 2#12 := by decide +kernel

/-- I6: a valid null vector. -/
theorem test_inv_null_vector :
    let t := after (step (pendingIn (withRows 32 [6#32, 5#32, 3#32]) 0x11003003)) State.reset
    reads t 0x100000 = .read .okay 0x15#32 ∧ reads t 0x100008 = .read .okay 0x0E#32
      ∧ reads t 0x100010 = .read .okay 0x38#32 ∧ t.nulldim = 1#12
      ∧ reads t 0x200000 = .read .okay 7#32 ∧ reads t 0x200004 = .read .okay 0#32 := by
  decide +kernel

/-- 4.6: shape errors. -/
theorem test_shape_errors :
    (after (step (pendingIn State.reset 0x10002003)) State.reset).status.word = 0x00000206#32 ∧
    (after (step (pendingIn State.reset 0x11021021)) State.reset).status.word = 0x00000206#32 := by
  decide +kernel

/-! ### Bus and protocol vectors (95_test_vectors.md 4.7) -/

theorem test_identity_reads : reads State.reset 0x000 = .read .okay 0x4746324A#32 ∧
    reads State.reset 0x004 = .read .okay 0x00102020#32 ∧
    reads State.reset 0x01C = .read .okay 0x00010000#32 ∧
    reads State.reset 0x020 = .read .okay 0#32 := by decide +kernel

theorem test_refused_accesses : reads State.reset 0x002 = .read .error 0#32 ∧
    reads State.reset 0x000100 = .read .error 0#32 ∧
    reads State.reset 0x100100 = .read .error 0#32 ∧
    reads State.reset 0x200080 = .read .error 0#32 ∧
    reads State.reset 0x300000 = .read .error 0#32 ∧
    (State.reset.busRead 0x000#22 1).answer = .read .error 0#32 ∧
    State.reset.busWrite 0x008#22 2 0x2002#32 = State.reset.reply (.write .error) ∧
    State.reset.busWrite 0x200000#22 4 1#32 = State.reset.reply (.write .error) := by
  decide +kernel

theorem test_write_then_read :
    reads (State.reset.busWrite 0x100000#22 4 0xA5A5A5A5#32) 0x100000
      = .read .okay 0xA5A5A5A5#32 := by decide +kernel

/-- Write(0x018, 4, 7) when STATUS = 0x1A. -/
theorem test_ctrl_seven :
    let s := { State.reset with status := { Status.reset with done := true, ovr := true, haz := true } }
    s.status.word = 0x1A#32 ∧ (s.busWrite 0x018#22 4 7#32).status.word = 0#32
      ∧ reads (s.busWrite 0x018#22 4 7#32) 0x018 = .read .okay 1#32 := by decide +kernel

/-- Padding bits read 0 and ignore writes (20_memory.md R72), NMAX = 2. -/
theorem test_padding :
    reads ((State.resetFor 2).busWrite 0x100000#22 4 0xFFFFFFFF#32) 0x100000
      = .read .okay 0xF#32 := by decide +kernel

/-! ### Witnesses: concrete states and operands that meet a statement's hypotheses -/

/-- NMAX = 2, W rows 0 and 1 written whole. -/
def small : State := withRows 2 [0x6#32, 0x3#32]

/-- NMAX = 2, W row 0 written, row 1 not. -/
def halfWritten : State := withRows 2 [0x6#32]

/-- small with a command pending and the engine's turn next. -/
def smallPending (w : Nat) : State := pendingIn small w

/-- small with a command pending and a host transaction next. -/
def smallBusy (w : Nat) (e : Event) : State := { pendingIn small w with events := [e] }

theorem witness_DecodeOfEncode : (Instr.elim 4095 0).wellFormed = true ∧
    (Instr.inv 0 4095).wellFormed = true ∧ (Instr.gdiv (-128) 127).wellFormed = true := by decide

theorem witness_EncodeOfDecode : decode 0x11002003#32 = .ok (.inv 3 2) := by decide

theorem witness_IllegalWordsComplete : (smallPending 0x27000101).engineNext ∧
    (smallPending 0x27000101).resetLine = false ∧ (smallPending 0x27000101).status.busy = true ∧
    illegalWord (smallPending 0x27000101).cmd ∧ illegalWord 0x0F000000#32 ∧
    illegalWord 0x12000000#32 ∧ illegalWord 0x1F000000#32 ∧ illegalWord 0x20010000#32 ∧
    illegalWord 0x26FF0000#32 ∧ ¬ illegalWord 0x26000000#32 ∧ ¬ illegalWord 0x10FFFFFF#32 := by
  decide +kernel

theorem witness_StepRunsTheDecodedCommand : (smallPending 0x10002002).engineNext ∧
    (smallPending 0x10002002).resetLine = false ∧ (smallPending 0x10002002).status.busy = true ∧
    decode (smallPending 0x10002002).cmd = .ok (.elim 2 2) := by decide +kernel

theorem witness_StepServesTheNextEvent :
    (facing small [.read 0#22 4]).events = .read 0#22 4 :: [] ∧
    (facing small [.write 0#22 4 0#32]).events = .write 0#22 4 0#32 :: [] ∧
    (facing small [.resetInput true]).events = .resetInput true :: [] := by decide

theorem witness_IdleEngineDoesNothing : State.reset.engineNext ∧ State.reset.status.busy = false ∧
    (facing { small with resetLine := true } [.engine]).engineNext ∧
    (facing { small with resetLine := true } [.engine]).resetLine = true := by decide +kernel

theorem witness_GaddResult : fieldOpc 0x2000FF03#32 = 0x20#8 ∧ fieldRsv 0x2000FF03#32 = 0#8 := by
  decide
theorem witness_GsubResult : fieldOpc 0x21000001#32 = 0x21#8 ∧ fieldRsv 0x21000001#32 = 0#8 := by
  decide
theorem witness_GmulResult : fieldOpc 0x22007FFF#32 = 0x22#8 ∧ fieldRsv 0x22007FFF#32 = 0#8 := by
  decide
theorem witness_GdivResult : fieldOpc 0x23000180#32 = 0x23#8 ∧ fieldRsv 0x23000180#32 = 0#8 ∧
    ((-1 : Int) % 2 = 1) ∧ ((-128 : Int) % 2 = 0) := by decide
theorem witness_GceqResult : fieldOpc 0x24000301#32 = 0x24#8 ∧ fieldRsv 0x24000301#32 = 0#8 := by
  decide
theorem witness_GcltResult : fieldOpc 0x2500FE03#32 = 0x25#8 ∧ fieldRsv 0x2500FE03#32 = 0#8 := by
  decide
theorem witness_GcleResult : fieldOpc 0x26000102#32 = 0x26#8 ∧ fieldRsv 0x26000102#32 = 0#8 := by
  decide

/-- Each refused shape at its boundary (m = 0; m = NMAX + 1; k = 0; k = 2*NMAX + 1; m = k + 1) and
the greatest accepted shape. -/
theorem witness_ElimRefusesShapes : (0 < 1) ∧ (3 > small.nmax) ∧ (5 > 2 * small.nmax) ∧ (2 > 1) ∧
    ¬ (2 < 1 ∨ 2 > small.nmax ∨ 4 < 1 ∨ 4 > 2 * small.nmax ∨ 2 > 4) ∧
    ¬ (1 < 1 ∨ 1 > small.nmax ∨ 1 < 1 ∨ 1 > 2 * small.nmax ∨ 1 > 1) := by decide +kernel

theorem witness_ElimRunsTheElimination : small.nmaxLegal ∧ 1 ≤ 2 ∧ 2 ≤ small.nmax ∧ 2 ≤ 4 ∧
    4 ≤ 2 * small.nmax ∧ small.wWritten 2 4 ∧ small.wWritten 1 1 ∧ (2 > 1) := by decide +kernel

theorem witness_ElimOnUnwrittenOperand : halfWritten.nmaxLegal ∧ 1 ≤ 2 ∧ 2 ≤ halfWritten.nmax ∧
    2 ≤ 4 ∧ 4 ≤ 2 * halfWritten.nmax ∧ ¬ halfWritten.wWritten 2 4 := by decide +kernel

theorem witness_ElimResultForm : small.nmaxLegal ∧ 1 ≤ 2 ∧ 2 ≤ small.nmax ∧ 2 ≤ 3 ∧
    3 ≤ 2 * small.nmax ∧ small.wWritten 2 3 := by decide +kernel

theorem witness_ElimRowEquivalence : (0 < 2 ∧ 1 < 2) ∧
    small.nmaxLegal ∧ 1 ≤ 2 ∧ 2 ≤ small.nmax ∧ 2 ≤ 2 ∧ 2 ≤ 2 * small.nmax ∧
    small.wWritten 2 2 := by decide +kernel

theorem witness_ElimNulldimAndRank : small.nmaxLegal ∧ 1 ≤ 1 ∧ 1 ≤ small.nmax ∧ 1 ≤ 4 ∧
    4 ≤ 2 * small.nmax ∧ small.wWritten 1 4 := by decide +kernel

theorem witness_ElimFixedOperands :
    (withRows 2 [0#32, 0#32]).nmaxLegal ∧ (withRows 2 [0#32, 0#32]).wWritten 2 4 ∧
    (∀ r, r < 2 → ∀ c, c < 4 → (withRows 2 [0#32, 0#32]).w r c = some false) ∧
    (withRows 2 [0xD#32, 0x6#32]).wWritten 2 4 ∧
    (∀ r, r < 2 → ∀ c, c < 2 → (withRows 2 [0xD#32, 0x6#32]).w r c = some (decide (r = c))) := by
  decide +kernel

/-- Each refused shape at its boundary (m = k + 1; m = 0; m = NMAX + 1) and the accepted shapes
n = 1 and n = NMAX. -/
theorem witness_InvRefusesShapes : (2 ≠ 1) ∧ (0 < 1) ∧ (3 > small.nmax) ∧
    ¬ (1 ≠ 1 ∨ 1 < 1 ∨ 1 > small.nmax) ∧ ¬ (2 ≠ 2 ∨ 2 < 1 ∨ 2 > small.nmax) := by decide +kernel

theorem witness_InvRunsTheInversion : small.nmaxLegal ∧ 1 ≤ 2 ∧ 2 ≤ small.nmax ∧
    small.wWritten 2 2 ∧ small.wWritten 1 1 := by decide +kernel

theorem witness_InvOnUnwrittenOperand : halfWritten.nmaxLegal ∧ 1 ≤ 2 ∧ 2 ≤ halfWritten.nmax ∧
    ¬ halfWritten.wWritten 2 2 := by decide +kernel

/-- A singular and an invertible operand, for the two cases of NULLDIM. -/
theorem witness_InvBlockProduct : (withRows 2 [3#32, 3#32]).nmaxLegal ∧ 1 ≤ 2 ∧
    2 ≤ (withRows 2 [3#32, 3#32]).nmax ∧ (withRows 2 [3#32, 3#32]).wWritten 2 2 ∧
    (after (exec (.inv 2 2) (withRows 2 [3#32, 3#32])) State.reset).nulldim = 1#12 ∧
    (after (exec (.inv 2 2) small) State.reset).nulldim = 0#12 := by decide +kernel

/-- Y = 0 (I3) and, at NMAX = 3, Y other than 0 (I7). -/
theorem witness_InvNullVectors : (withRows 3 [3#32, 3#32, 4#32]).nmaxLegal ∧ 1 ≤ 3 ∧
    3 ≤ (withRows 3 [3#32, 3#32, 4#32]).nmax ∧ (withRows 3 [3#32, 3#32, 4#32]).wWritten 3 3 ∧
    (after (exec (.inv 3 3) (withRows 3 [3#32, 3#32, 4#32])) State.reset).w 2 2 = some true ∧
    (after (exec (.inv 2 2) (withRows 2 [3#32, 3#32])) State.reset).w 1 1 = some false := by
  decide +kernel

theorem witness_InvIgnoresTheRightBlock : small.nmaxLegal ∧
    (withRows 2 [0xE#32, 0xF#32]).nmax = small.nmax ∧ 1 ≤ 2 ∧ 2 ≤ small.nmax ∧
    small.wWritten 2 2 ∧ (∀ r, r < 2 → ∀ c, c < 2 →
      (withRows 2 [0xE#32, 0xF#32]).w r c = small.w r c) := by decide +kernel

theorem witness_ErrorsChangeOnlyStatus : small.status.err = false ∧
    (after (exec (.gdiv 1 0) small) small).status.err = true ∧
    (smallPending 0).engineNext ∧ (smallPending 0).status.err = false ∧
    (after (step (smallPending 0)) small).status.err = true := by decide +kernel

theorem witness_WhatEachCommandWrites : small.nmaxLegal ∧
    exec (.gadd 1 0) small = .next (after (exec (.gadd 1 0) small) State.reset) :=
  ⟨by decide +kernel, rfl⟩

theorem witness_CompletionStatus : (smallPending 0x23000100).engineNext ∧
    (smallPending 0x23000100).resetLine = false ∧ (smallPending 0x23000100).status.busy = true := by
  decide +kernel

theorem witness_CmdWriteIssue : small.resetLine = false ∧ small.status.busy = false ∧
    (facing small [.write 0x008#22 4 0#32]).events = .write 0x008#22 4 0#32 :: [] ∧
    (smallBusy 0x10002002 (.write 0x008#22 4 0#32)).status.busy = true ∧
    (smallBusy 0x10002002 (.write 0x008#22 4 0#32)).resetLine = false := by decide +kernel

theorem witness_IrqLevel : (smallPending 0).engineNext ∧ (smallPending 0).resetLine = false ∧
    (smallPending 0).status.busy = true ∧ small.resetLine = false ∧ small.status.busy = false ∧
    (facing small [.write 0x008#22 4 0#32]).events = .write 0x008#22 4 0#32 :: [] ∧
    (facing small [.write 0x018#22 4 1#32]).events = .write 0x018#22 4 1#32 :: [] ∧
    (facing small [.resetInput true]).events = .resetInput true :: [] := by decide +kernel

theorem witness_CtrlWriteActions : (smallBusy 0 (.write 0x018#22 4 7#32)).resetLine = false ∧
    (7#32).getLsbD 31 = false ∧ (0x80000001#32).getLsbD 31 = true ∧
    (0x80000000#32).getLsbD 31 = true := by decide +kernel

/-- A pending ELIM, INV, scalar command and illegal word, and none pending. -/
theorem witness_SoftReset : (smallBusy 0x10004002 (.write 0x018#22 4 0x80000000#32)).nmaxLegal ∧
    (smallBusy 0x10004002 (.write 0x018#22 4 0x80000000#32)).resetLine = false ∧
    (smallBusy 0x10004002 (.write 0x018#22 4 0x80000000#32)).status.busy = true ∧
    (0x80000000#32).getLsbD 31 = true ∧ decode 0x10004002#32 = .ok (.elim 2 4) ∧
    elimShapeBad small.nmax 2 4 = false ∧ decode 0x11002002#32 = .ok (.inv 2 2) ∧
    invShapeBad small.nmax 2 2 = false ∧ decode 0x20000000#32 = .ok (.gadd 0 0) ∧
    small.status.busy = false := by decide +kernel

theorem witness_SoftResetOfRefusedShape :
    (smallBusy 0x10002003 (.write 0x018#22 4 0x80000000#32)).nmaxLegal ∧
    (smallBusy 0x10002003 (.write 0x018#22 4 0x80000000#32)).resetLine = false ∧
    (smallBusy 0x10002003 (.write 0x018#22 4 0x80000000#32)).status.busy = true ∧
    decode 0x10002003#32 = .ok (.elim 3 2) ∧ decode 0x11002003#32 = .ok (.inv 3 2) ∧
    (smallBusy 0x11002003 (.write 0x018#22 4 0x80000000#32)).status.busy = true ∧
    elimShapeBad small.nmax 3 2 = true ∧ invShapeBad small.nmax 3 2 = true := by
  decide +kernel

theorem witness_HardwareReset :
    (facing small [.resetInput true]).events = .resetInput true :: [] ∧
    (facing { small with resetLine := true } [.resetInput false]).resetLine = true ∧
    (facing { small with resetLine := true } [.engine]).events = .engine :: [] := by
  decide +kernel

theorem witness_BusRefusals : small.resetLine = false ∧ (3 : Nat) ≠ 4 ∧
    (0x00A#22).toNat % 4 ≠ 0 ∧ (0x100 ≤ (0x100#22).toNat ∧ ¬ inWWindow small.nmax (0x100#22).toNat
      ∧ ¬ inNvWindow small.nmax (0x100#22).toNat) ∧
    ¬ inWWindow small.nmax (0x100008#22).toNat ∧ inWWindow small.nmax (0x100004#22).toNat ∧
    ¬ inNvWindow small.nmax (0x200008#22).toNat ∧ inNvWindow small.nmax (0x200004#22).toNat := by
  decide +kernel

theorem witness_WindowAccessWhileBusy :
    (smallBusy 0x10002002 (.read 0x100004#22 4)).resetLine = false ∧
    (smallBusy 0x10002002 (.read 0x100004#22 4)).status.busy = true ∧
    (0x100004#22).toNat % 4 = 0 ∧ inWWindow small.nmax (0x100004#22).toNat ∧
    inNvWindow small.nmax (0x200000#22).toNat := by decide +kernel

theorem witness_WWriteStoresTheWord : small.nmaxLegal ∧ small.resetLine = false ∧
    small.status.busy = false ∧ (0x100004#22).toNat % 4 = 0 ∧
    inWWindow small.nmax (0x100004#22).toNat ∧
    (facing small [.write 0x100004#22 4 9#32]).events = .write 0x100004#22 4 9#32 :: [] := by
  decide +kernel

/-- W row 1, and NV row 1 after INV 2. -/
theorem witness_WindowReadReturnsTheWord : small.nmaxLegal ∧ small.resetLine = false ∧
    small.status.busy = false ∧ (0x100004#22).toNat = 0x100000 + 4 * (1 * ((2 * 2 + 31) / 32) + 0) ∧
    (∀ j, j < 32 → 32 * 0 + j < 2 * small.nmax → (small.w 1 (32 * 0 + j)).isSome = true) ∧
    (0x200004#22).toNat = 0x200000 + 4 * (1 * ((2 + 31) / 32) + 0) ∧
    (∀ j, j < 32 → 32 * 0 + j < 2 →
      ((after (exec (.inv 2 2) small) State.reset).nv 1 (32 * 0 + j)).isSome = true) := by
  decide +kernel

theorem witness_WindowReadOfUnwrittenBits : halfWritten.nmaxLegal ∧
    halfWritten.resetLine = false ∧ halfWritten.status.busy = false ∧
    halfWritten.w 1 (32 * 0 + 3) = none ∧ 32 * 0 + 3 < 2 * halfWritten.nmax ∧
    halfWritten.nv 0 (32 * 0 + 1) = none := by decide +kernel

theorem witness_CsrReads : small.resetLine = false ∧ (0x0FC#22).toNat < 0x100 ∧
    (0x0FC#22).toNat % 4 = 0 ∧ 0x020 ≤ (0x020#22).toNat ∧
    (facing small [.read 0x0FC#22 4]).events = .read 0x0FC#22 4 :: [] := by decide +kernel

theorem witness_ConfigWordLayout : (1 ≤ 2047 ∧ 2047 ≤ 2047) ∧ (1 ≤ 1 ∧ 1 ≤ 2047) ∧
    step State.reset = .next State.reset := ⟨by decide, by decide, by rfl⟩

theorem witness_ReadOnlyWritesIgnored : small.resetLine = false ∧ (0x00C#22).toNat < 0x100 ∧
    (0x00C#22).toNat % 4 = 0 ∧ 0x00C#22 ≠ 0x008#22 ∧ 0x00C#22 ≠ 0x018#22 ∧
    (0x0FC#22).toNat % 4 = 0 := by decide +kernel

theorem witness_StorageBitsAreDistinct : (1 ≤ 2047 ∧ 2047 ≤ 2047) ∧ (0 < 2047 ∧ 4093 < 2 * 2047) ∧
    wAddr 2047 0 4093 = wAddr 2047 0 4093 := by decide

theorem witness_ResetHasInv : 1 ≤ 2047 ∧ 2047 ≤ 2047 := by decide

theorem witness_StepKeepsInv : (smallPending 0x11002002).Inv ∧
    step (smallPending 0x11002002) = .next (after (step (smallPending 0x11002002)) State.reset) :=
  ⟨by decide +kernel, by rfl⟩

theorem witness_ApertureSelection : Config.engineSlot * Config.apertureBytes + 0x400000
    ≤ Config.engineSlot * Config.apertureBytes + 0x400000 := le_rfl

theorem witness_ConstantsNeverChange :
    step (facing small [.resetInput true])
      = .next (after (step (facing small [.resetInput true])) State.reset) := by rfl

theorem witness_PendingCommandEnds :
    (smallBusy 0x10002002 (.write 0x008#22 4 0#32)).status.busy = true ∧
    (smallBusy 0x10002002 (.write 0x008#22 4 0#32)).resetLine = false := by decide +kernel

/-- The three cases: INV completes; a soft reset aborts INV; the reset input changes. -/
theorem witness_NvChangesOnlyByInvOrReset : (smallPending 0x11002002).nmaxLegal ∧
    (after (step (smallPending 0x11002002)) State.reset).mem.bit nvBase 0
      ≠ (smallPending 0x11002002).mem.bit nvBase 0 ∧
    (let s := { after (step (smallPending 0x11002002)) State.reset with
        cmd := 0x11002002#32, status := { Status.reset with busy := true },
        events := [Event.write 0x018#22 4 0x80000000#32] }
     (after (step s) State.reset).mem.bit nvBase 0 ≠ s.mem.bit nvBase 0) ∧
    (let s := { after (step (smallPending 0x11002002)) State.reset with
        events := [Event.resetInput true] }
     (after (step s) State.reset).mem.bit nvBase 0 ≠ s.mem.bit nvBase 0) := by decide +kernel

theorem witness_ResultsChangeOnlyByTheirCommands :
    (after (step (pendingIn (withRows 2 [0#32]) 0x10001001)) State.reset).nulldim
      ≠ (pendingIn (withRows 2 [0#32]) 0x10001001).nulldim ∧
    (after (step (smallPending 0x20000001)) State.reset).sres ≠ (smallPending 0x20000001).sres := by
  decide +kernel

theorem witness_StickyBits :
    (smallBusy 0x10002002 (.read 0x00C#22 4)).hostPatient = true ∧
    (smallBusy 0x10002002 (.read 0x100000#22 4)).hostPatient = false ∧
    (let s := { small with status := { Status.reset with ovr := true, haz := true },
                           events := [Event.write 0x018#22 4 4#32] }
     s.status.ovr = true ∧ (after (step s) State.reset).status.ovr = false ∧
     s.status.haz = true ∧ (after (step s) State.reset).status.haz = false) := by decide +kernel

theorem witness_BusyHidesIntermediateState :
    (smallBusy 0x10002002 (.write 0x008#22 4 0#32)).status.busy = true ∧
    (smallBusy 0x10002002 (.write 0x008#22 4 0#32)).events = .write 0x008#22 4 0#32 :: [] ∧
    0x008#22 ≠ 0x018#22 := by decide +kernel

/-! ### The steps of the witnesses above answer a next state -/

/-- A step that answers a next state. -/
abbrev goesOn (s : State) : Prop := step s = .next (after (step s) State.reset)

theorem witness_IrqLevel_steps : goesOn (smallPending 0) ∧
    goesOn (facing small [.write 0x008#22 4 0#32]) ∧
    goesOn (facing small [.write 0x018#22 4 1#32]) ∧ goesOn (facing small [.resetInput true]) :=
  ⟨rfl, rfl, rfl, rfl⟩

theorem witness_ErrorsChangeOnlyStatus_steps :
    exec (.gdiv 1 0) small = .next (after (exec (.gdiv 1 0) small) small) ∧
    goesOn (smallPending 0) := ⟨rfl, rfl⟩

theorem witness_NvChangesOnlyByInvOrReset_step : goesOn (smallPending 0x11002002) := rfl

theorem witness_ResultsChangeOnlyByTheirCommands_steps :
    goesOn (pendingIn (withRows 2 [0#32]) 0x10001001) ∧ goesOn (smallPending 0x20000001) :=
  ⟨rfl, rfl⟩

/-- Both registers set, and each of the two resets next. -/
theorem witness_ResultsChangeOnlyByTheirCommands_resets :
    let s := fun e => { small with nulldim := 1#12, sres := true, events := [e] }
    goesOn (s (.write 0x018#22 4 0x80000000#32)) ∧ goesOn (s (.resetInput true)) ∧
    (after (step (s (.write 0x018#22 4 0x80000000#32))) small).nulldim ≠ 1#12 ∧
    (after (step (s (.write 0x018#22 4 0x80000000#32))) small).sres ≠ true ∧
    (after (step (s (.resetInput true))) small).nulldim ≠ 1#12 ∧
    (after (step (s (.resetInput true))) small).sres ≠ true :=
  ⟨rfl, rfl, by decide +kernel, by decide +kernel, by decide +kernel, by decide +kernel⟩

theorem witness_StickyBits_steps : goesOn (smallBusy 0x10002002 (.read 0x00C#22 4)) ∧
    goesOn { small with status := { Status.reset with ovr := true, haz := true },
                        events := [Event.write 0x018#22 4 4#32] } := ⟨rfl, rfl⟩

theorem witness_BusyHidesIntermediateState_step :
    goesOn (smallBusy 0x10002002 (.write 0x008#22 4 0#32)) := rfl

end Sys2Proof.Tests
end

/-! Proofs of the family 10_state.md: CMD and CTRL writes, irq, CONFIG, ID and VERSION. -/

namespace Sys2Proof.Machine

open Sys2Proof

/-! ### Fields of a 32-bit word (00_scope.md R11) -/

/-- A placed field that fits in the word is read back whole. -/
theorem extractLsb'_placed_self {w lo : Nat} (v : BitVec w) (h : lo + w ≤ 32) :
    (placed v lo).extractLsb' lo w = v := by
  apply BitVec.eq_of_getLsbD_eq
  intro j hj
  have hlt : lo + j < 32 := by omega
  rw [BitVec.getLsbD_extractLsb', Laws.getLsbD_placed, Nat.add_sub_cancel_left]
  simp [hj, hlt]

/-- A field beside the placed one reads 0. -/
theorem extractLsb'_placed_disjoint {w lo lo' len : Nat} (v : BitVec w)
    (h : lo' + len ≤ lo ∨ lo + w ≤ lo') : (placed v lo).extractLsb' lo' len = 0#len := by
  apply BitVec.eq_of_getLsbD_eq
  intro j hj
  rw [BitVec.getLsbD_extractLsb', Laws.getLsbD_placed, BitVec.getLsbD_zero]
  rcases h with hbelow | habove
  · have hlo : ¬ lo ≤ lo' + j := by omega
    simp [hlo]
  · rw [BitVec.getLsbD_of_ge v (lo' + j - lo) (by omega), Bool.and_false, Bool.and_false]

/-! ### CONFIG (10_state.md R25) -/

/-- A field of CONFIG is read from its three placed parts. -/
theorem extractLsb'_configWord (n lo len : Nat) :
    (configWord n).extractLsb' lo len = (placed (BitVec.ofNat 12 n) 0).extractLsb' lo len
      ||| (placed (BitVec.ofNat 8 (wprW n)) 12).extractLsb' lo len
      ||| (placed (BitVec.ofNat 8 (wprN n)) 20).extractLsb' lo len := by
  rw [configWord, BitVec.extractLsb'_or, BitVec.extractLsb'_or]

theorem configWord_nmaxField (n : Nat) :
    (configWord n).extractLsb' 0 12 = BitVec.ofNat 12 n := by
  simp [extractLsb'_configWord, extractLsb'_placed_self, extractLsb'_placed_disjoint]

theorem configWord_wprWField (n : Nat) :
    (configWord n).extractLsb' 12 8 = BitVec.ofNat 8 (wprW n) := by
  simp [extractLsb'_configWord, extractLsb'_placed_self, extractLsb'_placed_disjoint]

theorem configWord_wprNField (n : Nat) :
    (configWord n).extractLsb' 20 8 = BitVec.ofNat 8 (wprN n) := by
  simp [extractLsb'_configWord, extractLsb'_placed_self, extractLsb'_placed_disjoint]

theorem configWord_reservedField (n : Nat) : (configWord n).extractLsb' 28 4 = 0#4 := by
  simp [extractLsb'_configWord, extractLsb'_placed_disjoint]

theorem wprW_range {n : Nat} (h1 : 1 ≤ n) (h2 : n ≤ 2047) : 1 ≤ wprW n ∧ wprW n ≤ 128 := by
  unfold wprW; omega

theorem wprN_range {n : Nat} (h1 : 1 ≤ n) (h2 : n ≤ 2047) : 1 ≤ wprN n ∧ wprN n ≤ 64 := by
  unfold wprN; omega

/-! ### Reads of the CSR page (10_state.md R23) -/

theorem csrRead_id (s : State) : s.csrRead 0x000 = Config.id := rfl

theorem csrRead_config (s : State) : s.csrRead 0x004 = configWord s.nmax := rfl

theorem csrRead_ctrl (s : State) : s.csrRead 0x018 = placed (BitVec.ofBool s.ie) 0 := rfl

theorem csrRead_version (s : State) : s.csrRead 0x01C = Config.version := rfl

/-! ### No step changes NMAX (00_scope.md R7, notes/assumptions/1.md) -/

theorem exec_nmax {i : Instr} {s t : State} (h : exec i s = .next t) : t.nmax = s.nmax := by
  rcases exec_cases h with ⟨_, _, _, hn, _⟩ | rfl | rfl
  · exact hn
  · exact State.raise_nmax s .shape
  · exact State.raise_nmax s .divzero

/-- Every effect of a step, both resets among them, keeps NMAX. -/
theorem StepEffect.nmax_eq {s t : State} (h : StepEffect s t) : t.nmax = s.nmax := by
  cases h with
  | command _ _ _ _ _ _ hexec => simpa using exec_nmax hexec
  | quiet | hazard | overrun | accepted | illegal | control | softReset | stored
  | hardwareReset => rfl

theorem step_nmax {s t : State} (h : step s = .next t) : t.nmax = s.nmax :=
  (step_cases h).nmax_eq

/-! ### A served write of the CSR page (20_memory.md R71) -/

theorem regionOf_csr {nmax a : Nat} (h : a < 0x100) : regionOf nmax a = .csr := by
  simp [regionOf, h]

/-- A served write of the CSR page is answered OKAY, whatever the phase. -/
theorem step_csrWrite {s : State} {a : Offset} {v : Word} {rest : List Event}
    (hl : s.resetLine = false) (he : s.events = .write a 4 v :: rest) (ha : a.toNat < 0x100)
    (h4 : a.toNat % 4 = 0) :
    step s = .next ((({ s with events := rest } : State).csrWrite a.toNat v).reply
      (.write .okay)) := by
  rw [step_of_event he]
  simp [serveEvent, State.busWrite, hl, badAccess, h4, State.serveWrite, regionOf_csr ha]

/-- A served write of CMD (10_state.md R36). -/
theorem step_cmdWrite {s : State} {v : Word} {rest : List Event} (hl : s.resetLine = false)
    (he : s.events = .write 0x008#22 4 v :: rest) :
    step s = .next ((({ s with events := rest } : State).cmdWrite v).reply (.write .okay)) :=
  step_csrWrite hl he (by decide) (by decide)

/-- A served write of CTRL (10_state.md R30). -/
theorem step_ctrlWrite {s : State} {v : Word} {rest : List Event} (hl : s.resetLine = false)
    (he : s.events = .write 0x018#22 4 v :: rest) :
    step s = .next ((({ s with events := rest } : State).ctrlWrite v).reply (.write .okay)) :=
  step_csrWrite hl he (by decide) (by decide)

/-! ### CMD writes (10_state.md R36, R39) -/

theorem cmdWrite_busy {s : State} (v : Word) (h : s.status.busy = true) :
    s.cmdWrite v = s.overrun := by simp [State.cmdWrite, h]

theorem cmdWrite_idle {s : State} (v : Word) (h : s.status.busy = false) :
    s.cmdWrite v = s.accept v := by simp [State.cmdWrite, h]

theorem step_cmdWrite_busy {s : State} {v : Word} {rest : List Event} (hl : s.resetLine = false)
    (he : s.events = .write 0x008#22 4 v :: rest) (hb : s.status.busy = true) :
    step s = .next ((({ s with events := rest } : State).overrun).reply (.write .okay)) := by
  rw [step_cmdWrite hl he, cmdWrite_busy (s := { s with events := rest }) v hb]

theorem step_cmdWrite_idle {s : State} {v : Word} {rest : List Event} (hl : s.resetLine = false)
    (he : s.events = .write 0x008#22 4 v :: rest) (hb : s.status.busy = false) :
    step s = .next ((({ s with events := rest } : State).accept v).reply (.write .okay)) := by
  rw [step_cmdWrite hl he, cmdWrite_idle (s := { s with events := rest }) v hb]

/-! ### CTRL writes (10_state.md R30) -/

/-- ACK and CLRSTK act on different bits of STATUS, so a write applies both together. -/
theorem ctrlWrite_control {s : State} {v : Word} (h : v.getLsbD 31 = false) :
    s.ctrlWrite v = { s with
      ie := v.getLsbD 0
      status := { s.status with done := s.status.done && !v.getLsbD 1,
                                ovr := s.status.ovr && !v.getLsbD 2,
                                haz := s.status.haz && !v.getLsbD 2 } } := by
  rw [State.ctrlWrite, h]
  cases v.getLsbD 1 <;> cases v.getLsbD 2 <;> simp [State.acknowledge, State.clearSticky]

theorem ctrlWrite_softReset {s : State} {v : Word} (h : v.getLsbD 31 = true) :
    s.ctrlWrite v = s.softReset := by rw [State.ctrlWrite, h, if_pos rfl]

theorem step_softReset {s : State} {v : Word} {rest : List Event} (hl : s.resetLine = false)
    (he : s.events = .write 0x018#22 4 v :: rest) (hv : v.getLsbD 31 = true) :
    step s = .next ((({ s with events := rest } : State).softReset).reply (.write .okay)) := by
  rw [step_ctrlWrite hl he, ctrlWrite_softReset hv]

/-- A soft reset puts every CSR at its reset value and keeps the RAMs of an idle engine
(70_reset_and_hazards.md R253). -/
theorem softReset_eq_resetCsrs (s : State) :
    s.softReset = { s.resetCsrs with mem := s.softReset.mem }
      ∧ (s.status.busy = false → s.softReset.mem = s.mem) := by
  rcases softReset_cases s with ⟨hb, hs⟩ | ⟨hb, hs⟩ <;> rw [hs]
  · exact ⟨rfl, fun hidle => absurd hb (by simp [hidle])⟩
  · exact ⟨rfl, fun _ => rfl⟩

/-! ### irq (10_state.md R41) -/

theorem irq_of_not_done {s : State} (h : s.status.done = false) : s.irq = false := by
  simp [State.irq, h]

theorem irq_of_done {s : State} (h : s.status.done = true) : s.irq = s.ie := by
  simp [State.irq, h]

/-- However a meaning ends, DONE is 1 and IE is kept (10_state.md R37). -/
theorem exec_done {i : Instr} {s t : State} (h : exec i s = .next t) :
    t.status.done = true ∧ t.ie = s.ie := by
  rcases exec_cases h with ⟨hst, _, hie, _⟩ | rfl | rfl
  · exact ⟨by rw [hst], hie⟩
  · exact ⟨rfl, rfl⟩
  · exact ⟨rfl, rfl⟩

/-- The engine's turn completes a pending command (10_state.md R37), with or without an error. -/
theorem engineTurn_done {s t : State} (hl : s.resetLine = false) (hb : s.status.busy = true)
    (h : engineTurn s = .next t) : t.status.done = true ∧ t.ie = s.ie := by
  have hf : s.fetch = some s.cmd := fetch_eq_some.mpr ⟨hl, hb, rfl⟩
  cases hd : decode s.cmd with
  | ok i =>
    rw [engineTurn_command hf hd] at h
    exact exec_done h
  | error e =>
    rw [engineTurn_illegal hf hd] at h
    cases h
    exact ⟨rfl, rfl⟩

theorem irq_after_completion {s t : State} (hn : s.engineNext) (hl : s.resetLine = false)
    (hb : s.status.busy = true) (h : step s = .next t) : t.irq = s.ie := by
  rw [step_of_engineNext hn] at h
  obtain ⟨hdone, hie⟩ := engineTurn_done (s := { s with events := s.events.tail }) hl hb h
  rw [irq_of_done hdone, hie]

theorem irq_after_acceptance {s t : State} {v : Word} {rest : List Event}
    (hl : s.resetLine = false) (he : s.events = .write 0x008#22 4 v :: rest)
    (hb : s.status.busy = false) (h : step s = .next t) : t.irq = false := by
  rw [step_cmdWrite_idle hl he hb] at h
  cases h
  exact irq_of_not_done rfl

/-- After a soft reset irq is low; after another CTRL write it is the new DONE AND the new IE. -/
theorem irq_after_ctrlWrite {s t : State} {v : Word} {rest : List Event}
    (hl : s.resetLine = false) (he : s.events = .write 0x018#22 4 v :: rest)
    (h : step s = .next t) :
    t.irq = (!v.getLsbD 31 && s.status.done && !v.getLsbD 1 && v.getLsbD 0) := by
  cases hsrst : v.getLsbD 31 with
  | false =>
    rw [step_ctrlWrite hl he, ctrlWrite_control hsrst] at h
    cases h
    simp [State.irq]
  | true =>
    rw [step_softReset hl he hsrst, (softReset_eq_resetCsrs _).1] at h
    cases h
    exact irq_of_not_done rfl

theorem irq_after_resetAsserted {s t : State} {rest : List Event}
    (he : s.events = .resetInput true :: rest) (h : step s = .next t) : t.irq = false := by
  rw [step_of_event he, serveEvent, State.driveReset, Bool.true_or, if_pos rfl] at h
  cases h
  exact irq_of_not_done rfl

/-! ### The statements -/

/-- Settles O33: a CMD write is `State.accept` or `State.overrun`, by BUSY. -/
theorem cmdWriteIssue : Obligations.CmdWriteIssue := by
  unfold Obligations.CmdWriteIssue
  intro s v rest hl he
  exact ⟨step_cmdWrite_busy hl he, step_cmdWrite_idle hl he⟩

/-- Settles O34: irq at each change of DONE or IE, one lemma per kind of step. -/
theorem irqLevel : Obligations.IrqLevel := by
  unfold Obligations.IrqLevel
  exact ⟨fun _ => rfl, fun _ _ => irq_after_completion, fun _ _ _ _ => irq_after_acceptance,
    fun _ _ _ _ => irq_after_ctrlWrite, fun _ _ _ => irq_after_resetAsserted,
    fun _ => irq_of_not_done rfl⟩

/-- Settles O35: bit 31 chooses between the soft reset, which reads no other bit, and the
control bits, which act together; a read is the one bit IE. -/
theorem ctrlWriteActions : Obligations.CtrlWriteActions := by
  unfold Obligations.CtrlWriteActions
  refine ⟨?control, ?softReset, ?read⟩
  case control =>
    intro s v rest hl he hv
    rw [step_ctrlWrite hl he, ctrlWrite_control hv]
    rfl
  case softReset =>
    rintro s u v x rest hl he hv hx rfl
    obtain ⟨hcsrs, hmem⟩ := softReset_eq_resetCsrs { s with events := rest }
    rw [step_softReset hl he hv]
    exact ⟨step_softReset (s := { s with events := .write 0x018#22 4 x :: rest }) hl rfl hx, _, rfl,
      congrArg (State.reply (.write .okay)) hcsrs, hmem⟩
  case read =>
    intro s j
    rw [csrRead_ctrl, Laws.getLsbD_placed]
    by_cases hj : j = 0
    · subst hj
      simp
    · rw [BitVec.getLsbD_of_ge _ _ (by omega)]
      simp [hj]

/-- Settles O47: each field of CONFIG holds its parameter unreduced, since the ranges of
00_scope.md R8 fit, and NMAX is all that CONFIG depends on. -/
theorem configWordLayout : Obligations.ConfigWordLayout := by
  unfold Obligations.ConfigWordLayout
  refine ⟨?fields, ?reference, ?constant⟩
  case fields =>
    intro n h1 h2
    obtain ⟨hw1, hw2⟩ := wprW_range h1 h2
    obtain ⟨hn1, hn2⟩ := wprN_range h1 h2
    rw [configWord_nmaxField, configWord_wprWField, configWord_wprNField,
      BitVec.toNat_ofNat, BitVec.toNat_ofNat, BitVec.toNat_ofNat, Nat.mod_eq_of_lt (by omega),
      Nat.mod_eq_of_lt (by omega), Nat.mod_eq_of_lt (by omega)]
    exact ⟨rfl, rfl, hw1, hw2, rfl, hn1, hn2, configWord_reservedField n⟩
  case reference => decide
  case constant =>
    intro s t h
    rw [csrRead_config, csrRead_config, step_nmax h]

/-- Settles O53: ID and VERSION are no part of the state, and every effect of a step keeps NMAX. -/
theorem constantsNeverChange : Obligations.ConstantsNeverChange := by
  unfold Obligations.ConstantsNeverChange
  exact ⟨fun s => ⟨csrRead_id s, csrRead_version s⟩, fun _ _ => step_nmax⟩

end Sys2Proof.Machine

/-! Proofs of the family 20_memory.md: the refused transactions. -/

namespace Sys2Proof.Machine

open Sys2Proof

/-! ### The region of an offset by the ranges of 20_memory.md R62 -/

theorem regionOf_eq_csr {nmax a : Nat} : regionOf nmax a = .csr ↔ a < 0x100 := by
  constructor
  · intro h
    unfold regionOf at h
    split at h
    · assumption
    · split at h
      · cases h
      · split at h <;> cases h
  · exact regionOf_csr

theorem regionOf_eq_wWindow_iff_inWWindow {nmax a : Nat} :
    regionOf nmax a = .wWindow ↔ inWWindow nmax a := regionOf_eq_wWindow

/-- For every NMAX, also one whose W window would run into NV's. -/
theorem inNvWindow_of_regionOf {nmax a : Nat} (h : regionOf nmax a = .nvWindow) :
    inNvWindow nmax a := by
  unfold regionOf at h
  split at h
  · cases h
  · split at h
    · cases h
    · split at h
      · assumption
      · cases h

/-! ### Refused by the region (20_memory.md R68, R69) -/

/-- A Read of an offset in none of the three mapped ranges. -/
theorem serveRead_unmapped {s : State} {a : Nat} (ha : 0x100 ≤ a) (hw : ¬ inWWindow s.nmax a)
    (hn : ¬ inNvWindow s.nmax a) : s.serveRead a = s.reply readError := by
  unfold State.serveRead
  cases hr : regionOf s.nmax a with
  | csr => exact absurd (regionOf_eq_csr.mp hr) (Nat.not_lt.mpr ha)
  | wWindow => exact absurd (regionOf_eq_wWindow_iff_inWWindow.mp hr) hw
  | nvWindow => exact absurd (inNvWindow_of_regionOf hr) hn
  | unmapped => rfl

/-- A Write outside the CSR page and W is refused in NV and in the unmapped ranges alike. -/
theorem serveWrite_refused {s : State} {a : Nat} {v : Word} (ha : 0x100 ≤ a)
    (hw : ¬ inWWindow s.nmax a) : s.serveWrite a v = s.reply writeError := by
  unfold State.serveWrite
  cases hr : regionOf s.nmax a with
  | csr => exact absurd (regionOf_eq_csr.mp hr) (Nat.not_lt.mpr ha)
  | wWindow => exact absurd (regionOf_eq_wWindow_iff_inWWindow.mp hr) hw
  | nvWindow => rfl
  | unmapped => rfl

/-! ### The refused transactions (20_memory.md R66 to R69) -/

theorem badAccess_iff {a : Offset} {size : Nat} :
    badAccess a size = true ↔ size ≠ 4 ∨ a.toNat % 4 ≠ 0 := by
  simp [badAccess]

theorem busRead_refused {s : State} {a : Offset} {size : Nat} (hl : s.resetLine = false)
    (h : size ≠ 4 ∨ a.toNat % 4 ≠ 0
      ∨ (0x100 ≤ a.toNat ∧ ¬ inWWindow s.nmax a.toNat ∧ ¬ inNvWindow s.nmax a.toNat)) :
    s.busRead a size = s.reply readError := by
  rw [← or_assoc, ← badAccess_iff] at h
  rw [State.busRead, if_neg (by simp [hl])]
  rcases h with hbad | ⟨ha, hw, hn⟩
  · exact if_pos hbad
  · split
    · rfl
    · exact serveRead_unmapped ha hw hn

theorem busWrite_refused {s : State} {a : Offset} {size : Nat} {v : Word}
    (hl : s.resetLine = false)
    (h : size ≠ 4 ∨ a.toNat % 4 ≠ 0 ∨ (0x100 ≤ a.toNat ∧ ¬ inWWindow s.nmax a.toNat)) :
    s.busWrite a size v = s.reply writeError := by
  rw [← or_assoc, ← badAccess_iff] at h
  rw [State.busWrite, if_neg (by simp [hl])]
  rcases h with hbad | ⟨ha, hw⟩
  · exact if_pos hbad
  · split
    · rfl
    · exact serveWrite_refused ha hw

/-! ### The statement -/

/-- Settles O40: serving a refused transaction records its ERROR and nothing else. -/
theorem busRefusals : Obligations.BusRefusals := by
  unfold Obligations.BusRefusals
  intro s a size rest hl
  constructor
  · intro he h
    rw [step_of_event he, serveEvent, busRead_refused (s := { s with events := rest }) hl h]
    rfl
  · intro v he h
    rw [step_of_event he, serveEvent, busWrite_refused (s := { s with events := rest }) hl h]
    rfl

end Sys2Proof.Machine

/-! Proofs of the family 30_encoding.md: the immediates, the illegal words, the example words. -/

namespace Sys2Proof.Machine

open Sys2Proof

/-! ### The GF(2) value of an immediate (30_encoding.md R95) -/

/-- The sign of a two's-complement field has an even weight, so it leaves the remainder mod 2. -/
theorem toInt_emod_two {w : Nat} (hw : 0 < w) (x : BitVec w) : x.toInt % 2 = (x.toNat : Int) % 2 := by
  have heven : (2 : Int) ∣ ((2 ^ w : Nat) : Int) := by
    exact_mod_cast dvd_pow_self 2 (Nat.ne_of_gt hw)
  rw [BitVec.toInt_eq_toNat_cond]
  split
  · rfl
  · omega

/-- A signed field reduces to its lowest bit. -/
theorem gf2OfInt_toInt {w : Nat} (hw : 0 < w) (x : BitVec w) : gf2OfInt x.toInt = x.getLsbD 0 := by
  rw [gf2OfInt, toInt_emod_two hw, BitVec.getLsbD, Nat.testBit_zero]
  exact decide_eq_decide.mpr (by omega)

theorem gf2OfInt_fieldIa (w : Word) : gf2OfInt (fieldIa w).toInt = w.getLsbD 8 := by
  rw [gf2OfInt_toInt (by decide), fieldIa, BitVec.getLsbD_extractLsb']
  simp

theorem gf2OfInt_fieldIb (w : Word) : gf2OfInt (fieldIb w).toInt = w.getLsbD 0 := by
  rw [gf2OfInt_toInt (by decide), fieldIb, BitVec.getLsbD_extractLsb']
  simp

/-- Settles O4: the model's GF(2) value is the floored remainder by definition, and the remainder
of an 8-bit field is the field's lowest bit. -/
theorem immediatesReduceToBitZero : Obligations.ImmediatesReduceToBitZero := by
  unfold Obligations.ImmediatesReduceToBitZero
  exact fun w => ⟨rfl, gf2OfInt_fieldIa w, rfl, gf2OfInt_fieldIb w⟩

/-! ### The decoder by its formats (30_encoding.md R96) -/

/-- What the decoder can do with a word: the opcode selects a format M body, selects a format S
body, or is undefined. -/
theorem decode_format (w : Word) :
    ((fieldOpc w = 0x10#8 ∨ fieldOpc w = 0x11#8) ∧ ∃ mk, decode w = decodeMatrix mk w)
    ∨ ((0x20 ≤ (fieldOpc w).toNat ∧ (fieldOpc w).toNat ≤ 0x26)
        ∧ ∃ mk, decode w = decodeScalar mk w)
    ∨ ((fieldOpc w).toNat ∉ [0x10, 0x11, 0x20, 0x21, 0x22, 0x23, 0x24, 0x25, 0x26]
        ∧ decode w = .error (.unknownOpcode (fieldOpc w))) := by
  unfold decode
  by_cases helim : fieldOpc w = 0x10#8
  · rw [if_pos helim]
    exact .inl ⟨.inl helim, _, rfl⟩
  rw [if_neg helim]
  by_cases hinv : fieldOpc w = 0x11#8
  · rw [if_pos hinv]
    exact .inl ⟨.inr hinv, _, rfl⟩
  rw [if_neg hinv]
  by_cases hgadd : fieldOpc w = 0x20#8
  · rw [if_pos hgadd]
    exact .inr (.inl ⟨by simp [hgadd], _, rfl⟩)
  rw [if_neg hgadd]
  by_cases hgsub : fieldOpc w = 0x21#8
  · rw [if_pos hgsub]
    exact .inr (.inl ⟨by simp [hgsub], _, rfl⟩)
  rw [if_neg hgsub]
  by_cases hgmul : fieldOpc w = 0x22#8
  · rw [if_pos hgmul]
    exact .inr (.inl ⟨by simp [hgmul], _, rfl⟩)
  rw [if_neg hgmul]
  by_cases hgdiv : fieldOpc w = 0x23#8
  · rw [if_pos hgdiv]
    exact .inr (.inl ⟨by simp [hgdiv], _, rfl⟩)
  rw [if_neg hgdiv]
  by_cases hgceq : fieldOpc w = 0x24#8
  · rw [if_pos hgceq]
    exact .inr (.inl ⟨by simp [hgceq], _, rfl⟩)
  rw [if_neg hgceq]
  by_cases hgclt : fieldOpc w = 0x25#8
  · rw [if_pos hgclt]
    exact .inr (.inl ⟨by simp [hgclt], _, rfl⟩)
  rw [if_neg hgclt]
  by_cases hgcle : fieldOpc w = 0x26#8
  · rw [if_pos hgcle]
    exact .inr (.inl ⟨by simp [hgcle], _, rfl⟩)
  rw [if_neg hgcle]
  refine .inr (.inr ⟨?_, rfl⟩)
  simp_all [← BitVec.toNat_inj]

/-- Format M refuses nothing (30_encoding.md R93). -/
theorem decodeMatrix_ok (mk : Nat → Nat → Instr) (w : Word) : ∃ i, decodeMatrix mk w = .ok i :=
  ⟨_, rfl⟩

/-- Format S refuses exactly a nonzero RSV (30_encoding.md R94). -/
theorem decodeScalar_ok_iff {mk : Int → Int → Instr} {w : Word} :
    (∃ i, decodeScalar mk w = .ok i) ↔ fieldRsv w = 0#8 := by
  unfold decodeScalar
  split <;> simp_all

/-- The illegal words, read through the decoder's fields. -/
theorem illegalWord_iff {w : Word} :
    illegalWord w ↔
      (fieldOpc w).toNat ∉ [0x10, 0x11, 0x20, 0x21, 0x22, 0x23, 0x24, 0x25, 0x26]
        ∨ (0x20 ≤ (fieldOpc w).toNat ∧ (fieldOpc w).toNat ≤ 0x26 ∧ fieldRsv w ≠ 0#8) :=
  Iff.rfl

theorem decode_ok_iff {w : Word} : (∃ i, decode w = .ok i) ↔ ¬ illegalWord w := by
  rw [illegalWord_iff]
  rcases decode_format w with ⟨hopc, mk, hd⟩ | ⟨⟨hlo, hhi⟩, mk, hd⟩ | ⟨hopc, hd⟩
  · rw [hd]
    rcases hopc with h | h <;> simp [h, decodeMatrix_ok]
  · rw [hd, decodeScalar_ok_iff]
    have hmem : (fieldOpc w).toNat ∈ [0x10, 0x11, 0x20, 0x21, 0x22, 0x23, 0x24, 0x25, 0x26] := by
      simp only [List.mem_cons]
      omega
    simp [hmem, hlo, hhi]
  · simp [hd, hopc]

theorem decode_error_of_illegalWord {w : Word} (h : illegalWord w) : ∃ e, decode w = .error e := by
  cases hd : decode w with
  | ok i => exact absurd h (decode_ok_iff.mp ⟨i, hd⟩)
  | error e => exact ⟨e, rfl⟩

/-- Settles O5: the decoder's three outcomes are the rule's, and the engine's turn on a word that
does not decode raises ILLEGAL. -/
theorem illegalWordsComplete : Obligations.IllegalWordsComplete := by
  unfold Obligations.IllegalWordsComplete
  refine ⟨fun w => decode_ok_iff, fun s hn hl hb hw => ?_⟩
  obtain ⟨e, hd⟩ := decode_error_of_illegalWord hw
  have hf : ({ s with events := s.events.tail } : State).fetch = some s.cmd :=
    fetch_eq_some.mpr ⟨hl, hb, rfl⟩
  rw [step_of_engineNext hn, engineTurn_illegal hf hd]
  rfl

/-! ### The example words (30_encoding.md R102) -/

/-- Settles O3: each word of the table is decoded by evaluation. -/
theorem encodingExamples : Obligations.EncodingExamples := by
  unfold Obligations.EncodingExamples
  decide

end Sys2Proof.Machine

/-! Proofs of the family 40_gf2_scalar.md: the seven scalar commands. -/

namespace Sys2Proof.Machine

open Sys2Proof

/-! ### The decoder on a scalar opcode (30_encoding.md R94) -/

theorem decode_gadd {w : Word} (h : fieldOpc w = 0x20#8) : decode w = decodeScalar .gadd w := by
  simp [decode, h]
theorem decode_gsub {w : Word} (h : fieldOpc w = 0x21#8) : decode w = decodeScalar .gsub w := by
  simp [decode, h]
theorem decode_gmul {w : Word} (h : fieldOpc w = 0x22#8) : decode w = decodeScalar .gmul w := by
  simp [decode, h]
theorem decode_gdiv {w : Word} (h : fieldOpc w = 0x23#8) : decode w = decodeScalar .gdiv w := by
  simp [decode, h]
theorem decode_gceq {w : Word} (h : fieldOpc w = 0x24#8) : decode w = decodeScalar .gceq w := by
  simp [decode, h]
theorem decode_gclt {w : Word} (h : fieldOpc w = 0x25#8) : decode w = decodeScalar .gclt w := by
  simp [decode, h]
theorem decode_gcle {w : Word} (h : fieldOpc w = 0x26#8) : decode w = decodeScalar .gcle w := by
  simp [decode, h]

theorem decodeScalar_of_rsv_zero {mk : Int → Int → Instr} {w : Word} (h : fieldRsv w = 0#8) :
    decodeScalar mk w = .ok (mk (fieldIa w).toInt (fieldIb w).toInt) := if_pos h

/-! ### The whole next state of a scalar command (40_gf2_scalar.md R120) -/

theorem scalarResult_eq (s : State) (res : Bool) :
    s.scalarResult res = { s with sres := res, status := s.status.completed } := rfl

theorem raise_divzero_eq (s : State) :
    s.raise .divzero = { s with status := s.status.failed 3#4 } := rfl

theorem exec_gadd (ia ib : Int) (s : State) : exec (.gadd ia ib) s
    = .next (s.scalarResult (gf2Add (gf2OfInt ia) (gf2OfInt ib))) := rfl
theorem exec_gsub (ia ib : Int) (s : State) : exec (.gsub ia ib) s
    = .next (s.scalarResult (gf2Sub (gf2OfInt ia) (gf2OfInt ib))) := rfl
theorem exec_gmul (ia ib : Int) (s : State) : exec (.gmul ia ib) s
    = .next (s.scalarResult (gf2Mul (gf2OfInt ia) (gf2OfInt ib))) := rfl
theorem exec_gceq (ia ib : Int) (s : State) : exec (.gceq ia ib) s
    = .next (s.scalarResult (gf2Eq (gf2OfInt ia) (gf2OfInt ib))) := rfl
theorem exec_gclt (ia ib : Int) (s : State) : exec (.gclt ia ib) s
    = .next (s.scalarResult (gf2Lt (gf2OfInt ia) (gf2OfInt ib))) := rfl
theorem exec_gcle (ia ib : Int) (s : State) : exec (.gcle ia ib) s
    = .next (s.scalarResult (gf2Le (gf2OfInt ia) (gf2OfInt ib))) := rfl

/-- GDIV's two completions, told apart by the reduced divisor (40_gf2_scalar.md R125). -/
theorem exec_gdiv (ia ib : Int) (s : State) : exec (.gdiv ia ib) s
    = if gf2OfInt ib then .next (s.scalarResult (gf2OfInt ia)) else .next (s.raise .divzero) := by
  have harm : exec (.gdiv ia ib) s = execGdiv ia ib s := rfl
  rw [harm]
  rcases execGdiv_cases ia ib s with ⟨hb, he⟩ | ⟨hb, he⟩ <;> simp [hb, he]

/-! ### The field operations on reduced integers (40_gf2_scalar.md R121 to R129) -/

theorem gf2OfInt_of_odd {x : Int} (h : x % 2 = 1) : gf2OfInt x = true := decide_eq_true h

theorem gf2OfInt_of_even {x : Int} (h : x % 2 = 0) : gf2OfInt x = false := by
  simp [gf2OfInt, h]

/-- Reduction to GF(2) and back is the floored remainder. -/
theorem gf2ToInt_gf2OfInt (x : Int) : gf2ToInt (gf2OfInt x) = x % 2 := by
  rcases Int.emod_two_eq_zero_or_one x with h | h
  · simp [gf2OfInt_of_even h, gf2ToInt, h]
  · simp [gf2OfInt_of_odd h, gf2ToInt, h]

theorem gf2Add_gf2OfInt (x y : Int) :
    gf2Add (gf2OfInt x) (gf2OfInt y) = decide ((x + y) % 2 = 1) := by
  rw [gf2Add, gf2ToInt_gf2OfInt, gf2ToInt_gf2OfInt, gf2OfInt, ← Int.add_emod]

theorem gf2Sub_gf2OfInt (x y : Int) :
    gf2Sub (gf2OfInt x) (gf2OfInt y) = decide ((x - y) % 2 = 1) := by
  rw [gf2Sub, gf2ToInt_gf2OfInt, gf2ToInt_gf2OfInt, gf2OfInt, ← Int.sub_emod]

theorem gf2Mul_gf2OfInt (x y : Int) :
    gf2Mul (gf2OfInt x) (gf2OfInt y) = decide ((x * y) % 2 = 1) := by
  rw [gf2Mul, gf2ToInt_gf2OfInt, gf2ToInt_gf2OfInt, gf2OfInt, ← Int.mul_emod]

theorem gf2Eq_gf2OfInt (x y : Int) :
    gf2Eq (gf2OfInt x) (gf2OfInt y) = decide (x % 2 = y % 2) := by
  rw [gf2Eq, gf2ToInt_gf2OfInt, gf2ToInt_gf2OfInt]

theorem gf2Lt_gf2OfInt (x y : Int) :
    gf2Lt (gf2OfInt x) (gf2OfInt y) = decide (x % 2 < y % 2) := by
  rw [gf2Lt, gf2ToInt_gf2OfInt, gf2ToInt_gf2OfInt]

theorem gf2Le_gf2OfInt (x y : Int) :
    gf2Le (gf2OfInt x) (gf2OfInt y) = decide (x % 2 ≤ y % 2) := by
  rw [gf2Le, gf2ToInt_gf2OfInt, gf2ToInt_gf2OfInt]

/-! ### A command that always has a result -/

/-- The shape of the six statements with no error case. A command that is decoded from `opc` and
completes with the field operation `op` has that operation's result by its formula on bits,
`onBits`, at the bits 8 and 0 of the word, and by its formula on integers, `onInts`, at all
operands. -/
theorem scalarCommand_result {mk : Int → Int → Instr} {opc : BitVec 8}
    {op onBits : Bool → Bool → Bool} {onInts : Int → Int → Bool}
    (hdecode : ∀ {w : Word}, fieldOpc w = opc → decode w = decodeScalar mk w)
    (hexec : ∀ ia ib s, exec (mk ia ib) s
      = .next (s.scalarResult (op (gf2OfInt ia) (gf2OfInt ib))))
    (hbits : ∀ a b, op a b = onBits a b)
    (hints : ∀ x y, op (gf2OfInt x) (gf2OfInt y) = onInts x y) :
    (∀ w : Word, fieldOpc w = opc → fieldRsv w = 0#8 →
      decode w = .ok (mk (fieldIa w).toInt (fieldIb w).toInt)
        ∧ ∀ s : State, exec (mk (fieldIa w).toInt (fieldIb w).toInt) s
            = .next { s with sres := onBits (w.getLsbD 8) (w.getLsbD 0)
                             status := s.status.completed })
    ∧ ∀ (ia ib : Int) (s : State), exec (mk ia ib) s
        = .next { s with sres := onInts ia ib, status := s.status.completed } := by
  refine ⟨fun w hopc hrsv => ⟨?decoded, fun s => ?bits⟩, fun ia ib s => ?ints⟩
  case decoded => rw [hdecode hopc, decodeScalar_of_rsv_zero hrsv]
  case bits => rw [hexec, gf2OfInt_fieldIa, gf2OfInt_fieldIb, hbits, scalarResult_eq]
  case ints => rw [hexec, hints, scalarResult_eq]

/-! ### The statements -/

/-- Settles O10: the remainder of a sum is that of the remainders' sum, and on bits it is XOR. -/
theorem gaddResult : Obligations.GaddResult := by
  unfold Obligations.GaddResult
  exact scalarCommand_result decode_gadd exec_gadd gf2Add_eq_xor gf2Add_gf2OfInt

/-- Settles O11: floored, the remainder of a difference is that of the remainders'
difference, and on bits it is XOR. -/
theorem gsubResult : Obligations.GsubResult := by
  unfold Obligations.GsubResult
  exact scalarCommand_result decode_gsub exec_gsub gf2Sub_eq_xor gf2Sub_gf2OfInt

/-- Settles O12: the remainder of a product is that of the remainders' product. -/
theorem gmulResult : Obligations.GmulResult := by
  unfold Obligations.GmulResult
  exact scalarCommand_result decode_gmul exec_gmul gf2Mul_eq_and gf2Mul_gf2OfInt

/-- Settles O13: the parity of the divisor chooses between GDIV's two completions. -/
theorem gdivResult : Obligations.GdivResult := by
  unfold Obligations.GdivResult
  refine ⟨fun w hopc hrsv => ⟨?decoded, fun s => ?bits⟩, fun ia ib s => ⟨?odd, ?even⟩⟩
  case decoded => rw [decode_gdiv hopc, decodeScalar_of_rsv_zero hrsv]
  case bits =>
    rw [exec_gdiv, gf2OfInt_fieldIa, gf2OfInt_fieldIb, scalarResult_eq, raise_divzero_eq]
  case odd =>
    intro hb
    rw [exec_gdiv, if_pos (gf2OfInt_of_odd hb), scalarResult_eq, gf2OfInt]
  case even =>
    intro hb
    rw [exec_gdiv, if_neg (by simp [gf2OfInt_of_even hb]), raise_divzero_eq]

/-- Settles O14: the two remainders are compared, and on bits that is NOT XOR. -/
theorem gceqResult : Obligations.GceqResult := by
  unfold Obligations.GceqResult
  exact scalarCommand_result decode_gceq exec_gceq gf2Eq_eq gf2Eq_gf2OfInt

/-- Settles O15: the two remainders are compared, and only 0 < 1 holds. -/
theorem gcltResult : Obligations.GcltResult := by
  unfold Obligations.GcltResult
  exact scalarCommand_result decode_gclt exec_gclt gf2Lt_eq gf2Lt_gf2OfInt

/-- Settles O16: the two remainders are compared, and only 1 ≤ 0 fails. -/
theorem gcleResult : Obligations.GcleResult := by
  unfold Obligations.GcleResult
  exact scalarCommand_result decode_gcle exec_gcle gf2Le_eq gf2Le_gf2OfInt

end Sys2Proof.Machine

/-! Proofs of the family 41_elimination.md: the shapes of ELIM, the block it writes and the frame
around it, the unit columns of its result, and row equivalence. -/

namespace Sys2Proof.Machine

open Sys2Proof

/-! ### ELIM on a refused and on an accepted shape (41_elimination.md R151) -/

theorem elimShapeBad_iff {nmax m k : Nat} :
    elimShapeBad nmax m k = true ↔ m < 1 ∨ m > nmax ∨ k < 1 ∨ k > 2 * nmax ∨ m > k := by
  simp [elimShapeBad, or_assoc]

theorem exec_elim (m k : Nat) (s : State) : exec (.elim m k) s = execElim m k s := rfl

theorem raise_shape_eq (s : State) :
    s.raise .shape = { s with status := s.status.failed 2#4 } := rfl

theorem exec_elim_refused {s : State} {m k : Nat}
    (h : m < 1 ∨ m > s.nmax ∨ k < 1 ∨ k > 2 * s.nmax ∨ m > k) :
    exec (.elim m k) s = .next { s with status := s.status.failed 2#4 } := by
  have hbad := elimShapeBad_iff.mpr h
  rw [exec_elim]
  rcases execElim_cases m k s with ⟨_, he⟩ | ⟨hok, _, _⟩ | ⟨hok, _, _⟩
  · rw [he, raise_shape_eq]
  · rw [hbad] at hok; cases hok
  · rw [hbad] at hok; cases hok

/-- Whether the operand is written or not, an accepted shape completes without an error. -/
theorem exec_elim_accepted {s : State} {m k : Nat}
    (h : ¬ (m < 1 ∨ m > s.nmax ∨ k < 1 ∨ k > 2 * s.nmax ∨ m > k)) :
    ∃ t, exec (.elim m k) s = .next t ∧ t.status = s.status.completed := by
  rw [exec_elim]
  rcases execElim_cases m k s with ⟨hbad, _⟩ | ⟨_, _, he⟩ | ⟨_, _, he⟩
  · exact absurd (elimShapeBad_iff.mp hbad) h
  · exact ⟨_, he, rfl⟩
  · exact ⟨_, he, rfl⟩

/-! ### ELIM on a written operand (41_elimination.md R152, R158) -/

/-- The operands that the rules on the result of ELIM speak of: an accepted shape and a written
block of W. -/
structure ElimOperand (s : State) (m k : Nat) : Prop where
  nmax_le : s.nmax ≤ 2047
  rows_pos : 1 ≤ m
  rows_le : m ≤ s.nmax
  rows_le_cols : m ≤ k
  cols_le : k ≤ 2 * s.nmax
  written : s.wWritten m k

/-- The state in which ELIM leaves a written operand. -/
def elimResult (s : State) (m k : Nat) : State :=
  (s.storeW m (eliminate m (s.loadW m k)).1 (eliminate m (s.loadW m k)).2).complete

section WrittenOperand

variable {s : State} {m k : Nat}

theorem exec_elim_written (h : ElimOperand s m k) :
    exec (.elim m k) s = .next (elimResult s m k) := by
  have hok : ¬ (m < 1 ∨ m > s.nmax ∨ k < 1 ∨ k > 2 * s.nmax ∨ m > k) := by
    obtain ⟨_, hm, hmn, hmk, hk, _⟩ := h
    omega
  have hfoot := (footWritten_wFoot h.cols_le).mpr h.written
  rw [exec_elim]
  rcases execElim_cases m k s with ⟨hbad, _⟩ | ⟨_, _, he⟩ | ⟨_, hun, _⟩
  · exact absurd (elimShapeBad_iff.mp hbad) hok
  · exact he
  · rw [hfoot] at hun; cases hun

/-- The bits that ELIM leaves in its block of W, and its `nulldim`, are those of the loop. -/
theorem elimResult_run (h : ElimOperand s m k) :
    EliminationRun m 0 (s.wBlock m k) (eliminate m (s.loadW m k)).1.at
      (eliminate m (s.loadW m k)).2 := by
  rw [← at_loadW_eq_wBlock h.written]
  exact eliminate_run m _ (length_loadW s m k)

/-- NULLDIM holds `nulldim` unreduced: it is at most m, and m fits in 12 bits. -/
theorem elimResult_nulldim (h : ElimOperand s m k) :
    (elimResult s m k).nulldim.toNat = (eliminate m (s.loadW m k)).2 := by
  have hd := (elimResult_run h).le
  have hm := h.rows_le.trans h.nmax_le
  show (BitVec.ofNat 12 (eliminate m (s.loadW m k)).2).toNat = _
  rw [BitVec.toNat_ofNat, Nat.mod_eq_of_lt (by omega)]

/-- `W[r][c]` after ELIM. -/
theorem w_elimResult (h : ElimOperand s m k) {r c : Nat} (hc : c < 2 * s.nmax) :
    (elimResult s m k).w r c
      = if r < m ∧ c < k then some ((eliminate m (s.loadW m k)).1.at r c) else s.w r c :=
  w_storeW s (eliminate m (s.loadW m k)).1 m (eliminate m (s.loadW m k)).2 h.cols_le hc

theorem elimResult_wHolds (h : ElimOperand s m k) :
    (elimResult s m k).wHolds m k (eliminate m (s.loadW m k)).1.at := by
  intro r hr c hc
  rw [w_elimResult h (hc.trans_le h.cols_le), if_pos ⟨hr, hc⟩]

theorem w_elimResult_of_outside (h : ElimOperand s m k) {r c : Nat} (hc : c < 2 * s.nmax)
    (hout : m ≤ r ∨ k ≤ c) : (elimResult s m k).w r c = s.w r c := by
  rw [w_elimResult h hc, if_neg (by omega)]

theorem nv_elimResult (h : ElimOperand s m k) (r c : Nat) :
    (elimResult s m k).nv r c = s.nv r c :=
  bit_storeW_nv s (eliminate m (s.loadW m k)).1 m (eliminate m (s.loadW m k)).2 h.nmax_le h.rows_le
    h.cols_le (nvAddr_ge _ _ _)

theorem bit_elimResult_of_not_inFoot {a j : Nat} (hout : inFoot (wFoot s.nmax m k) a j = false) :
    (elimResult s m k).mem.bit a j = s.mem.bit a j := by
  show (s.mem.writeFoot _ _).bit a j = _
  rw [Memory.bit_writeFoot, if_neg (by simp [hout])]

/-- What the rules on the result of ELIM start from: a run of the loop whose result W and NULLDIM
hold. -/
theorem exec_elim_run (h : ElimOperand s m k) :
    ∃ (t : State) (B : Bits), exec (.elim m k) s = .next t
      ∧ EliminationRun m 0 (s.wBlock m k) B t.nulldim.toNat ∧ t.wHolds m k B := by
  refine ⟨_, _, exec_elim_written h, ?_, elimResult_wHolds h⟩
  rw [elimResult_nulldim h]
  exact elimResult_run h

end WrittenOperand

/-! ### The unit columns (41_elimination.md R159) -/

/-- Rows [0, m) x columns [0, n) are columns of the identity. -/
def UnitColumns (m n : Nat) (A : Bits) : Prop :=
  ∀ r, r < m → ∀ c, c < n → A r c = decide (r = c)

/-- Rows from n on are 0 in the n unit columns, so their exchange does not show there. -/
theorem unitColumns_exchanged {m n i p : Nat} {A : Bits} (h : UnitColumns m n A) (hi : i < m)
    (hp : p < m) (hni : n ≤ i) (hnp : n ≤ p) : UnitColumns m n (exchanged A i p) := by
  intro r hr c hc
  have hrow : ∀ j, j < m → n ≤ j → A j c = false := by
    intro j hj hnj
    rw [h j hj c hc, decide_eq_false_iff_not]
    omega
  unfold exchanged
  split
  · rw [hrow p hp hnp, eq_comm, decide_eq_false_iff_not]
    omega
  · split
    · rw [hrow i hi hni, eq_comm, decide_eq_false_iff_not]
      omega
    · exact h r hr c hc

/-- Clearing column i against a 1 at (i, i) makes it a unit column; row i is 0 in the columns
before it, so they stay. -/
theorem unitColumns_columnCleared {m i : Nat} {A : Bits} (h : UnitColumns m i A) (hi : i < m)
    (hpivot : A i i = true) : UnitColumns m (i + 1) (columnCleared A i) := by
  intro r hr c hc
  unfold columnCleared
  rcases Nat.lt_succ_iff_lt_or_eq.mp hc with hlt | rfl
  · have hzero : A i c = false := by
      rw [h i hi c hlt, decide_eq_false_iff_not]
      omega
    rw [hzero, Bool.and_false, Bool.xor_false, ite_self]
    exact h r hr c hlt
  · by_cases hrc : r = c
    · simp [hrc, hpivot]
    · simp [hrc, hpivot]

/-- Each column of the loop adds a unit column, and the loop stops at column m - d. -/
theorem EliminationRun.unitColumns {m i d : Nat} {A B : Bits} (h : EliminationRun m i A B d)
    (hA : UnitColumns m i A) : UnitColumns m (m - d) B := by
  induction h with
  | finished A => exact hA
  | stopped i A hi _ =>
    rwa [Nat.sub_sub_self hi.le]
  | column i p d A B hi hp _ ih =>
    obtain ⟨hip, hpm, hpivot, _⟩ := hp
    refine ih (unitColumns_columnCleared (unitColumns_exchanged hA hi hpm le_rfl hip) hi ?_)
    rw [exchanged, if_pos rfl]
    exact hpivot

/-! ### The block of W as a matrix over GF(2) -/

theorem wBlock_of_wHolds {t : State} {m k : Nat} {B : Bits} (h : t.wHolds m k B) {r c : Nat}
    (hr : r < m) (hc : c < k) : t.wBlock m k r c = B r c := by
  simp [State.wBlock, hr, hc, h r hr c hc]

theorem gf2Matrix_congr {m k : Nat} {A B : Bits} (h : ∀ r, r < m → ∀ c, c < k → A r c = B r c) :
    gf2Matrix m k A = gf2Matrix m k B := by
  ext r c
  simp [gf2Matrix, h r r.isLt c c.isLt]

theorem gf2Matrix_wBlock_of_wHolds {t : State} {m k : Nat} {B : Bits} (h : t.wHolds m k B) :
    gf2Matrix m k (t.wBlock m k) = gf2Matrix m k B :=
  gf2Matrix_congr fun _ hr _ hc => wBlock_of_wHolds h hr hc

theorem gf2Matrix_of_unitColumns {m : Nat} {A : Bits} (h : UnitColumns m m A) :
    gf2Matrix m m A = 1 := by
  ext r c
  simp [gf2Matrix, h r r.isLt c c.isLt, Matrix.one_apply, Fin.ext_iff]

/-! ### Row equivalence (41_elimination.md R160) -/

/-- `B = E * A` for an invertible m x m matrix E. -/
def RowEquivalent (m k : Nat) (A B : Bits) : Prop :=
  ∃ E : Matrix (Fin m) (Fin m) (ZMod 2), IsUnit E ∧ gf2Matrix m k B = E * gf2Matrix m k A

theorem RowEquivalent.refl (m k : Nat) (A : Bits) : RowEquivalent m k A A :=
  ⟨1, isUnit_one, (Matrix.one_mul _).symm⟩

theorem RowEquivalent.trans {m k : Nat} {A B C : Bits} (hAB : RowEquivalent m k A B)
    (hBC : RowEquivalent m k B C) : RowEquivalent m k A C := by
  obtain ⟨E, hE, hB⟩ := hAB
  obtain ⟨F, hF, hC⟩ := hBC
  exact ⟨F * E, hF.mul hE, by rw [hC, hB, Matrix.mul_assoc]⟩

/-- Steps 3 and 4 multiply by the matrix that swaps rows i and p. -/
theorem gf2Matrix_exchanged {m : Nat} (k : Nat) (A : Bits) (i p : Fin m) :
    gf2Matrix m k (exchanged A i p) = Matrix.swap (ZMod 2) i p * gf2Matrix m k A := by
  ext j c
  by_cases hji : j = i
  · subst hji
    rw [Matrix.swap_mul_apply_left]
    simp [gf2Matrix, exchanged]
  · by_cases hjp : j = p
    · subst hjp
      rw [Matrix.swap_mul_apply_right]
      simp [gf2Matrix, exchanged, Fin.val_ne_of_ne hji]
    · rw [Matrix.swap_mul_of_ne hji hjp]
      simp [gf2Matrix, exchanged, Fin.val_ne_of_ne hji, Fin.val_ne_of_ne hjp]

theorem rowEquivalent_exchanged {m : Nat} (k : Nat) (A : Bits) {i p : Nat} (hi : i < m)
    (hp : p < m) : RowEquivalent m k A (exchanged A i p) :=
  ⟨Matrix.swap (ZMod 2) ⟨i, hi⟩ ⟨p, hp⟩, IsUnit.of_mul_eq_one _ (Matrix.swap_mul_self _ _),
    gf2Matrix_exchanged k A ⟨i, hi⟩ ⟨p, hp⟩⟩

/-- Column i of A without its entry in row i. -/
def offPivotColumn (m : Nat) (A : Bits) (i : Fin m) : Fin m → ZMod 2 :=
  fun j => if j = i then 0 else gf2Matrix m m A j i

/-- The off-pivot entries of column i, placed in column i: what `clearingMatrix` adds to the
identity. -/
def clearingPart (m : Nat) (A : Bits) (i : Fin m) : Matrix (Fin m) (Fin m) (ZMod 2) :=
  Matrix.vecMulVec (offPivotColumn m A i) (Pi.single i 1)

/-- The matrix of step 5: it adds row i to every other row with a 1 in column i. -/
def clearingMatrix (m : Nat) (A : Bits) (i : Fin m) : Matrix (Fin m) (Fin m) (ZMod 2) :=
  1 + clearingPart m A i

/-- The product reads row i of the right factor alone, and that row is zero. -/
theorem clearingPart_mul_self {m : Nat} (A : Bits) (i : Fin m) :
    clearingPart m A i * clearingPart m A i = 0 := by
  rw [clearingPart, Matrix.vecMulVec_mul_vecMulVec]
  simp [offPivotColumn]

theorem isUnit_clearingMatrix {m : Nat} (A : Bits) (i : Fin m) : IsUnit (clearingMatrix m A i) :=
  IsNilpotent.isUnit_one_add ⟨2, by rw [pow_two, clearingPart_mul_self]⟩

/-- Addition and multiplication in GF(2) are XOR and AND on bits. -/
theorem gf2_xor_and (a f b : Bool) : (if (a ^^ (f && b)) = true then 1 else 0 : ZMod 2)
    = (if a = true then 1 else 0) + (if f = true then 1 else 0) * (if b = true then 1 else 0) := by
  revert a f b
  decide

/-- Step 5 multiplies by the clearing matrix of its operand. -/
theorem gf2Matrix_columnCleared {m : Nat} (k : Nat) (A : Bits) (i : Fin m) :
    gf2Matrix m k (columnCleared A i) = clearingMatrix m A i * gf2Matrix m k A := by
  rw [clearingMatrix, Matrix.add_mul, Matrix.one_mul, clearingPart, Matrix.vecMulVec_mul,
    Matrix.single_one_vecMul]
  ext j c
  rw [Matrix.add_apply, Matrix.vecMulVec_apply]
  by_cases hji : j = i
  · simp [gf2Matrix, columnCleared, offPivotColumn, hji]
  · simp only [gf2Matrix, columnCleared, offPivotColumn, hji, Fin.val_ne_of_ne hji, if_false]
    exact gf2_xor_and (A j c) (A j i) (A i c)

theorem rowEquivalent_columnCleared {m : Nat} (k : Nat) (A : Bits) {i : Nat} (hi : i < m) :
    RowEquivalent m k A (columnCleared A i) :=
  ⟨_, isUnit_clearingMatrix A ⟨i, hi⟩, gf2Matrix_columnCleared k A ⟨i, hi⟩⟩

/-- The loop composes the two steps. -/
theorem EliminationRun.rowEquivalent {m i d : Nat} {A B : Bits} (k : Nat)
    (h : EliminationRun m i A B d) : RowEquivalent m k A B := by
  induction h with
  | finished A => exact .refl m k A
  | stopped i A _ _ => exact .refl m k A
  | column i p d A B hi hp _ ih =>
    obtain ⟨_, hpm, _, _⟩ := hp
    exact ((rowEquivalent_exchanged k A hi hpm).trans (rowEquivalent_columnCleared k _ hi)).trans ih

/-- An invertible left factor only changes the coefficients of a combination of rows. -/
theorem span_row_mul_of_isUnit {m k : Nat} {E : Matrix (Fin m) (Fin m) (ZMod 2)} (hE : IsUnit E)
    (A : Matrix (Fin m) (Fin k) (ZMod 2)) :
    Submodule.span (ZMod 2) (Set.range (E * A).row) = Submodule.span (ZMod 2) (Set.range A.row) := by
  have hcomp : (E * A).vecMulLinear = A.vecMulLinear ∘ₗ E.vecMulLinear :=
    LinearMap.ext fun v => (Matrix.vecMul_vecMul v E A).symm
  have hsurj : LinearMap.range E.vecMulLinear = ⊤ :=
    LinearMap.range_eq_top.mpr (Matrix.vecMul_surjective_iff_isUnit.mpr hE)
  rw [← range_vecMulLinear, hcomp, LinearMap.range_comp_of_range_eq_top _ hsurj,
    range_vecMulLinear]

theorem RowEquivalent.span_eq {m k : Nat} {A B : Bits} (h : RowEquivalent m k A B) :
    Submodule.span (ZMod 2) (Set.range fun r : Fin m => gf2Matrix m k B r)
      = Submodule.span (ZMod 2) (Set.range fun r : Fin m => gf2Matrix m k A r) := by
  obtain ⟨E, hE, hB⟩ := h
  rw [hB]
  exact span_row_mul_of_isUnit hE (gf2Matrix m k A)

/-! ### The statements -/

/-- Settles O17: the shape check is the rule's disjunction, and both accepted cases complete. -/
theorem elimRefusesShapes : Obligations.ElimRefusesShapes := by
  unfold Obligations.ElimRefusesShapes
  exact fun _ _ _ => ⟨exec_elim_refused, exec_elim_accepted⟩

/-- Settles O18: the next state is `elimResult`, whose block is a run of the loop and whose only
write is the footprint of that block. -/
theorem elimRunsTheElimination : Obligations.ElimRunsTheElimination := by
  unfold Obligations.ElimRunsTheElimination
  refine ⟨fun s m k hn hm hmn hmk hk hw => ?_, fun _ _ _ => exec_elim_refused⟩
  have h : ElimOperand s m k := ⟨hn.2, hm, hmn, hmk, hk, hw⟩
  exact ⟨elimResult s m k, _, _, exec_elim_written h, elimResult_run h, (elimResult_run h).le,
    elimResult_nulldim h, elimResult_wHolds h, rfl, fun _ _ => w_elimResult_of_outside h,
    nv_elimResult h, fun _ _ => bit_elimResult_of_not_inFoot⟩

/-- Settles O20: every column of the loop leaves one more unit column. -/
theorem elimResultForm : Obligations.ElimResultForm := by
  unfold Obligations.ElimResultForm
  intro s m k hn hm hmn hmk hk hw
  obtain ⟨t, B, he, hrun, hB⟩ := exec_elim_run ⟨hn.2, hm, hmn, hmk, hk, hw⟩
  have hunit : UnitColumns m (m - t.nulldim.toNat) B :=
    hrun.unitColumns fun _ _ c hc => absurd hc (Nat.not_lt_zero c)
  refine ⟨t, he, hrun.le, fun r hr c hc => ?columns, fun hd => ?identity⟩
  case columns => rw [hB r hr c (by omega), hunit r hr c hc]
  case identity =>
    rw [hd, Nat.sub_zero] at hunit
    rw [gf2Matrix_wBlock_of_wHolds fun r hr c hc => hB r hr c (hc.trans_le hmk),
      gf2Matrix_of_unitColumns hunit]

/-- Settles O21: a swap matrix and a clearing matrix for each column of the loop, so their product
for the command, and an invertible factor keeps the span of the rows. -/
theorem elimRowEquivalence : Obligations.ElimRowEquivalence := by
  unfold Obligations.ElimRowEquivalence
  refine ⟨fun m k i p A hi hp => ⟨rowEquivalent_exchanged k A hi hp,
    rowEquivalent_columnCleared k A hi⟩, fun s m k hn hm hmn hmk hk hw => ?_⟩
  obtain ⟨t, B, he, hrun, hB⟩ := exec_elim_run ⟨hn.2, hm, hmn, hmk, hk, hw⟩
  have hrow : RowEquivalent m k (s.wBlock m k) B := hrun.rowEquivalent k
  refine ⟨t, he, ?_⟩
  rw [gf2Matrix_wBlock_of_wHolds hB]
  exact ⟨hrow, hrow.span_eq⟩

end Sys2Proof.Machine

/-! Proofs of the family 42_inversion.md: the shapes of INV, the two RAMs it writes and the frame
around them, and the blocks L and R of its result. -/

namespace Sys2Proof.Machine

open Sys2Proof

/-! ### INV on a refused and on an accepted shape (42_inversion.md R181) -/

theorem invShapeBad_iff {nmax m k : Nat} :
    invShapeBad nmax m k = true ↔ m ≠ k ∨ m < 1 ∨ m > nmax := by
  simp [invShapeBad, or_assoc]

theorem exec_inv (m k : Nat) (s : State) : exec (.inv m k) s = execInv m k s := rfl

theorem exec_inv_refused {s : State} {m k : Nat} (h : m ≠ k ∨ m < 1 ∨ m > s.nmax) :
    exec (.inv m k) s = .next { s with status := s.status.failed 2#4 } := by
  have hbad := invShapeBad_iff.mpr h
  rw [exec_inv]
  rcases execInv_cases m k s with ⟨_, he⟩ | ⟨hok, _, _⟩ | ⟨hok, _, _⟩
  · rw [he, raise_shape_eq]
  · rw [hbad] at hok; cases hok
  · rw [hbad] at hok; cases hok

/-- Whether the operand is written or not, an accepted shape completes without an error. -/
theorem exec_inv_accepted {s : State} {m k : Nat} (h : ¬ (m ≠ k ∨ m < 1 ∨ m > s.nmax)) :
    ∃ t, exec (.inv m k) s = .next t ∧ t.status = s.status.completed := by
  rw [exec_inv]
  rcases execInv_cases m k s with ⟨hbad, _⟩ | ⟨_, _, he⟩ | ⟨_, _, he⟩
  · exact absurd (invShapeBad_iff.mp hbad) h
  · exact ⟨_, he, rfl⟩
  · exact ⟨_, he, rfl⟩

/-! ### The null vectors (42_inversion.md R186) -/

/-- The bit the machine packs into NV is the null vector's in columns [0, n), and 0 beyond. -/
theorem nullVectorBit_eq {k : Nat} (M : BitMatrix k) (n d t r : Nat) :
    nullVectorBit M n d t r = (decide (r < n) && nullVectorOf M.at n d t r) := by
  unfold nullVectorBit nullVectorOf
  by_cases h : r < n - d
  · have hr : r < n := by omega
    simp [h, hr]
  · simp [h]

/-! ### INV on a written operand (42_inversion.md R182 to R187) -/

/-- The operands that the rules on the result of INV speak of: an accepted shape and a written
operand A in W. -/
structure InvOperand (s : State) (n : Nat) : Prop where
  nmax_le : s.nmax ≤ 2047
  size_pos : 1 ≤ n
  size_le : n ≤ s.nmax
  written : s.wWritten n n

/-- Steps 1 and 2 of INV: the elimination of `[A | I]`, with its `nulldim`. -/
def invElimination (s : State) (n : Nat) : BitMatrix (2 * n) × Nat :=
  eliminate n (augment (s.loadW n n))

/-- The state in which INV leaves a written operand. -/
def invResult (s : State) (n : Nat) : State :=
  ((s.storeW n (invElimination s n).1 (invElimination s n).2).storeNv
    (nullRows s.nmax (invElimination s n).1 n (invElimination s n).2)).complete

section WrittenOperand

variable {s : State} {n : Nat}

theorem exec_inv_written (h : InvOperand s n) : exec (.inv n n) s = .next (invResult s n) := by
  obtain ⟨_, hn, hle, hw⟩ := h
  have hok : ¬ (n ≠ n ∨ n < 1 ∨ n > s.nmax) := by omega
  have hfoot := (footWritten_wFoot (by omega)).mpr hw
  rw [exec_inv]
  rcases execInv_cases n n s with ⟨hbad, _⟩ | ⟨_, _, he⟩ | ⟨_, hun, _⟩
  · exact absurd (invShapeBad_iff.mp hbad) hok
  · exact he
  · rw [hfoot] at hun; cases hun

/-- The loop runs on the augmented bits of the operand. -/
theorem invElimination_run (h : InvOperand s n) :
    EliminationRun n 0 (augmentedBits n (s.wBlock n n)) (invElimination s n).1.at
      (invElimination s n).2 := by
  rw [← at_augment_loadW h.written]
  exact eliminate_run n _ ((length_augment _).trans (length_loadW s n n))

/-- NULLDIM holds `nulldim` unreduced: it is at most n, and n fits in 12 bits. -/
theorem invResult_nulldim (h : InvOperand s n) :
    (invResult s n).nulldim.toNat = (invElimination s n).2 := by
  have hd := (invElimination_run h).le
  have hn := h.size_le.trans h.nmax_le
  show (BitVec.ofNat 12 (invElimination s n).2).toNat = _
  rw [BitVec.toNat_ofNat, Nat.mod_eq_of_lt (by omega)]

/-- `W[r][c]` after INV: the null vectors go to NV and leave it as step 2 stored it. -/
theorem w_invResult (h : InvOperand s n) {r c : Nat} (hr : r < s.nmax) (hc : c < 2 * s.nmax) :
    (invResult s n).w r c
      = if r < n ∧ c < 2 * n then some ((invElimination s n).1.at r c) else s.w r c := by
  rw [← w_storeW s (invElimination s n).1 n (invElimination s n).2
    (Nat.mul_le_mul_left 2 h.size_le) hc]
  exact bit_storeNv_below _ _ (wAddr_lt_nvBase h.nmax_le hr hc)

theorem invResult_wHolds (h : InvOperand s n) :
    (invResult s n).wHolds n (2 * n) (invElimination s n).1.at := by
  intro r hr c hc
  have hle := h.size_le
  rw [w_invResult h (by omega) (by omega), if_pos ⟨hr, hc⟩]

theorem w_invResult_of_outside (h : InvOperand s n) {r c : Nat} (hr : r < s.nmax)
    (hc : c < 2 * s.nmax) (hout : n ≤ r ∨ 2 * n ≤ c) : (invResult s n).w r c = s.w r c := by
  rw [w_invResult h hr hc, if_neg (by omega)]

/-- `NV[v][c]` after INV. -/
theorem nv_invResult {v c : Nat} (hv : v < s.nmax) (hc : c < s.nmax) :
    (invResult s n).nv v c = some (decide (v < (invElimination s n).2) && decide (c < n)
      && nullVectorOf (invElimination s n).1.at n (invElimination s n).2 v c) := by
  rw [Bool.and_assoc, ← nullVectorBit_eq, ← at_nullRows s.nmax _ n _ hv hc]
  exact nv_storeNv (s.storeW n (invElimination s n).1 (invElimination s n).2) _ hv hc

theorem bit_invResult_of_not_inFoot {a j : Nat}
    (hw : inFoot (wFoot s.nmax n (2 * n)) a j = false)
    (hnv : inFoot (nvFoot s.nmax) a j = false) :
    (invResult s n).mem.bit a j = s.mem.bit a j := by
  show ((s.mem.writeFoot _ _).writeFoot (nvFoot s.nmax) _).bit a j = _
  rw [Memory.bit_writeFoot, if_neg (by simp [hnv]), Memory.bit_writeFoot, if_neg (by simp [hw])]

/-- What the rules on the blocks of W start from: a run of the loop whose result W and NULLDIM
hold. -/
theorem exec_inv_run (h : InvOperand s n) :
    ∃ (t : State) (B : Bits), exec (.inv n n) s = .next t
      ∧ EliminationRun n 0 (augmentedBits n (s.wBlock n n)) B t.nulldim.toNat
      ∧ t.wHolds n (2 * n) B := by
  refine ⟨_, _, exec_inv_written h, ?_, invResult_wHolds h⟩
  rw [invResult_nulldim h]
  exact invElimination_run h

end WrittenOperand

/-! ### Blocks of columns over GF(2) -/

/-- A factor on the left multiplies every block of columns alike. -/
theorem gf2Matrix_from_eq_mul {m k j l : Nat} {A B : Bits}
    {E : Matrix (Fin m) (Fin m) (ZMod 2)} (hjl : j + l ≤ k)
    (h : gf2Matrix m k B = E * gf2Matrix m k A) :
    gf2Matrix m l (B.from 0 j) = E * gf2Matrix m l (A.from 0 j) := by
  ext r c
  have hentry := congrFun₂ h r ⟨j + c, by omega⟩
  simpa [gf2Matrix, Bits.from, Matrix.mul_apply] using hentry

theorem gf2Matrix_from_zero {m k : Nat} (A : Bits) :
    gf2Matrix m k (A.from 0 0) = gf2Matrix m k A :=
  gf2Matrix_congr fun _ _ _ _ => by simp [Bits.from]

/-- The left block of `[A | I]`. -/
theorem gf2Matrix_augmentedBits_left {n : Nat} (A : Bits) :
    gf2Matrix n n (augmentedBits n A) = gf2Matrix n n A :=
  gf2Matrix_congr fun _ hr _ hc => by simp [augmentedBits, hr, hc]

/-- The right block of `[A | I]`. -/
theorem gf2Matrix_augmentedBits_right {n : Nat} (A : Bits) :
    gf2Matrix n n ((augmentedBits n A).from 0 n) = 1 := by
  refine gf2Matrix_of_unitColumns fun r hr c _ => ?_
  simp [augmentedBits, Bits.from, hr, eq_comm]

/-- The factor E that eliminates `[A | I]` stands in the right block, as E * I, so the left block
E * A is the product of the right block and A (42_inversion.md R189). -/
theorem RowEquivalent.augmented_blocks {n : Nat} {A B : Bits}
    (h : RowEquivalent n (2 * n) (augmentedBits n A) B) :
    IsUnit (gf2Matrix n n (B.from 0 n))
      ∧ gf2Matrix n n (B.from 0 n) * gf2Matrix n n A = gf2Matrix n n B := by
  obtain ⟨E, hE, hB⟩ := h
  have hright : gf2Matrix n n (B.from 0 n) = E := by
    rw [gf2Matrix_from_eq_mul (by omega) hB, gf2Matrix_augmentedBits_right, Matrix.mul_one]
  have hleft : gf2Matrix n n B = E * gf2Matrix n n A := by
    rw [← gf2Matrix_from_zero B, gf2Matrix_from_eq_mul (by omega) hB, gf2Matrix_from_zero,
      gf2Matrix_augmentedBits_left]
  rw [hright]
  exact ⟨hE, hleft.symm⟩

/-! ### The left block by `nulldim` (41_elimination.md R153, R159) -/

/-- The columns before the one where the loop stopped. -/
theorem EliminationRun.unitColumns_result {m d : Nat} {A B : Bits}
    (h : EliminationRun m 0 A B d) : UnitColumns m (m - d) B :=
  h.unitColumns fun _ _ c hc => absurd hc (Nat.not_lt_zero c)

/-- No row from m - d on has a 1 in the column where the loop stopped. -/
theorem EliminationRun.stopColumn_zero {m i d : Nat} {A B : Bits} (h : EliminationRun m i A B d)
    (hd : 0 < d) {r : Nat} (hle : m - d ≤ r) (hr : r < m) : B r (m - d) = false := by
  induction h with
  | finished A => exact absurd hd (Nat.lt_irrefl 0)
  | stopped i A hi hz =>
    rw [Nat.sub_sub_self hi.le] at hle ⊢
    exact hz r hle hr
  | column i p d A B hi hp _ ih => exact ih hd hle

/-- The rows from m - d on are 0 in the unit columns and in the column where the loop stopped. -/
theorem EliminationRun.stopRows_zero {m d : Nat} {A B : Bits} (h : EliminationRun m 0 A B d)
    (hd : 0 < d) {r c : Nat} (hle : m - d ≤ r) (hr : r < m) (hc : c ≤ m - d) : B r c = false := by
  rcases Nat.lt_or_eq_of_le hc with hlt | rfl
  · rw [h.unitColumns_result r hr c hlt, decide_eq_false (by omega)]
  · exact h.stopColumn_zero hd hle hr

/-- L maps its column s to itself: the columns before s are unit columns, and the others meet only
entries 0 of column s. -/
theorem mulVec_stopColumn {n : Nat} {s : Fin n} {L : Bits} (hunit : UnitColumns n s L)
    (hzero : ∀ r, s ≤ r → r < n → L r s = false) :
    (gf2Matrix n n L).mulVec ((gf2Matrix n n L).col s) = (gf2Matrix n n L).col s := by
  conv_rhs => rw [← Matrix.one_mulVec ((gf2Matrix n n L).col s)]
  ext r
  simp only [Matrix.mulVec, dotProduct]
  refine Finset.sum_congr rfl fun c _ => ?_
  rcases Nat.lt_or_ge c s with hc | hc
  · simp [gf2Matrix, hunit r r.isLt c hc, Matrix.one_apply, Fin.ext_iff]
  · simp [gf2Matrix, hzero c hc c.isLt]

/-- L maps the unit vector of s to column s as well, so an invertible L would have that unit
vector as its column s, whose entry at s is 0. -/
theorem not_isUnit_of_stopColumn {n : Nat} {s : Fin n} {L : Bits} (hunit : UnitColumns n s L)
    (hzero : ∀ r, s ≤ r → r < n → L r s = false) : ¬ IsUnit (gf2Matrix n n L) := by
  intro hL
  have hsingle : (gf2Matrix n n L).col s = Pi.single s 1 :=
    Matrix.mulVec_injective_of_isUnit hL
      ((mulVec_stopColumn hunit hzero).trans (Matrix.mulVec_single_one _ s).symm)
  have hentry := congrFun hsingle s
  simp [gf2Matrix, hzero s le_rfl s.isLt] at hentry

/-- A loop that stopped before column m leaves a singular left block. -/
theorem EliminationRun.not_isUnit {m d : Nat} {A B : Bits} (h : EliminationRun m 0 A B d)
    (hd : 0 < d) : ¬ IsUnit (gf2Matrix m m B) := by
  have hle := h.le
  exact not_isUnit_of_stopColumn (s := ⟨m - d, by omega⟩) h.unitColumns_result
    fun _ hr hm => h.stopColumn_zero hd hr hm

/-! ### The statements -/

/-- Settles O24: the shape check is the rule's disjunction, and both accepted cases complete. -/
theorem invRefusesShapes : Obligations.InvRefusesShapes := by
  unfold Obligations.InvRefusesShapes
  exact fun _ _ _ => ⟨exec_inv_refused, exec_inv_accepted⟩

/-- Settles O25: the next state is `invResult`, whose block of W is a run of the loop on `[A | I]`
and whose writes are the footprints of that block and of NV. -/
theorem invRunsTheInversion : Obligations.InvRunsTheInversion := by
  unfold Obligations.InvRunsTheInversion
  intro s n hn hpos hle hw
  have h : InvOperand s n := ⟨hn.2, hpos, hle, hw⟩
  exact ⟨invResult s n, _, _, exec_inv_written h, invElimination_run h, (invElimination_run h).le,
    invResult_nulldim h, invResult_wHolds h, fun _ hv _ => nv_invResult hv, rfl,
    fun _ _ => w_invResult_of_outside h, fun _ _ => bit_invResult_of_not_inFoot⟩

/-- Settles O27: R is the factor that eliminates A to L; L is the identity when every column got
its pivot, and singular when the loop stopped at a column. -/
theorem invBlockProduct : Obligations.InvBlockProduct := by
  unfold Obligations.InvBlockProduct
  intro s n hn hpos hle hw
  obtain ⟨t, B, he, hrun, hB⟩ := exec_inv_run ⟨hn.2, hpos, hle, hw⟩
  have hL : gf2Matrix n n (t.wBlock n n) = gf2Matrix n n B :=
    gf2Matrix_wBlock_of_wHolds fun r hr c hc => hB r hr c (by omega)
  have hR : gf2Matrix n n ((t.wBlock n (2 * n)).from 0 n) = gf2Matrix n n (B.from 0 n) :=
    gf2Matrix_congr fun r hr c hc => wBlock_of_wHolds hB (by omega) (by omega)
  obtain ⟨hunitR, hproduct⟩ := (hrun.rowEquivalent (2 * n)).augmented_blocks
  refine ⟨t, he, ?_⟩
  rw [hL, hR]
  refine ⟨hproduct, hunitR, fun hzero => ?regular, fun hne => ?singular⟩
  case regular =>
    rw [hzero] at hrun
    have hone : gf2Matrix n n B = 1 := gf2Matrix_of_unitColumns hrun.unitColumns_result
    exact ⟨hone, mul_eq_one_comm.mp (hproduct.trans hone)⟩
  case singular =>
    have hd : 0 < t.nulldim.toNat := Nat.pos_of_ne_zero (BitVec.toNat_ne_iff_ne.mpr hne)
    have hsing := hrun.not_isUnit hd
    refine ⟨fun r hr hrn c hc => ?_, fun hA => hsing (hproduct ▸ hunitR.mul hA), hsing,
      fun hone => hsing (hone ▸ isUnit_one)⟩
    rw [hB r hrn c (by omega), hrun.stopRows_zero hd hr hrn hc]

end Sys2Proof.Machine

/-! Proofs of the family 60_exceptions.md: what a command that raises an error changes. -/

namespace Sys2Proof.Machine

open Sys2Proof

/-! ### An error is raised, and nothing else happens (60_exceptions.md R220) -/

theorem raise_eq_failed (s : State) (e : ErrorCode) :
    s.raise e = { s with status := s.status.failed e.code } := rfl

/-- A meaning that ends with ERR = 1 did not complete, since completion keeps ERR: it raised. -/
theorem exec_raises {i : Instr} {s t : State} (hs : s.status.err = false)
    (h : exec i s = .next t) (ht : t.status.err = true) :
    t = s.raise .shape ∨ t = s.raise .divzero := by
  rcases exec_cases h with ⟨hcompleted, _⟩ | hraised
  · have hkept : t.status.err = s.status.err := by rw [hcompleted]
    rw [hkept, hs] at ht
    cases ht
  · exact hraised

/-- The engine's turn can raise, beside the errors of the command, the one of an illegal word;
with nothing pending it raises none. -/
theorem engineTurn_raises {s t : State} (hs : s.status.err = false)
    (h : engineTurn s = .next t) (ht : t.status.err = true) : ∃ e, t = s.raise e := by
  cases hf : s.fetch with
  | none =>
    rw [engineTurn_idle hf] at h
    cases h
    rw [hs] at ht
    cases ht
  | some w =>
    cases hd : decode w with
    | ok i =>
      rw [engineTurn_command hf hd] at h
      rcases exec_raises hs h ht with hshape | hdivzero
      · exact ⟨.shape, hshape⟩
      · exact ⟨.divzero, hdivzero⟩
    | error _ =>
      rw [engineTurn_illegal hf hd] at h
      cases h
      exact ⟨.illegal, rfl⟩

/-! ### The codes (60_exceptions.md R210) -/

theorem ErrorCode.code_range (e : ErrorCode) : e.code = 1#4 ∨ e.code = 2#4 ∨ e.code = 3#4 := by
  cases e with
  | illegal => exact .inl rfl
  | shape => exact .inr (.inl rfl)
  | divzero => exact .inr (.inr rfl)

/-! ### The statement -/

/-- Settles O30: a meaning or an engine's turn that ends with ERR = 1 has raised, and `raise`
writes STATUS alone, with the code of the error. -/
theorem errorsChangeOnlyStatus : Obligations.ErrorsChangeOnlyStatus := by
  unfold Obligations.ErrorsChangeOnlyStatus
  refine ⟨fun i s t hs h ht => ?exec, fun s t hn hs h ht => ?step⟩
  case exec =>
    rcases exec_raises hs h ht with rfl | rfl
    · exact ⟨raise_eq_failed s .shape, .inl rfl⟩
    · exact ⟨raise_eq_failed s .divzero, .inr rfl⟩
  case step =>
    rw [step_of_engineNext hn] at h
    obtain ⟨e, rfl⟩ := engineTurn_raises (s := { s with events := s.events.tail }) hs h ht
    exact ⟨raise_eq_failed _ e, e.code_range⟩

end Sys2Proof.Machine

/-! Proofs of the family 30_encoding.md, the round trip of decoder and encoder (R98). -/

namespace Sys2Proof.Machine

open Sys2Proof

/-! ### The fields of an encoded word (30_encoding.md R93, R94) -/

theorem fieldRows_encodeMatrix (opc : BitVec 8) (rows cols : Nat) :
    fieldRows (encodeMatrix opc rows cols) = BitVec.ofNat 12 rows := by
  rw [fieldRows, encodeMatrix, BitVec.extractLsb'_or, BitVec.extractLsb'_or,
    extractLsb'_placed_disjoint _ (by decide), extractLsb'_placed_disjoint _ (by decide),
    extractLsb'_placed_self _ (by decide)]
  simp

theorem fieldCols_encodeMatrix (opc : BitVec 8) (rows cols : Nat) :
    fieldCols (encodeMatrix opc rows cols) = BitVec.ofNat 12 cols := by
  rw [fieldCols, encodeMatrix, BitVec.extractLsb'_or, BitVec.extractLsb'_or,
    extractLsb'_placed_disjoint opc (by decide), extractLsb'_placed_self _ (by decide),
    extractLsb'_placed_disjoint _ (by decide)]
  simp

/-- The fields of an encoded format S word, RSV first. -/
theorem scalarFields_encodeScalar (opc : BitVec 8) (ia ib : Int) :
    fieldRsv (encodeScalar opc ia ib) = 0#8
      ∧ fieldIa (encodeScalar opc ia ib) = BitVec.ofInt 8 ia
      ∧ fieldIb (encodeScalar opc ia ib) = BitVec.ofInt 8 ib := by
  simp [fieldRsv, fieldIa, fieldIb, encodeScalar, BitVec.extractLsb'_or,
    extractLsb'_placed_self, extractLsb'_placed_disjoint]

/-! ### Operands in range are held unreduced (30_encoding.md R99) -/

theorem toNat_of_countFits {n : Nat} (h : countFits n = true) : (BitVec.ofNat 12 n).toNat = n := by
  have hlt : n < 4096 := of_decide_eq_true h
  rw [BitVec.toNat_ofNat, Nat.mod_eq_of_lt hlt]

theorem immediateFits_iff {x : Int} : immediateFits x = true ↔ -128 ≤ x ∧ x ≤ 127 := by
  simp [immediateFits]

theorem toInt_of_immediateFits {x : Int} (h : immediateFits x = true) :
    (BitVec.ofInt 8 x).toInt = x := by
  obtain ⟨hlo, hhi⟩ := immediateFits_iff.mp h
  rw [BitVec.toInt_ofInt]
  exact Int.bmod_eq_of_le (by omega) (by omega)

theorem countFits_toNat (x : BitVec 12) : countFits x.toNat = true :=
  decide_eq_true x.isLt

theorem immediateFits_toInt (x : BitVec 8) : immediateFits x.toInt = true := by
  have hlo := x.le_toInt
  have hhi := x.toInt_lt
  exact immediateFits_iff.mpr ⟨by simpa using hlo, by norm_num at hhi; omega⟩

/-! ### From a command to its word and back -/

theorem decode_elim {w : Word} (h : fieldOpc w = 0x10#8) : decode w = decodeMatrix .elim w := by
  simp [decode, h]
theorem decode_inv {w : Word} (h : fieldOpc w = 0x11#8) : decode w = decodeMatrix .inv w := by
  simp [decode, h]

theorem decodeMatrix_encodeMatrix {rows cols : Nat} (mk : Nat → Nat → Instr) (opc : BitVec 8)
    (h : (countFits rows && countFits cols) = true) :
    decodeMatrix mk (encodeMatrix opc rows cols) = .ok (mk rows cols) := by
  obtain ⟨hrows, hcols⟩ := Bool.and_eq_true_iff.mp h
  rw [decodeMatrix, fieldRows_encodeMatrix, fieldCols_encodeMatrix, toNat_of_countFits hrows,
    toNat_of_countFits hcols]

theorem decodeScalar_encodeScalar {ia ib : Int} (mk : Int → Int → Instr) (opc : BitVec 8)
    (h : (immediateFits ia && immediateFits ib) = true) :
    decodeScalar mk (encodeScalar opc ia ib) = .ok (mk ia ib) := by
  obtain ⟨ha, hb⟩ := Bool.and_eq_true_iff.mp h
  obtain ⟨hrsv, hia, hib⟩ := scalarFields_encodeScalar opc ia ib
  rw [decodeScalar_of_rsv_zero hrsv, hia, hib, toInt_of_immediateFits ha,
    toInt_of_immediateFits hb]

/-- Settles O1: the opcode of the word selects the command's body, and each field holds its
operand unreduced. -/
theorem decodeOfEncode : Obligations.DecodeOfEncode := by
  unfold Obligations.DecodeOfEncode
  intro i hwf
  cases i with
  | elim m k =>
    exact (decode_elim (Laws.OpcodeKept.elim m k)).trans (decodeMatrix_encodeMatrix _ _ hwf)
  | inv m k =>
    exact (decode_inv (Laws.OpcodeKept.inv m k)).trans (decodeMatrix_encodeMatrix _ _ hwf)
  | gadd a b =>
    exact (decode_gadd (Laws.OpcodeKept.gadd a b)).trans (decodeScalar_encodeScalar _ _ hwf)
  | gsub a b =>
    exact (decode_gsub (Laws.OpcodeKept.gsub a b)).trans (decodeScalar_encodeScalar _ _ hwf)
  | gmul a b =>
    exact (decode_gmul (Laws.OpcodeKept.gmul a b)).trans (decodeScalar_encodeScalar _ _ hwf)
  | gdiv a b =>
    exact (decode_gdiv (Laws.OpcodeKept.gdiv a b)).trans (decodeScalar_encodeScalar _ _ hwf)
  | gceq a b =>
    exact (decode_gceq (Laws.OpcodeKept.gceq a b)).trans (decodeScalar_encodeScalar _ _ hwf)
  | gclt a b =>
    exact (decode_gclt (Laws.OpcodeKept.gclt a b)).trans (decodeScalar_encodeScalar _ _ hwf)
  | gcle a b =>
    exact (decode_gcle (Laws.OpcodeKept.gcle a b)).trans (decodeScalar_encodeScalar _ _ hwf)

/-! ### From a word to its command and back (30_encoding.md R98) -/

/-- A field taken out of a word and put back at its place keeps the word's bits in the field and
drops the others. -/
theorem getLsbD_placed_extractLsb' (w : Word) (lo len j : Nat) :
    (placed (w.extractLsb' lo len) lo).getLsbD j
      = (decide (lo ≤ j) && decide (j < lo + len) && w.getLsbD j) := by
  rw [Laws.getLsbD_placed, BitVec.getLsbD_extractLsb']
  by_cases hj : j < 32
  · by_cases hlo : lo ≤ j
    · rw [Nat.add_sub_cancel' hlo]
      simp [hj, hlo, Nat.sub_lt_iff_lt_add' hlo]
    · simp [hlo]
  · rw [BitVec.getLsbD_of_ge w j (by omega)]
    simp [hj]

/-- The three fields of format M cover the word. -/
theorem encodeMatrix_fields (w : Word) :
    encodeMatrix (fieldOpc w) (fieldRows w).toNat (fieldCols w).toNat = w := by
  rw [encodeMatrix, BitVec.ofNat_toNat, BitVec.ofNat_toNat, BitVec.setWidth_eq,
    BitVec.setWidth_eq, fieldOpc, fieldRows, fieldCols]
  apply BitVec.eq_of_getLsbD_eq
  intro j hj
  rw [BitVec.getLsbD_or, BitVec.getLsbD_or, getLsbD_placed_extractLsb',
    getLsbD_placed_extractLsb', getLsbD_placed_extractLsb']
  cases w.getLsbD j with
  | false => simp
  | true => simp; omega

/-- The four fields of format S cover the word, and RSV holds nothing. -/
theorem encodeScalar_fields {w : Word} (hrsv : fieldRsv w = 0#8) :
    encodeScalar (fieldOpc w) (fieldIa w).toInt (fieldIb w).toInt = w := by
  rw [encodeScalar, BitVec.ofInt_toInt, BitVec.ofInt_toInt, fieldOpc, fieldIa, fieldIb]
  apply BitVec.eq_of_getLsbD_eq
  intro j hj
  rw [BitVec.getLsbD_or, BitVec.getLsbD_or, getLsbD_placed_extractLsb',
    getLsbD_placed_extractLsb', getLsbD_placed_extractLsb']
  cases hb : w.getLsbD j with
  | false => simp
  | true =>
    have hout : ¬ (16 ≤ j ∧ j < 24) := by
      rintro ⟨hlo, hhi⟩
      have hzero : (fieldRsv w).getLsbD (j - 16) = false := by rw [hrsv, BitVec.getLsbD_zero]
      rw [fieldRsv, BitVec.getLsbD_extractLsb', Nat.add_sub_cancel' hlo, hb] at hzero
      simp at hzero
      omega
    simp
    omega

theorem encode_of_decodeMatrix {mk : Nat → Nat → Instr} {opc : BitVec 8} {w : Word} {i : Instr}
    (hwf : ∀ m k, (mk m k).wellFormed = (countFits m && countFits k))
    (henc : ∀ m k, encode (mk m k) = encodeMatrix opc m k) (hopc : fieldOpc w = opc)
    (h : decodeMatrix mk w = .ok i) : i.wellFormed = true ∧ encode i = w := by
  cases h
  rw [hwf, henc, ← hopc, encodeMatrix_fields]
  simp [countFits_toNat]

theorem encode_of_decodeScalar {mk : Int → Int → Instr} {opc : BitVec 8} {w : Word} {i : Instr}
    (hwf : ∀ a b, (mk a b).wellFormed = (immediateFits a && immediateFits b))
    (henc : ∀ a b, encode (mk a b) = encodeScalar opc a b) (hopc : fieldOpc w = opc)
    (h : decodeScalar mk w = .ok i) : i.wellFormed = true ∧ encode i = w := by
  have hrsv := decodeScalar_ok_iff.mp ⟨i, h⟩
  rw [decodeScalar_of_rsv_zero hrsv] at h
  cases h
  rw [hwf, henc, ← hopc, encodeScalar_fields hrsv]
  simp [immediateFits_toInt]

/-- Settles O2: the opcode fixes the constructor, the fields of its format cover the word, and
RSV, the one field that is no operand, is 0 in a legal word. -/
theorem encodeOfDecode : Obligations.EncodeOfDecode := by
  unfold Obligations.EncodeOfDecode
  intro w i h
  unfold decode at h
  split_ifs at h with helim hinv hgadd hgsub hgmul hgdiv hgceq hgclt hgcle
  · exact encode_of_decodeMatrix (fun _ _ => rfl) (fun _ _ => rfl) helim h
  · exact encode_of_decodeMatrix (fun _ _ => rfl) (fun _ _ => rfl) hinv h
  · exact encode_of_decodeScalar (fun _ _ => rfl) (fun _ _ => rfl) hgadd h
  · exact encode_of_decodeScalar (fun _ _ => rfl) (fun _ _ => rfl) hgsub h
  · exact encode_of_decodeScalar (fun _ _ => rfl) (fun _ _ => rfl) hgmul h
  · exact encode_of_decodeScalar (fun _ _ => rfl) (fun _ _ => rfl) hgdiv h
  · exact encode_of_decodeScalar (fun _ _ => rfl) (fun _ _ => rfl) hgceq h
  · exact encode_of_decodeScalar (fun _ _ => rfl) (fun _ _ => rfl) hgclt h
  · exact encode_of_decodeScalar (fun _ _ => rfl) (fun _ _ => rfl) hgcle h

end Sys2Proof.Machine

/-! What each command does to the memory and the registers, said once, and the invariant of every
step. -/

namespace Sys2Proof.Machine

open Sys2Proof

/-! ### The outcome of a command (10_state.md R42) -/

theorem Memory.writeFoot_append (m : Memory) (foot foot' : List Host.Cell) (f : Nat → Byte) :
    m.writeFoot (foot ++ foot') f = (m.writeFoot foot f).writeFoot foot' f := by
  simp [Memory.writeFoot]

/-- ELIM raises SHAPE, or its one write to the memory is its block of W. -/
theorem exec_elim_outcome {m k : Nat} {s t : State} (h : exec (.elim m k) s = .next t) :
    t = s.raise .shape
      ∨ (elimShapeBad s.nmax m k = false ∧ t.status = s.status.completed ∧ t.sres = s.sres
          ∧ ∃ f, t.mem = s.mem.writeFoot (wFoot s.nmax m k) f) := by
  rw [exec_elim] at h
  rcases execElim_cases m k s with ⟨_, he⟩ | ⟨hok, _, he⟩ | ⟨hok, _, he⟩ <;>
    rw [he] at h <;> cases h
  · exact .inl rfl
  · exact .inr ⟨hok, rfl, rfl, _, rfl⟩
  · exact .inr ⟨hok, rfl, rfl, _, rfl⟩

/-- INV raises SHAPE, or its writes to the memory are its block of W and all of NV. -/
theorem exec_inv_outcome {m k : Nat} {s t : State} (h : exec (.inv m k) s = .next t) :
    t = s.raise .shape
      ∨ (invShapeBad s.nmax m k = false ∧ t.status = s.status.completed ∧ t.sres = s.sres
          ∧ ∃ f g, t.mem
              = (s.mem.writeFoot (wFoot s.nmax m (2 * m)) f).writeFoot (nvFoot s.nmax) g) := by
  rw [exec_inv] at h
  rcases execInv_cases m k s with ⟨_, he⟩ | ⟨hok, _, he⟩ | ⟨hok, _, he⟩ <;>
    rw [he] at h <;> cases h
  · exact .inl rfl
  · exact .inr ⟨hok, rfl, rfl, _, _, rfl⟩
  · exact .inr ⟨hok, rfl, rfl, _, _, Memory.writeFoot_append _ _ _ _⟩

/-- A scalar command (30_encoding.md R96). -/
def IsScalar (i : Instr) : Prop := 0x20 ≤ (opcodeOf i).toNat

/-- A command is ELIM, INV or scalar. -/
theorem instr_cases (i : Instr) :
    (∃ m k, i = .elim m k) ∨ (∃ m k, i = .inv m k) ∨ IsScalar i := by
  cases i with
  | elim m k => exact .inl ⟨m, k, rfl⟩
  | inv m k => exact .inr (.inl ⟨m, k, rfl⟩)
  | gadd | gsub | gmul | gdiv | gceq | gclt | gcle =>
    exact .inr (.inr (by simp [IsScalar, opcodeOf]))

/-- A scalar command raises DIVZERO, or it writes SRES and completes. -/
theorem exec_scalar_outcome {i : Instr} {s t : State} (hi : IsScalar i)
    (h : exec i s = .next t) : t = s.raise .divzero ∨ ∃ res, t = s.scalarResult res := by
  cases i with
  | elim m k => simp [IsScalar, opcodeOf] at hi
  | inv m k => simp [IsScalar, opcodeOf] at hi
  | gdiv a b =>
    rw [exec_gdiv] at h
    split at h <;> cases h
    · exact .inr ⟨_, rfl⟩
    · exact .inl rfl
  | gadd | gsub | gmul | gceq | gclt | gcle => cases h; exact .inr ⟨_, rfl⟩

theorem exec_scalar_frame {i : Instr} {s t : State} (hi : IsScalar i) (h : exec i s = .next t) :
    t.mem = s.mem ∧ t.nulldim = s.nulldim := by
  rcases exec_scalar_outcome hi h with rfl | ⟨_, rfl⟩ <;> exact ⟨rfl, rfl⟩

/-! ### The memory keeps its canonical form on storage bits (20_memory.md R62, R72) -/

/-- The part of the invariant that speaks of the memory. -/
def Memory.Canonical (nmax : Nat) (m : Memory) : Prop := m.wf = true ∧ m.inStorage nmax = true

theorem Memory.Canonical.writeFoot {nmax : Nat} {m : Memory} (h : m.Canonical nmax)
    {foot : List Host.Cell} (f : Nat → Byte)
    (hfoot : ∀ a j, inFoot foot a j = true → (storageMask nmax a).getLsbD j = true) :
    (m.writeFoot foot f).Canonical nmax := by
  obtain ⟨hwf, hin⟩ := h
  exact ⟨Memory.wf_writeFoot hwf foot f, Memory.inStorage_writeFoot hwf hin hfoot⟩

theorem Memory.Canonical.forgetFoot {nmax : Nat} {m : Memory} (h : m.Canonical nmax)
    (foot : List Host.Cell) : (m.forgetFoot foot).Canonical nmax := by
  obtain ⟨hwf, hin⟩ := h
  exact ⟨Memory.wf_forgetFoot hwf foot, Memory.inStorage_forgetFoot foot hwf hin⟩

theorem Memory.canonical_blank (nmax : Nat) : Memory.blank.Canonical nmax :=
  ⟨Memory.wf_blank, rfl⟩

theorem elimShape_accepted {nmax m k : Nat} (h : elimShapeBad nmax m k = false) :
    m ≤ nmax ∧ k ≤ 2 * nmax := by
  have hok : ¬ (m < 1 ∨ m > nmax ∨ k < 1 ∨ k > 2 * nmax ∨ m > k) := by
    rw [← elimShapeBad_iff, h]
    exact Bool.false_ne_true
  omega

theorem invShape_accepted {nmax m k : Nat} (h : invShapeBad nmax m k = false) :
    m = k ∧ m ≤ nmax := by
  have hok : ¬ (m ≠ k ∨ m < 1 ∨ m > nmax) := by
    rw [← invShapeBad_iff, h]
    exact Bool.false_ne_true
  omega

theorem exec_canonical {i : Instr} {s t : State} (hn : s.nmax ≤ 2047)
    (hs : s.mem.Canonical s.nmax) (h : exec i s = .next t) : t.mem.Canonical s.nmax := by
  rcases instr_cases i with ⟨m, k, rfl⟩ | ⟨m, k, rfl⟩ | hi
  · rcases exec_elim_outcome h with rfl | ⟨hok, _, _, f, hmem⟩
    · exact hs
    · obtain ⟨hm, hk⟩ := elimShape_accepted hok
      rw [hmem]
      exact hs.writeFoot f fun _ _ => storageMask_of_wFoot hm hk
  · rcases exec_inv_outcome h with rfl | ⟨hok, _, _, f, g, hmem⟩
    · exact hs
    · obtain ⟨_, hm⟩ := invShape_accepted hok
      rw [hmem]
      exact (hs.writeFoot f fun _ _ => storageMask_of_wFoot hm (by omega)).writeFoot g
        fun _ _ => storageMask_of_nvFoot hn
  · rw [(exec_scalar_frame hi h).1]
    exact hs

/-! ### Completion keeps STATUS legal (10_state.md R27) -/

theorem Status.legal_reset : Status.reset.Legal := by decide

theorem Status.Legal.completed {st : Status} (h : st.Legal) : st.completed.Legal := by
  obtain ⟨_, herr, hcode⟩ := h
  exact ⟨fun hb => Bool.noConfusion hb, herr, hcode⟩

theorem Status.legal_failed (st : Status) (e : ErrorCode) : (st.failed e.code).Legal := by
  refine ⟨fun hb => Bool.noConfusion hb, ?_, ?_⟩
  · rcases e.code_range with h | h | h <;> simp [Status.failed, h]
  · rcases e.code_range with h | h | h <;> simp [Status.failed, h]

theorem exec_legal {i : Instr} {s t : State} (hs : s.status.Legal) (h : exec i s = .next t) :
    t.status.Legal := by
  rcases exec_cases h with ⟨hst, _⟩ | rfl | rfl
  · rw [hst]
    exact hs.completed
  · exact s.status.legal_failed .shape
  · exact s.status.legal_failed .divzero

/-! ### The statements -/

/-- Settles O51: at reset no RAM bit is marked and no bit of STATUS is set. -/
theorem resetHasInv : Obligations.ResetHasInv := by
  have hreset : ∀ n, 1 ≤ n → n ≤ 2047 → (State.resetFor n).Inv := fun n h1 h2 =>
    ⟨⟨h1, h2⟩, Status.legal_reset, Memory.wf_blank, rfl, fun h => Bool.noConfusion h⟩
  unfold Obligations.ResetHasInv
  exact ⟨hreset, hreset 32 (by decide) (by decide)⟩

/-- While reset is released the invariant asks nothing of the registers but a legal STATUS. -/
theorem inv_of_released {s : State} (hn : s.nmaxLegal) (hst : s.status.Legal)
    (hmem : s.mem.Canonical s.nmax) (hl : s.resetLine = false) : s.Inv := by
  obtain ⟨hwf, hin⟩ := hmem
  exact ⟨hn, hst, hwf, hin, fun h => by rw [hl] at h; cases h⟩

theorem StepEffect.inv {s t : State} (h : StepEffect s t) (hs : s.Inv) : t.Inv := by
  obtain ⟨hn, hst, hwf, hin, hreset⟩ := hs
  have hmem : s.mem.Canonical s.nmax := ⟨hwf, hin⟩
  have hlegal := hst
  obtain ⟨hbusy, herr, hcode⟩ := hst
  cases h with
  | quiet x d => exact ⟨hn, hlegal, hwf, hin, hreset⟩
  | hazard x d hl hb _ => exact inv_of_released hn ⟨hbusy, herr, hcode⟩ hmem hl
  | overrun x hl hb _ => exact inv_of_released hn ⟨hbusy, herr, hcode⟩ hmem hl
  | accepted v rest hl _ _ =>
    exact inv_of_released hn ⟨fun _ => ⟨rfl, rfl, rfl⟩, ⟨fun _ => rfl, fun _ => rfl⟩,
      Nat.zero_le 3⟩ hmem hl
  | command i _ _ hl _ _ hexec =>
    have hnmax : t.nmax = s.nmax := by simpa using exec_nmax hexec
    have hline : t.resetLine = false := by
      rcases exec_cases hexec with ⟨_, _, _, _, hline, _⟩ | rfl | rfl
      · rw [hline]; exact hl
      · exact hl
      · exact hl
    have hstatus := exec_legal (s := { s with events := s.events.tail }) hlegal hexec
    have hcells := exec_canonical (s := { s with events := s.events.tail }) hn.2 hmem hexec
    exact inv_of_released (by rw [State.nmaxLegal, hnmax]; exact hn) hstatus
      (by rw [hnmax]; exact hcells) hline
  | illegal e _ hl _ _ => exact inv_of_released hn (s.status.legal_failed .illegal) hmem hl
  | control v rest hl _ _ =>
    refine inv_of_released hn ⟨fun hb => ?_, herr, hcode⟩ hmem hl
    obtain ⟨hdone, herr0, hcode0⟩ := hbusy hb
    exact ⟨by simp [hdone], herr0, hcode0⟩
  | softReset v rest m hl _ _ hidle hbusy' =>
    refine inv_of_released hn Status.legal_reset ?_ hl
    cases hb : s.status.busy with
    | false => rw [hidle hb]; exact hmem
    | true => rw [hbusy' hb]; exact hmem.forgetFoot _
  | stored a v rest hl _ _ h4 hregion =>
    exact inv_of_released hn hlegal
      (hmem.writeFoot _ fun _ _ => storageMask_of_wWordFoot hregion h4) hl
  | hardwareReset level rest _ =>
    obtain ⟨hwf', hin'⟩ := Memory.canonical_blank s.nmax
    exact ⟨hn, Status.legal_reset, hwf', hin',
      fun _ => ⟨rfl, rfl, rfl, rfl, rfl, rfl⟩⟩

/-- Settles O52: each effect of a step keeps the memory canonical, since every footprint it
writes lies on storage bits, and leaves a legal STATUS. -/
theorem stepKeepsInv : Obligations.StepKeepsInv := by
  unfold Obligations.StepKeepsInv
  exact fun s t hs h => (step_cases h).inv hs

end Sys2Proof.Machine

/-! Rules of the whole machine: what a step runs, what completion leaves, the frame of every
command, and which steps change NULLDIM, SRES, NV and the sticky bits. -/

namespace Sys2Proof.Machine

open Sys2Proof

/-! ### What a step runs (20_memory.md R77, 10_state.md R37) -/

/-- Settles O6: on its turn the engine fetches CMD. -/
theorem stepRunsTheDecodedCommand : Obligations.StepRunsTheDecodedCommand := by
  unfold Obligations.StepRunsTheDecodedCommand
  intro s i hn hl hb hd
  rw [step_of_engineNext hn]
  exact engineTurn_command (s := { s with events := s.events.tail })
    (fetch_eq_some.mpr ⟨hl, hb, rfl⟩) hd

/-- Settles O7: serving an item is the bus operation, or the reset input's, of its kind. -/
theorem stepServesTheNextEvent : Obligations.StepServesTheNextEvent := by
  unfold Obligations.StepServesTheNextEvent
  exact fun s rest => ⟨fun _ _ he => step_of_event he, fun _ _ _ he => step_of_event he,
    fun _ he => step_of_event he⟩

/-- An idle engine, or one held in reset, keeps its state on its turn. -/
theorem step_idle {s : State} (hn : s.engineNext)
    (h : s.resetLine = true ∨ s.status.busy = false) :
    step s = .next { s with events := s.events.tail } := by
  rw [step_of_engineNext hn]
  exact engineTurn_idle (s := { s with events := s.events.tail }) (fetch_eq_none.mpr h)

/-- Settles O8: with reset asserted or BUSY = 0 there is no word to fetch. -/
theorem idleEngineDoesNothing : Obligations.IdleEngineDoesNothing := by
  unfold Obligations.IdleEngineDoesNothing
  exact fun _ => step_idle

theorem exec_total (i : Instr) (s : State) : ∃ t, exec i s = .next t := by
  cases i with
  | elim m k =>
    rw [exec_elim]
    rcases execElim_cases m k s with ⟨_, he⟩ | ⟨_, _, he⟩ | ⟨_, _, he⟩ <;> exact ⟨_, he⟩
  | inv m k =>
    rw [exec_inv]
    rcases execInv_cases m k s with ⟨_, he⟩ | ⟨_, _, he⟩ | ⟨_, _, he⟩ <;> exact ⟨_, he⟩
  | gdiv a b =>
    rw [exec_gdiv]
    split <;> exact ⟨_, rfl⟩
  | gadd | gsub | gmul | gceq | gclt | gcle => exact ⟨_, rfl⟩

theorem engineTurn_total (s : State) : ∃ t, engineTurn s = .next t := by
  cases hf : s.fetch with
  | none => exact ⟨s, engineTurn_idle hf⟩
  | some w =>
    cases hd : decode w with
    | ok i =>
      rw [engineTurn_command hf hd]
      exact exec_total i s
    | error e => exact ⟨_, engineTurn_illegal hf hd⟩

theorem step_total (s : State) : ∃ t, step s = .next t := by
  cases he : s.events with
  | nil =>
    rw [step_of_no_event he]
    exact engineTurn_total s
  | cons e rest =>
    rw [step_of_event he]
    cases e with
    | read | write | resetInput => exact ⟨_, rfl⟩
    | engine => exact engineTurn_total _

/-- Settles O9: every meaning, every event and the engine's turn answer a next state. -/
theorem everyStepHasANextState : Obligations.EveryStepHasANextState := by
  unfold Obligations.EveryStepHasANextState
  exact ⟨step_total, exec_total⟩

/-! ### Completion (10_state.md R37) -/

/-- How a command ends: completed, with CMD and CTRL kept, or with an error raised. -/
theorem exec_completion {i : Instr} {s t : State} (h : exec i s = .next t) :
    (t.status = s.status.completed ∧ t.cmd = s.cmd ∧ t.ie = s.ie) ∨ ∃ e, t = s.raise e := by
  rcases exec_cases h with ⟨hst, hcmd, hie, _⟩ | rfl | rfl
  · exact .inl ⟨hst, hcmd, hie⟩
  · exact .inr ⟨.shape, rfl⟩
  · exact .inr ⟨.divzero, rfl⟩

/-- How the engine's turn ends a pending word. -/
theorem engineTurn_completion {s t : State} (hl : s.resetLine = false)
    (hb : s.status.busy = true) (h : engineTurn s = .next t) :
    (t.status = s.status.completed ∧ t.cmd = s.cmd ∧ t.ie = s.ie) ∨ ∃ e, t = s.raise e := by
  have hf : s.fetch = some s.cmd := fetch_eq_some.mpr ⟨hl, hb, rfl⟩
  cases hd : decode s.cmd with
  | ok i =>
    rw [engineTurn_command hf hd] at h
    exact exec_completion h
  | error e =>
    rw [engineTurn_illegal hf hd] at h
    cases h
    exact .inr ⟨.illegal, rfl⟩

/-- Settles O32: the turn completes a legal command or raises one of the three errors. -/
theorem completionStatus : Obligations.CompletionStatus := by
  unfold Obligations.CompletionStatus
  intro s hn hl hb
  obtain ⟨t, h⟩ := step_total s
  refine ⟨t, h, ?_⟩
  rw [step_of_engineNext hn] at h
  rcases engineTurn_completion (s := { s with events := s.events.tail }) hl hb h with
    ⟨hst, hcmd, hie⟩ | ⟨e, rfl⟩
  · exact ⟨hcmd, hie, .inl hst⟩
  · exact ⟨rfl, rfl, .inr ⟨e, rfl⟩⟩

/-! ### The frame of every command (10_state.md R42) -/

/-- The registers that no command writes, and the sticky bits. -/
def SameControl (s t : State) : Prop :=
  t.cmd = s.cmd ∧ t.ie = s.ie ∧ t.nmax = s.nmax ∧ t.resetLine = s.resetLine
    ∧ t.events = s.events ∧ t.answer = s.answer
    ∧ t.status.ovr = s.status.ovr ∧ t.status.haz = s.status.haz

theorem exec_sameControl {i : Instr} {s t : State} (h : exec i s = .next t) :
    SameControl s t := by
  rcases exec_cases h with ⟨hst, hcmd, hie, hn, hl, he, ha⟩ | rfl | rfl
  · exact ⟨hcmd, hie, hn, hl, he, ha, by rw [hst], by rw [hst]⟩
  · exact ⟨rfl, rfl, rfl, rfl, rfl, rfl, rfl, rfl⟩
  · exact ⟨rfl, rfl, rfl, rfl, rfl, rfl, rfl, rfl⟩

/-- A bit outside a footprint keeps its value when the footprint is written. -/
theorem Memory.bit_writeFoot_of_not_inFoot {foot : List Host.Cell} {a j : Nat} (m : Memory)
    (f : Nat → Byte) (h : inFoot foot a j = false) : (m.writeFoot foot f).bit a j = m.bit a j := by
  rw [Memory.bit_writeFoot, if_neg (by simp [h])]

theorem inFoot_wFoot_of_outside {nmax m k r c : Nat} (hc : c < 2 * nmax) (hk : k ≤ 2 * nmax)
    (hout : m ≤ r ∨ k ≤ c) : inFoot (wFoot nmax m k) (wAddr nmax r c) (c % 8) = false := by
  rw [Bool.eq_false_iff, Ne, inFoot_wFoot_wAddr hc hk]
  omega

theorem exec_elim_frame {m k : Nat} {s t : State} (hn : s.nmax ≤ 2047)
    (h : exec (.elim m k) s = .next t) :
    t.sres = s.sres ∧ (∀ a j, nvBase ≤ a → t.mem.bit a j = s.mem.bit a j)
      ∧ ∀ r c, c < 2 * s.nmax → (m ≤ r ∨ k ≤ c) → t.w r c = s.w r c := by
  have hnmax := exec_nmax h
  rcases exec_elim_outcome h with rfl | ⟨hok, _, hsres, f, hmem⟩
  · exact ⟨rfl, fun _ _ _ => rfl, fun _ _ _ _ => rfl⟩
  obtain ⟨hm, hk⟩ := elimShape_accepted hok
  refine ⟨hsres, fun a j ha => ?nv, fun r c hc hout => ?w⟩
  case nv =>
    rw [hmem, Memory.bit_writeFoot_of_not_inFoot _ _ (inFoot_wFoot_nv hn hm hk ha)]
  case w =>
    rw [State.w, hmem, hnmax,
      Memory.bit_writeFoot_of_not_inFoot _ _ (inFoot_wFoot_of_outside hc hk hout), State.w]

theorem exec_inv_frame {m k : Nat} {s t : State} (hn : s.nmax ≤ 2047)
    (h : exec (.inv m k) s = .next t) :
    t.sres = s.sres ∧ ∀ r c, r < s.nmax → c < 2 * s.nmax → (m ≤ r ∨ 2 * m ≤ c) →
      t.w r c = s.w r c := by
  have hnmax := exec_nmax h
  rcases exec_inv_outcome h with rfl | ⟨hok, _, hsres, f, g, hmem⟩
  · exact ⟨rfl, fun _ _ _ _ _ => rfl⟩
  obtain ⟨_, hm⟩ := invShape_accepted hok
  refine ⟨hsres, fun r c hr hc hout => ?_⟩
  have hnv : inFoot (nvFoot s.nmax) (wAddr s.nmax r c) (c % 8) = false :=
    inFoot_nvFoot_below (wAddr_lt_nvBase hn hr hc)
  rw [State.w, hmem, hnmax, Memory.bit_writeFoot_of_not_inFoot _ _ hnv,
    Memory.bit_writeFoot_of_not_inFoot _ _ (inFoot_wFoot_of_outside hc (by omega) hout), State.w]

/-- Settles O31: the registers by the ways a meaning ends, the memory by the footprints of ELIM
and INV. -/
theorem whatEachCommandWrites : Obligations.WhatEachCommandWrites := by
  unfold Obligations.WhatEachCommandWrites
  intro i s t hn h
  have hcontrol := exec_sameControl h
  have hscalar := fun hi : IsScalar i => exec_scalar_frame hi h
  refine ⟨?_, hcontrol⟩
  cases i with
  | elim m k =>
    obtain ⟨hsres, hnv, hw⟩ := exec_elim_frame hn.2 h
    refine ⟨hsres, fun r c => ?_, hw⟩
    rw [State.nv, hnv _ _ (nvAddr_ge _ _ _), exec_nmax h, State.nv]
  | inv m k => exact exec_inv_frame hn.2 h
  | gadd | gsub | gmul | gdiv | gceq | gclt | gcle =>
    exact hscalar (by simp [IsScalar, opcodeOf])

/-! ### What each kind of step leaves alone -/

theorem not_engineNext_of_event {s : State} {e : Event} {rest : List Event}
    (he : s.events = e :: rest) (hne : e ≠ .engine) : ¬ s.engineNext := by
  rintro (h | h)
  · rw [he] at h; cases h
  · rw [he] at h; exact hne (Option.some.inj h)

/-- Settles O58: while BUSY = 1 the effects of a transaction that is no CTRL write are `quiet`,
`hazard` and `overrun`. -/
theorem busyHidesIntermediateState : Obligations.BusyHidesIntermediateState := by
  unfold Obligations.BusyHidesIntermediateState
  intro s t e rest hb he hkind h
  obtain rfl : s.events.tail = rest := by rw [he]; rfl
  have hengine : ¬ s.engineNext := by
    refine not_engineNext_of_event he ?_
    rcases hkind with ⟨a, z, rfl⟩ | ⟨a, z, v, rfl, _⟩ <;> simp
  have hctrl : ∀ v r, s.events ≠ .write 0x018#22 4 v :: r := by
    intro v r hv
    obtain rfl : e = .write 0x018#22 4 v := by rw [he] at hv; exact (List.cons.inj hv).1
    rcases hkind with ⟨a, z, hr⟩ | ⟨a, z, v', hw, ha⟩
    · cases hr
    · cases hw; exact ha rfl
  have hreset : ∀ l r, s.events ≠ .resetInput l :: r := by
    intro l r hl
    obtain rfl : e = .resetInput l := by rw [he] at hl; exact (List.cons.inj hl).1
    rcases hkind with ⟨a, z, hr⟩ | ⟨a, z, v', hw, _⟩
    · cases hr
    · cases hw
  cases step_cases h with
  | quiet | hazard | overrun => rfl
  | accepted _ _ _ _ hidle => rw [hb] at hidle; cases hidle
  | stored _ _ _ _ _ hidle => rw [hb] at hidle; cases hidle
  | command _ _ hn => exact absurd hn hengine
  | illegal _ hn => exact absurd hn hengine
  | control v r _ hv => exact absurd hv (hctrl v r)
  | softReset v r _ _ hv => exact absurd hv (hctrl v r)
  | hardwareReset l r hl => exact absurd hl (hreset l r)

theorem exec_sticky {i : Instr} {s t : State} (h : exec i s = .next t) :
    t.status.ovr = s.status.ovr ∧ t.status.haz = s.status.haz := by
  obtain ⟨_, _, _, _, _, _, hsticky⟩ := exec_sameControl h
  exact hsticky

/-- The effects that set a sticky bit are those of an impatient host. -/
theorem StepEffect.sticky_of_patient {s t : State} (h : StepEffect s t)
    (hp : s.hostPatient = true) :
    (t.status.ovr = true → s.status.ovr = true) ∧ (t.status.haz = true → s.status.haz = true) := by
  cases h with
  | quiet | accepted | illegal | stored => exact ⟨id, id⟩
  | hazard _ _ _ _ himp => rw [hp] at himp; cases himp
  | overrun _ _ _ himp => rw [hp] at himp; cases himp
  | command i _ _ _ _ _ hexec =>
    obtain ⟨hovr, hhaz⟩ := exec_sticky hexec
    rw [hovr, hhaz]
    exact ⟨id, id⟩
  | control =>
    exact ⟨fun ho => (Bool.and_eq_true_iff.mp ho).1, fun hz => (Bool.and_eq_true_iff.mp hz).1⟩
  | softReset | hardwareReset =>
    exact ⟨fun ho => Bool.noConfusion ho, fun hz => Bool.noConfusion hz⟩

/-- The effects that clear a sticky bit are those of CLRSTK and of the two resets. -/
theorem StepEffect.sticky_kept {s t : State} (h : StepEffect s t) :
    ((s.status.ovr = true → t.status.ovr = true) ∧ (s.status.haz = true → t.status.haz = true))
    ∨ (∃ v, s.events.head? = some (.write 0x018#22 4 v)
        ∧ (v.getLsbD 2 = true ∨ v.getLsbD 31 = true))
    ∨ ∃ level, s.events.head? = some (.resetInput level) := by
  cases h with
  | quiet | accepted | illegal | stored => exact .inl ⟨id, id⟩
  | hazard => exact .inl ⟨id, fun _ => rfl⟩
  | overrun => exact .inl ⟨fun _ => rfl, id⟩
  | command i _ _ _ _ _ hexec =>
    obtain ⟨hovr, hhaz⟩ := exec_sticky hexec
    rw [hovr, hhaz]
    exact .inl ⟨id, id⟩
  | control v rest _ he _ =>
    cases hclr : v.getLsbD 2 with
    | false => exact .inl (by simp)
    | true => exact .inr (.inl ⟨v, by rw [he]; rfl, .inl hclr⟩)
  | softReset v rest m _ he hv => exact .inr (.inl ⟨v, by rw [he]; rfl, .inr hv⟩)
  | hardwareReset level rest he => exact .inr (.inr ⟨level, by rw [he]; rfl⟩)

/-- Settles O57: by the effects that set a sticky bit and those that clear one. -/
theorem stickyBits : Obligations.StickyBits := by
  unfold Obligations.StickyBits
  refine ⟨fun s t hp h => (step_cases h).sticky_of_patient hp, fun s t h hcleared => ?_⟩
  rcases (step_cases h).sticky_kept with ⟨hovr, hhaz⟩ | hcause
  · rcases hcleared with ⟨h1, h0⟩ | ⟨h1, h0⟩
    · rw [hovr h1] at h0; cases h0
    · rw [hhaz h1] at h0; cases h0
  · exact hcause

/-! ### NULLDIM and SRES (10_state.md R28, R29) -/

/-- A soft reset or a change of the reset input is next. -/
def ResetNext (s : State) : Prop :=
  (∃ v, s.events.head? = some (.write 0x018#22 4 v) ∧ v.getLsbD 31 = true)
    ∨ ∃ level, s.events.head? = some (.resetInput level)

/-- A step that changes NULLDIM or SRES completes the pending command, or it is a reset and
leaves the registers at their reset values. -/
theorem StepEffect.result_cases {s t : State} (h : StepEffect s t) :
    (t.nulldim = s.nulldim ∧ t.sres = s.sres)
    ∨ (s.engineNext ∧ s.status.busy = true ∧ ∃ i, decode s.cmd = .ok i
        ∧ exec i { s with events := s.events.tail } = .next t)
    ∨ (ResetNext s ∧ t.nulldim = 0#12 ∧ t.sres = false ∧ t.status = Status.reset
        ∧ t.cmd = 0#32) := by
  cases h with
  | quiet | hazard | overrun | accepted | illegal | control | stored => exact .inl ⟨rfl, rfl⟩
  | command i t hn _ hb hd hexec => exact .inr (.inl ⟨hn, hb, i, hd, hexec⟩)
  | softReset v rest m _ he hv =>
    exact .inr (.inr ⟨.inl ⟨v, by rw [he]; rfl, hv⟩, rfl, rfl, rfl, rfl⟩)
  | hardwareReset level rest he =>
    exact .inr (.inr ⟨.inr ⟨level, by rw [he]; rfl⟩, rfl, rfl, rfl, rfl⟩)

theorem exec_changes_nulldim {i : Instr} {s t : State} (h : exec i s = .next t)
    (hne : t.nulldim ≠ s.nulldim) :
    t.status = s.status.completed ∧ ((∃ m k, i = .elim m k) ∨ ∃ m k, i = .inv m k) := by
  rcases instr_cases i with ⟨m, k, rfl⟩ | ⟨m, k, rfl⟩ | hi
  · rcases exec_elim_outcome h with rfl | ⟨_, hst, _⟩
    · exact absurd rfl hne
    · exact ⟨hst, .inl ⟨m, k, rfl⟩⟩
  · rcases exec_inv_outcome h with rfl | ⟨_, hst, _⟩
    · exact absurd rfl hne
    · exact ⟨hst, .inr ⟨m, k, rfl⟩⟩
  · exact absurd (exec_scalar_frame hi h).2 hne

theorem exec_changes_sres {i : Instr} {s t : State} (h : exec i s = .next t)
    (hne : t.sres ≠ s.sres) : t.status = s.status.completed ∧ IsScalar i := by
  rcases instr_cases i with ⟨m, k, rfl⟩ | ⟨m, k, rfl⟩ | hi
  · rcases exec_elim_outcome h with rfl | ⟨_, _, hsres, _⟩
    · exact absurd rfl hne
    · exact absurd hsres hne
  · rcases exec_inv_outcome h with rfl | ⟨_, _, hsres, _⟩
    · exact absurd rfl hne
    · exact absurd hsres hne
  · rcases exec_scalar_outcome hi h with rfl | ⟨res, rfl⟩
    · exact absurd rfl hne
    · exact ⟨rfl, hi⟩

/-- Settles O56: the completion that changes the register tells the command, and the only other
writers are the two resets. -/
theorem resultsChangeOnlyByTheirCommands : Obligations.ResultsChangeOnlyByTheirCommands := by
  unfold Obligations.ResultsChangeOnlyByTheirCommands
  intro s t h
  rcases (step_cases h).result_cases with
    ⟨hnulldim, hsres⟩ | ⟨hn, hb, i, hd, hexec⟩ | ⟨hreset, hnulldim, hsres, hst, hcmd⟩
  · exact ⟨fun hne => absurd hnulldim hne, fun hne => absurd hsres hne⟩
  · refine ⟨fun hne => .inl ?nulldim, fun hne => .inl ?sres⟩
    case nulldim =>
      obtain ⟨hst, ⟨m, k, rfl⟩ | ⟨m, k, rfl⟩⟩ := exec_changes_nulldim hexec hne
      · exact ⟨hn, hb, hst, m, k, .inl hd⟩
      · exact ⟨hn, hb, hst, m, k, .inr hd⟩
    case sres =>
      obtain ⟨hst, hi⟩ := exec_changes_sres hexec hne
      exact ⟨hn, hb, hst, i, hd, hi⟩
  · exact ⟨fun _ => .inr ⟨hreset, hnulldim, hst, hcmd⟩, fun _ => .inr ⟨hreset, hsres, hst, hcmd⟩⟩

/-! ### NV (10_state.md R34) -/

/-- No word of W reaches into the NV window. -/
theorem inFoot_wWordFoot_nv {nmax a b j : Nat} (hn : nmax ≤ 2047)
    (hregion : regionOf nmax a = .wWindow) (h4 : a % 4 = 0) (hb : nvBase ≤ b) :
    inFoot (wWordFoot nmax a) b j = false := by
  rw [Bool.eq_false_iff]
  intro hin
  obtain ⟨l, hl, rfl, _⟩ := inFoot_wWordFoot.mp hin
  obtain ⟨_, hlt⟩ := regionOf_eq_wWindow.mp (wByte_in_row hregion h4 hl).1
  have hsize := wBytes_le hn
  unfold wBase at hlt
  unfold nvBase at hb
  omega

/-- What an aborted word loses of NV: nothing, unless it is an INV. -/
theorem inFoot_abortFoot_nv {nmax a j : Nat} {w : Word} (hn : nmax ≤ 2047) (ha : nvBase ≤ a)
    (hinv : ∀ m k, decode w ≠ .ok (.inv m k)) : inFoot (abortFoot nmax w) a j = false := by
  unfold abortFoot
  split
  · exact inFoot_wFoot_nv hn (Nat.min_le_right _ _) (Nat.min_le_right _ _) ha
  · exact absurd ‹_› (hinv _ _)
  all_goals rfl

theorem exec_changes_nv {i : Instr} {s t : State} {a j : Nat} (hn : s.nmax ≤ 2047)
    (h : exec i s = .next t) (ha : nvBase ≤ a) (hne : t.mem.bit a j ≠ s.mem.bit a j) :
    ∃ n, i = .inv n n := by
  rcases instr_cases i with ⟨m, k, rfl⟩ | ⟨m, k, rfl⟩ | hi
  · obtain ⟨_, hkept, _⟩ := exec_elim_frame hn h
    exact absurd (hkept a j ha) hne
  · rcases exec_inv_outcome h with rfl | ⟨hok, _⟩
    · exact absurd rfl hne
    · obtain ⟨rfl, _⟩ := invShape_accepted hok
      exact ⟨m, rfl⟩
  · rw [(exec_scalar_frame hi h).1] at hne
    exact absurd rfl hne

/-- Settles O55: of the footprints that a step writes or unwrites, only those of an INV and the
whole memory of a hardware reset reach NV. -/
theorem nvChangesOnlyByInvOrReset : Obligations.NvChangesOnlyByInvOrReset := by
  unfold Obligations.NvChangesOnlyByInvOrReset
  rintro s t hn h ⟨a, j, ha, hne⟩
  cases step_cases h with
  | quiet | hazard | overrun | accepted | illegal | control => exact absurd rfl hne
  | command i _ hnext _ hb hd hexec =>
    obtain ⟨n, rfl⟩ := exec_changes_nv (s := { s with events := s.events.tail }) hn.2 hexec ha hne
    exact .inl ⟨hnext, hb, n, hd⟩
  | softReset v rest m _ he hv hidle hbusy =>
    refine .inr (.inl ⟨v, by rw [he]; rfl, hv, ?_⟩)
    cases hb : s.status.busy with
    | false => exact absurd (by rw [hidle hb]) hne
    | true =>
      refine ⟨rfl, ?_⟩
      by_contra hno
      have hinv : ∀ m k, decode s.cmd ≠ .ok (.inv m k) := fun m k hd => hno ⟨m, k, hd⟩
      refine hne ?_
      show m.bit a j = s.mem.bit a j
      rw [hbusy hb, Memory.bit_forgetFoot, inFoot_abortFoot_nv hn.2 ha hinv,
        if_neg Bool.false_ne_true]
  | stored b v rest _ _ _ h4 hregion =>
    exact absurd (Memory.bit_writeFoot_of_not_inFoot _ _
      (inFoot_wWordFoot_nv hn.2 hregion h4 ha)) hne
  | hardwareReset level rest he => exact .inr (.inr ⟨level, by rw [he]; rfl⟩)

/-! ### A pending command ends (70_reset_and_hazards.md R270) -/

/-- A step that leaves a command pending takes one item of the stream and keeps the level of the
reset input. -/
theorem StepEffect.busy_cases {s t : State} (h : StepEffect s t) :
    t.status.busy = false ∨ (t.resetLine = s.resetLine ∧ t.events = s.events.tail) := by
  cases h with
  | quiet | hazard | overrun => exact .inr ⟨rfl, rfl⟩
  | accepted _ _ _ he | control _ _ _ he | stored _ _ _ _ he => exact .inr ⟨rfl, by rw [he]; rfl⟩
  | command i _ _ _ _ _ hexec =>
    obtain ⟨_, _, _, hl, he, _⟩ := exec_sameControl hexec
    exact .inr ⟨hl, he⟩
  | illegal | softReset | hardwareReset => exact .inl rfl

/-- The engine's turn leaves BUSY = 0. -/
theorem step_ends_command {s : State} (hn : s.engineNext) (hl : s.resetLine = false)
    (hb : s.status.busy = true) : ∃ t, step s = .next t ∧ t.status.busy = false := by
  obtain ⟨t, h, _, _, hst | ⟨e, rfl⟩⟩ := completionStatus s hn hl hb
  · exact ⟨t, h, by rw [hst]; rfl⟩
  · exact ⟨_, h, rfl⟩

theorem run_succ (M : Host.Core) {s t : M.State} (n : Nat) (h : M.step s = .next t) :
    M.run (n + 1) s = M.run n t := by
  rw [Host.Core.run, h]

/-- Settles O54: by induction on the stream, each step takes one item or ends the command, and
an empty stream is the engine's turn. -/
theorem pendingCommandEnds : Obligations.PendingCommandEnds := by
  unfold Obligations.PendingCommandEnds
  intro s hb hl
  have hone : ∀ {s t : State}, step s = .next t → Host.Core.run Sys2Proof.core 1 s = .next t :=
    fun h => run_succ Sys2Proof.core 0 h
  induction hev : s.events generalizing s with
  | nil =>
    obtain ⟨t, h, hidle⟩ := step_ends_command (.inl hev) hl hb
    exact ⟨1, t, by simp, hone h, hidle⟩
  | cons e rest ih =>
    obtain ⟨t, h⟩ := step_total s
    by_cases hidle : t.status.busy = false
    · exact ⟨1, t, by simp, hone h, hidle⟩
    rcases (step_cases h).busy_cases with hidle' | ⟨hline, htail⟩
    · exact absurd hidle' hidle
    rw [hev, List.tail_cons] at htail
    obtain ⟨n, u, hn, hrun, hu⟩ := ih t (by simpa using hidle) (hline.trans hl) htail
    exact ⟨n + 1, u, by simpa using hn, (run_succ Sys2Proof.core n h).trans hrun, hu⟩

end Sys2Proof.Machine

/-! The two resets (70_reset_and_hazards.md R250 to R253), the CSR page (10_state.md R23 to R32)
and the places of W and NV (20_memory.md R60 to R64). -/

namespace Sys2Proof.Machine

open Sys2Proof

/-! ### Soft reset (70_reset_and_hazards.md R253) -/

theorem step_softReset_idle {s : State} {v : Word} {rest : List Event} (hl : s.resetLine = false)
    (he : s.events = .write 0x018#22 4 v :: rest) (hv : v.getLsbD 31 = true)
    (hb : s.status.busy = false) :
    step s = .next { s with events := rest, answer := .write .okay, cmd := 0#32,
                            status := Status.reset, nulldim := 0#12, sres := false,
                            ie := false } := by
  rw [step_softReset hl he hv]
  rcases softReset_cases { s with events := rest } with ⟨hb', _⟩ | ⟨_, hs⟩
  · rw [hb] at hb'; cases hb'
  · rw [hs]; rfl

theorem step_softReset_busy {s : State} {v : Word} {rest : List Event} (hl : s.resetLine = false)
    (he : s.events = .write 0x018#22 4 v :: rest) (hv : v.getLsbD 31 = true)
    (hb : s.status.busy = true) :
    step s = .next { s with events := rest, answer := .write .okay, cmd := 0#32,
                            status := Status.reset, nulldim := 0#12, sres := false, ie := false,
                            mem := s.mem.forgetFoot (abortFoot s.nmax s.cmd) } := by
  rw [step_softReset hl he hv]
  rcases softReset_cases { s with events := rest } with ⟨_, hs⟩ | ⟨hb', _⟩
  · rw [hs]; rfl
  · rw [hb] at hb'; cases hb'

theorem abortFoot_elim {nmax m k : Nat} {w : Word} (hd : decode w = .ok (.elim m k)) :
    abortFoot nmax w = wFoot nmax (min m nmax) (min k (2 * nmax)) := by
  rw [abortFoot, hd]

theorem abortFoot_inv {nmax m k : Nat} {w : Word} (hd : decode w = .ok (.inv m k)) :
    abortFoot nmax w = wFoot nmax (min m nmax) (min (2 * m) (2 * nmax)) ++ nvFoot nmax := by
  rw [abortFoot, hd]

/-- A scalar command or an illegal word has no footprint. -/
theorem abortFoot_of_not_matrix {nmax : Nat} {w : Word}
    (h : ∀ m k, decode w ≠ .ok (.elim m k) ∧ decode w ≠ .ok (.inv m k)) :
    abortFoot nmax w = [] := by
  unfold abortFoot
  split
  · exact absurd ‹_› (h _ _).1
  · exact absurd ‹_› (h _ _).2
  all_goals rfl

theorem Memory.bit_forgetFoot_of_not_inFoot {foot : List Host.Cell} {a j : Nat} (m : Memory)
    (h : inFoot foot a j = false) : (m.forgetFoot foot).bit a j = m.bit a j := by
  rw [Memory.bit_forgetFoot, if_neg (by simp [h])]

/-- `W[r][c]` when the rows [0, m) x columns [0, k), clipped to W, become unwritten; the clipping
does not show at a row of W, nor when m is no clipped count. -/
theorem bit_forgetFoot_wFoot (s : State) {m k r c : Nat} (hr : r < s.nmax ∨ m ≤ s.nmax)
    (hc : c < 2 * s.nmax) :
    (s.mem.forgetFoot (wFoot s.nmax (min m s.nmax) (min k (2 * s.nmax)))).bit
        (wAddr s.nmax r c) (c % 8)
      = if r < m ∧ c < k then none else s.w r c := by
  rw [Memory.bit_forgetFoot]
  refine if_congr ?_ rfl rfl
  rw [inFoot_wFoot_wAddr hc (Nat.min_le_right _ _)]
  omega

/-- An aborted ELIM loses its rows and columns of W, and no bit of NV. -/
theorem abort_elim {s : State} {m k : Nat} (hn : s.nmax ≤ 2047)
    (hd : decode s.cmd = .ok (.elim m k)) :
    (∀ r c, (r < s.nmax ∨ m ≤ s.nmax) → c < 2 * s.nmax →
        (s.mem.forgetFoot (abortFoot s.nmax s.cmd)).bit (wAddr s.nmax r c) (c % 8)
          = if r < m ∧ c < k then none else s.w r c)
      ∧ ∀ r c, (s.mem.forgetFoot (abortFoot s.nmax s.cmd)).bit (nvAddr s.nmax r c) (c % 8)
          = s.nv r c := by
  rw [abortFoot_elim hd]
  exact ⟨fun r c hr hc => bit_forgetFoot_wFoot s hr hc, fun r c =>
    Memory.bit_forgetFoot_of_not_inFoot _ (inFoot_wFoot_nv hn (Nat.min_le_right _ _)
      (Nat.min_le_right _ _) (nvAddr_ge _ _ _))⟩

theorem Memory.forgetFoot_append (m : Memory) (foot foot' : List Host.Cell) :
    m.forgetFoot (foot ++ foot') = (m.forgetFoot foot).forgetFoot foot' := by
  simp [Memory.forgetFoot]

/-- An aborted INV loses its rows and columns of W, and all of NV. -/
theorem abort_inv {s : State} {m k : Nat} (hn : s.nmax ≤ 2047)
    (hd : decode s.cmd = .ok (.inv m k)) :
    (∀ r c, r < s.nmax → c < 2 * s.nmax →
        (s.mem.forgetFoot (abortFoot s.nmax s.cmd)).bit (wAddr s.nmax r c) (c % 8)
          = if r < m ∧ c < 2 * m then none else s.w r c)
      ∧ ∀ r c, r < s.nmax → c < s.nmax →
        (s.mem.forgetFoot (abortFoot s.nmax s.cmd)).bit (nvAddr s.nmax r c) (c % 8) = none := by
  rw [abortFoot_inv hd, Memory.forgetFoot_append]
  refine ⟨fun r c hr hc => ?w, fun r c hr hc => ?nv⟩
  case w =>
    rw [Memory.bit_forgetFoot_of_not_inFoot _ (inFoot_nvFoot_below (wAddr_lt_nvBase hn hr hc)),
      bit_forgetFoot_wFoot s (.inl hr) hc]
  case nv => rw [Memory.bit_forgetFoot, if_pos ((inFoot_nvFoot_nvAddr hc).mpr hr)]

/-- Settles O36: an idle engine keeps its memory; a busy one unwrites the footprint of the pending
word, which is whole in W for an accepted shape. -/
theorem softReset : Obligations.SoftReset := by
  unfold Obligations.SoftReset
  intro s v rest hn hl he hv
  cases hb : s.status.busy with
  | false => exact ⟨_, step_softReset_idle hl he hv hb, rfl, fun _ => rfl, fun h => by cases h⟩
  | true =>
    refine ⟨_, step_softReset_busy hl he hv hb, rfl, fun h => (by cases h), fun _ =>
      ⟨fun m k hd hok => ?elim, fun n hd _ => abort_inv hn.2 hd, fun hnone => ?other⟩⟩
    case elim =>
      obtain ⟨hw, hnv⟩ := abort_elim hn.2 hd
      exact ⟨fun r c hc => hw r c (.inr (elimShape_accepted hok).1) hc, hnv⟩
    case other =>
      show s.mem.forgetFoot (abortFoot s.nmax s.cmd) = s.mem
      rw [abortFoot_of_not_matrix hnone]
      rfl

/-- Settles O37: the same footprints, clipped to W. -/
theorem softResetOfRefusedShape : Obligations.SoftResetOfRefusedShape := by
  unfold Obligations.SoftResetOfRefusedShape
  intro s v rest hn hl he hv hb
  refine ⟨_, step_softReset_busy hl he hv hb, fun m k hd => ?elim, fun m k hd => abort_inv hn.2 hd⟩
  obtain ⟨hw, hnv⟩ := abort_elim hn.2 hd
  exact ⟨fun r c hr hc => hw r c (.inl hr) hc, hnv⟩

/-! ### The reset input (70_reset_and_hazards.md R250) -/

theorem driveReset_active {s : State} {level : Bool} (h : level = true ∨ s.resetLine = true) :
    s.driveReset level = { s.hardwareReset with resetLine := level } :=
  if_pos (by simpa using h)

/-- While reset is asserted the bus answers a transaction without serving it. -/
theorem bus_notServed {s : State} (hl : s.resetLine = true) :
    (∀ a z, s.busRead a z = s.reply .notServed)
      ∧ ∀ a z v, s.busWrite a z v = s.reply .notServed :=
  ⟨fun _ _ => if_pos hl, fun _ _ _ => if_pos hl⟩

/-- Settles O38: both edges put the engine in the reset state, and while reset is asserted the
bus serves nothing and the engine has nothing to fetch. -/
theorem hardwareReset : Obligations.HardwareReset := by
  unfold Obligations.HardwareReset
  refine ⟨fun s level rest he h => ?edge, fun s e rest hl he hne => ?held⟩
  case edge =>
    refine ⟨_, step_of_event he, ?_⟩
    rw [driveReset_active (s := { s with events := rest }) h]
    exact ⟨⟨rfl, rfl, rfl, rfl, rfl, rfl⟩, rfl, rfl, rfl,
      fun r c => ⟨Memory.bit_blank _ _, Memory.bit_blank _ _⟩⟩
  case held =>
    obtain ⟨hread, hwrite⟩ := bus_notServed (s := { s with events := rest }) hl
    rw [step_of_event he]
    cases e with
    | read a z => exact ⟨_, congrArg Host.Outcome.next (hread a z), rfl⟩
    | write a z v => exact ⟨_, congrArg Host.Outcome.next (hwrite a z v), rfl⟩
    | resetInput level => exact absurd rfl (hne level)
    | engine => exact ⟨_, engineTurn_idle (fetch_eq_none.mpr (.inl hl)), rfl⟩

/-- Settles O39: each register by evaluation, each RAM bit as one of the blank memory. -/
theorem resetValues : Obligations.ResetValues := by
  unfold Obligations.ResetValues
  have hstatus : Status.reset.word = 0#32 := by decide
  exact ⟨fun n => ⟨rfl, rfl, hstatus, rfl, rfl, rfl, rfl, rfl, rfl, fun r c =>
    ⟨Memory.bit_blank _ _, Memory.bit_blank _ _⟩⟩, by decide⟩

/-! ### The CSR page (10_state.md R23 to R32) -/

/-- A served read of an aligned word is answered by its region. -/
theorem step_servedRead {s : State} {a : Offset} {rest : List Event} (hl : s.resetLine = false)
    (he : s.events = .read a 4 :: rest) (h4 : a.toNat % 4 = 0) :
    step s = .next (({ s with events := rest } : State).serveRead a.toNat) := by
  rw [step_of_event he]
  simp [serveEvent, State.busRead, hl, badAccess, h4]

/-- A served write of an aligned word. -/
theorem step_servedWrite {s : State} {a : Offset} {v : Word} {rest : List Event}
    (hl : s.resetLine = false) (he : s.events = .write a 4 v :: rest) (h4 : a.toNat % 4 = 0) :
    step s = .next (({ s with events := rest } : State).serveWrite a.toNat v) := by
  rw [step_of_event he]
  simp [serveEvent, State.busWrite, hl, badAccess, h4]

theorem serveRead_csr {s : State} {a : Nat} (ha : a < 0x100) :
    s.serveRead a = s.reply (.read .okay (s.csrRead a)) := by
  rw [State.serveRead, regionOf_csr ha]

/-- A field at bit 0 is the value of its word. -/
theorem toNat_placed_zero {w : Nat} (v : BitVec w) (hw : w ≤ 32) :
    (placed v 0).toNat = v.toNat := by
  rw [placed, BitVec.shiftLeft_zero, BitVec.toNat_setWidth_of_le hw]

theorem csrRead_reserved {s : State} {a : Nat} (ha : 0x020 ≤ a) : s.csrRead a = 0#32 := by
  unfold State.csrRead
  iterate 8 rw [if_neg (by omega)]

/-- Settles O45: the read answers `csrRead` of the offset. -/
theorem csrReads : Obligations.CsrReads := by
  unfold Obligations.CsrReads
  intro s a rest hl he ha h4
  refine ⟨s.csrRead a.toNat, ?_, ?_, ?_, ?_, ?_, ?_, ?_, ?_, ?_, csrRead_reserved⟩
  · rw [step_servedRead hl he h4, serveRead_csr ha]
    rfl
  · rintro rfl; rfl
  · rintro rfl; rfl
  · rintro rfl; rfl
  · rintro rfl; rfl
  · rintro rfl; exact toNat_placed_zero s.nulldim (by decide)
  · rintro rfl; exact (toNat_placed_zero _ (by decide)).trans (BitVec.toNat_ofBool _)
  · rintro rfl; exact (toNat_placed_zero _ (by decide)).trans (BitVec.toNat_ofBool _)
  · rintro rfl; rfl

/-- A flag is one bit of its word. -/
theorem getLsbD_placed_ofBool (b : Bool) {lo : Nat} (j : Nat) (hlo : lo < 32) :
    (placed (BitVec.ofBool b) lo).getLsbD j = (decide (j = lo) && b) := by
  rw [Laws.getLsbD_placed, BitVec.getLsbD_ofBool]
  by_cases hj : j = lo
  · simp [hj, hlo]
  · simp [hj]
    omega

/-- The bits of STATUS outside ERRCODE, by the places of the flags. -/
theorem getLsbD_statusWord (st : Status) {j : Nat} (hj : j < 8 ∨ 12 ≤ j) :
    st.word.getLsbD j = ((decide (j = 0) && st.busy) || (decide (j = 1) && st.done)
      || (decide (j = 2) && st.err) || (decide (j = 3) && st.ovr)
      || (decide (j = 4) && st.haz)) := by
  have hcode : (placed st.errcode 8).getLsbD j = false := by
    rw [Laws.getLsbD_placed]
    rcases hj with hlo | hhi
    · simp [Nat.not_le.mpr hlo]
    · rw [BitVec.getLsbD_of_ge _ _ (by omega), Bool.and_false]
  simp only [Status.word, BitVec.getLsbD_or, hcode, Bool.or_false]
  iterate 5 rw [getLsbD_placed_ofBool _ _ (by decide)]

/-- Settles O46: each flag is placed at its bit, and ERRCODE at bits 11 to 8. -/
theorem statusWordLayout : Obligations.StatusWordLayout := by
  unfold Obligations.StatusWordLayout
  intro st
  refine ⟨?_, ?_, ?_, ?_, ?_, ?errcode, fun j hj => ?reserved⟩
  case errcode =>
    simp [Status.word, BitVec.extractLsb'_or, extractLsb'_placed_self, extractLsb'_placed_disjoint]
  case reserved =>
    rw [getLsbD_statusWord st (by omega)]
    simp
    omega
  all_goals
    rw [getLsbD_statusWord st (by decide)]
    simp

theorem csrWrite_ignored {s : State} {a : Nat} {v : Word} (hcmd : a ≠ 0x008) (hctrl : a ≠ 0x018) :
    s.csrWrite a v = s := by
  rw [State.csrWrite, if_neg hcmd, if_neg hctrl]

/-- Settles O48: a CSR write at any other offset is ignored and answered OKAY. -/
theorem readOnlyWritesIgnored : Obligations.ReadOnlyWritesIgnored := by
  unfold Obligations.ReadOnlyWritesIgnored
  intro s a v rest hl he ha h4 hcmd hctrl
  have hne : ∀ n : Nat, n < 2 ^ 22 → a ≠ BitVec.ofNat 22 n → a.toNat ≠ n :=
    fun n hn hne h => hne (offset_eq h hn)
  rw [step_csrWrite hl he ha h4,
    csrWrite_ignored (hne 0x008 (by norm_num) hcmd) (hne 0x018 (by norm_num) hctrl)]
  rfl

/-! ### Places (20_memory.md R60 to R64) -/

/-- Settles O49: the base is the slot's first address, and offsets are distances from it. -/
theorem apertureSelection : Obligations.ApertureSelection := by
  unfold Obligations.ApertureSelection
  have hsize : Config.apertureBytes = 0x400000 := rfl
  refine ⟨Config.engineSlot * Config.apertureBytes, ?multiple, fun a => ?reached,
    fun addr h => ?outside⟩
  case multiple => rw [hsize, Nat.mul_mod_left]
  case reached =>
    have ha : a.toNat < Config.apertureBytes := a.isLt
    rw [apertureOffset, if_pos ⟨by omega, by omega⟩, Nat.add_sub_cancel_left, BitVec.ofNat_toNat,
      BitVec.setWidth_eq]
  case outside =>
    rw [apertureOffset, if_neg]
    rintro ⟨hlo, hhi⟩
    omega

/-- The word of `W[r][c]` and the byte in it (20_memory.md R63, R65). -/
theorem wAddr_eq_word (nmax r c : Nat) :
    wAddr nmax r c = wBase + 4 * (wprW nmax * r + c / 32) + c % 32 / 8 := by
  rw [wAddr, wStride, Nat.mul_assoc]
  omega

theorem nvAddr_eq_word (nmax r c : Nat) :
    nvAddr nmax r c = nvBase + 4 * (wprN nmax * r + c / 32) + c % 32 / 8 := by
  rw [nvAddr, nvStride, Nat.mul_assoc]
  omega

/-- Two bits of one place of a RAM with rows of `stride` bytes are one bit. -/
theorem place_unique {base stride r r' c c' : Nat} (hc : c < 8 * stride) (hc' : c' < 8 * stride)
    (ha : base + stride * r + c / 8 = base + stride * r' + c' / 8) (hj : c % 8 = c' % 8) :
    r = r' ∧ c = c' := by
  obtain ⟨hr, hb⟩ := row_byte_unique (stride := stride) (r := r) (r' := r') (b := c / 8)
    (b' := c' / 8) (by omega) (by omega) (by omega)
  exact ⟨hr, by omega⟩

/-- Settles O50: rows are whole words, so a place gives back its row and column; and the W window
ends below the NV window. -/
theorem storageBitsAreDistinct : Obligations.StorageBitsAreDistinct := by
  unfold Obligations.StorageBitsAreDistinct
  intro n _ hn
  have hw := two_nmax_le_wStride n
  have hnv := nmax_le_nvStride n
  refine ⟨fun r c => ?w, fun r c => ?nv,
    fun r r' c c' hc hc' ha hj => place_unique (by omega) (by omega) ha hj,
    fun r r' c c' hc hc' ha hj => place_unique (by omega) (by omega) ha hj,
    fun r r' c c' hr hc => Nat.ne_of_lt ((wAddr_lt_nvBase hn hr hc).trans_le (nvAddr_ge _ _ _))⟩
  case w => rw [wAddr_eq_word, Nat.mul_comm (wprW n)]; rfl
  case nv => rw [nvAddr_eq_word, Nat.mul_comm (wprN n)]; rfl

end Sys2Proof.Machine

/-! The windows of W and NV (20_memory.md R70 to R73, 70_reset_and_hazards.md R255). -/

namespace Sys2Proof.Machine

open Sys2Proof

/-! ### Accesses while BUSY = 1 (20_memory.md R73) -/

/-- For every NMAX, also one whose W window would run into NV's. -/
theorem regionOf_of_inNvWindow {nmax a : Nat} (h : inNvWindow nmax a) :
    regionOf nmax a = .wWindow ∨ regionOf nmax a = .nvWindow := by
  have hge : 0x200000 ≤ a := h.1
  unfold regionOf
  rw [if_neg (by omega)]
  split
  · exact .inl rfl
  · exact .inr (if_pos h)

theorem regionOf_of_window {nmax a : Nat} (h : inWWindow nmax a ∨ inNvWindow nmax a) :
    regionOf nmax a = .wWindow ∨ regionOf nmax a = .nvWindow :=
  h.elim (fun hw => .inl (regionOf_eq_wWindow_iff_inWWindow.mpr hw)) regionOf_of_inNvWindow

theorem serveRead_window_busy {s : State} {a : Nat} (hb : s.status.busy = true)
    (h : regionOf s.nmax a = .wWindow ∨ regionOf s.nmax a = .nvWindow) :
    s.serveRead a = s.windowReadBusy := by
  unfold State.serveRead
  rcases h with h | h <;> rw [h] <;> exact if_pos hb

theorem serveWrite_wWindow {s : State} {a : Nat} (v : Word) (h : inWWindow s.nmax a) :
    s.serveWrite a v = (s.wWrite a v).reply (.write .okay) := by
  rw [State.serveWrite, regionOf_eq_wWindow_iff_inWWindow.mpr h]

/-- Settles O41: in either window a busy read is `windowReadBusy`, and a busy W write sets HAZ
alone. -/
theorem windowAccessWhileBusy : Obligations.WindowAccessWhileBusy := by
  unfold Obligations.WindowAccessWhileBusy
  refine fun s a rest hl hb h4 => ⟨fun hwin he => ⟨Config.freeWord s.draws, ?read⟩,
    fun v hwin he => ?write⟩
  case read =>
    rw [step_servedRead hl he h4, serveRead_window_busy (s := { s with events := rest }) hb
      (regionOf_of_window hwin)]
    rfl
  case write =>
    rw [step_servedWrite hl he h4, serveWrite_wWindow (s := { s with events := rest }) v hwin]
    rcases wWrite_cases a.toNat v { s with events := rest } with ⟨_, hw⟩ | ⟨hb', _⟩
    · rw [hw]; rfl
    · rw [hb] at hb'; cases hb'

/-! ### A W write while idle (20_memory.md R63, R71) -/

/-- `W[r][c]` lies in the word at a W offset exactly when r and c / 32 are the row and the word
index that the offset gives; and then it lies in byte c % 32 / 8 of that word. -/
theorem wAddr_in_word_iff {nmax a r c l : Nat} (ha : wBase ≤ a) (h4 : a % 4 = 0)
    (hc : c < 2 * nmax) :
    (l < 4 ∧ wAddr nmax r c = a + l)
      ↔ (r = (a - wBase) / 4 / wprW nmax ∧ c / 32 = (a - wBase) / 4 % wprW nmax)
        ∧ l = c % 32 / 8 := by
  have hword : a = wBase + 4 * ((a - wBase) / 4) := by unfold wBase at *; omega
  have hcw : c / 32 < wprW nmax := by unfold wprW; omega
  have hq := Nat.div_add_mod ((a - wBase) / 4) (wprW nmax)
  have hmod : (a - wBase) / 4 % wprW nmax < wprW nmax := Nat.mod_lt _ (by omega)
  rw [wAddr_eq_word]
  constructor
  · rintro ⟨hl, haddr⟩
    have hrow := row_byte_unique (stride := wprW nmax) (r := r) (b := c / 32)
      (r' := (a - wBase) / 4 / wprW nmax) (b' := (a - wBase) / 4 % wprW nmax) hcw hmod (by omega)
    exact ⟨hrow, by omega⟩
  · rintro ⟨⟨hr, hw⟩, rfl⟩
    have hsame : wprW nmax * r + c / 32 = (a - wBase) / 4 := by rw [hr, hw, hq]
    omega

/-- The bits that a W write stores. -/
theorem inFoot_wWordFoot_wAddr {nmax a r c : Nat} (ha : wBase ≤ a) (h4 : a % 4 = 0)
    (hc : c < 2 * nmax) :
    inFoot (wWordFoot nmax a) (wAddr nmax r c) (c % 8) = true
      ↔ r = (a - wBase) / 4 / wprW nmax ∧ c / 32 = (a - wBase) / 4 % wprW nmax := by
  rw [inFoot_wWordFoot]
  constructor
  · rintro ⟨l, hl, haddr, _⟩
    exact ((wAddr_in_word_iff ha h4 hc).mp ⟨hl, haddr⟩).1
  · intro h
    obtain ⟨hl, haddr⟩ := (wAddr_in_word_iff ha h4 hc).mpr ⟨h, rfl⟩
    refine ⟨c % 32 / 8, hl, haddr, by omega, ?_⟩
    have hoffset : (a - wBase) % wStride nmax = 4 * (c / 32) := by
      have hword : a - wBase = 4 * ((a - wBase) / 4) := by unfold wBase at *; omega
      rw [hword, wStride, Nat.mul_mod_mul_left, h.2]
    omega

/-- The value that a W write stores in `W[r][c]`. -/
theorem getLsbD_laneOf_wAddr {nmax a r c : Nat} {v : Word} (ha : wBase ≤ a) (h4 : a % 4 = 0)
    (hc : c < 2 * nmax)
    (h : r = (a - wBase) / 4 / wprW nmax ∧ c / 32 = (a - wBase) / 4 % wprW nmax) :
    (laneOf v a (wAddr nmax r c)).getLsbD (c % 8) = v.getLsbD (c % 32) := by
  obtain ⟨_, haddr⟩ := (wAddr_in_word_iff ha h4 hc).mpr ⟨h, rfl⟩
  rw [haddr, getLsbD_laneOf v a _ (by omega)]
  congr 1
  omega

theorem inFoot_wWordFoot_outside {nmax a b j : Nat} (h : b < a ∨ a + 4 ≤ b) :
    inFoot (wWordFoot nmax a) b j = false := by
  rw [Bool.eq_false_iff]
  intro hin
  obtain ⟨l, hl, rfl, _⟩ := inFoot_wWordFoot.mp hin
  omega

theorem step_wWrite_idle {s : State} {a : Offset} {v : Word} {rest : List Event}
    (hl : s.resetLine = false) (hb : s.status.busy = false) (h4 : a.toNat % 4 = 0)
    (hwin : inWWindow s.nmax a.toNat) (he : s.events = .write a 4 v :: rest) :
    step s = .next { s with events := rest, answer := .write .okay,
                            mem := s.mem.writeFoot (wWordFoot s.nmax a.toNat)
                              (laneOf v a.toNat) } := by
  rw [step_servedWrite hl he h4, serveWrite_wWindow (s := { s with events := rest }) v hwin]
  rcases wWrite_cases a.toNat v { s with events := rest } with ⟨hb', _⟩ | ⟨_, hw⟩
  · rw [hb] at hb'; cases hb'
  · rw [hw]; rfl

/-- Settles O42: the write is the one of the word's footprint. -/
theorem wWriteStoresTheWord : Obligations.WWriteStoresTheWord := by
  unfold Obligations.WWriteStoresTheWord
  intro s a v rest hn hl hb h4 hwin he
  have ha : wBase ≤ a.toNat := hwin.1
  refine ⟨_, step_wWrite_idle hl hb h4 hwin he, rfl, fun r c hr hc => ?w, fun r c => ?nv,
    fun b j hout => Memory.bit_writeFoot_of_not_inFoot _ _ (inFoot_wWordFoot_outside hout)⟩
  case w =>
    show (s.mem.writeFoot _ _).bit (wAddr s.nmax r c) (c % 8) = _
    rw [Memory.bit_writeFoot]
    refine (if_congr (inFoot_wWordFoot_wAddr ha h4 hc) rfl rfl).trans ?_
    split
    · exact (congrArg some (getLsbD_laneOf_wAddr ha h4 hc ‹_›)).trans (if_pos ‹_›).symm
    · exact (if_neg ‹_›).symm
  case nv =>
    exact Memory.bit_writeFoot_of_not_inFoot _ _ (inFoot_wWordFoot_nv hn.2
      (regionOf_eq_wWindow_iff_inWWindow.mpr hwin) h4 (nvAddr_ge _ _ _))

/-! ### Reads while idle (20_memory.md R70, R72, 70_reset_and_hazards.md R255) -/

/-- The word with index w of a row of W or NV: `foot` holds its storage bits, the columns below
`cols` from 32w on, and `column` gives the row's bits. -/
structure WindowWord (s : State) (foot : List Host.Cell) (a cols w : Nat)
    (column : Nat → Option Bool) : Prop where
  mask : ∀ l, l < 4 → footMask foot (a + l) = colMask cols (4 * w + l)
  mem_foot : ∀ b j, inFoot foot b j = true ↔
    ∃ l, l < 4 ∧ b = a + l ∧ j < 8 ∧ 8 * (4 * w + l) + j < cols
  bit : ∀ j, j < 32 → s.mem.bit (a + j / 8) (j % 8) = column (32 * w + j)

section WindowWord

variable {s : State} {foot : List Host.Cell} {a cols w : Nat} {column : Nat → Option Bool}

/-- A word is written exactly when each of its columns is. -/
theorem WindowWord.footWritten_iff (h : WindowWord s foot a cols w column) :
    s.mem.footWritten foot = true
      ↔ ∀ j, j < 32 → 32 * w + j < cols → (column (32 * w + j)).isSome = true := by
  rw [Memory.footWritten_iff]
  constructor
  · intro hall j hj hc
    rw [← h.bit j hj]
    exact hall _ _ ((h.mem_foot _ _).mpr ⟨j / 8, by omega, rfl, by omega, by omega⟩)
  · intro hall b j hin
    obtain ⟨l, hl, rfl, hj, hc⟩ := (h.mem_foot _ _).mp hin
    have hbit := h.bit (8 * l + j) (by omega)
    have hdiv : (8 * l + j) / 8 = l := by omega
    have hmod : (8 * l + j) % 8 = j := by omega
    rw [hdiv, hmod] at hbit
    rw [hbit]
    exact hall _ (by omega) (by omega)

/-- A read that draws no value is no read that draws one. -/
theorem reply_ne_draw (s : State) (x y : Answer) :
    s.reply x ≠ { s.reply y with draws := s.draws + 1 } := fun h =>
  absurd (congrArg State.draws h) (Nat.ne_of_lt (Nat.lt_succ_self s.draws))

/-- A written word is returned whole, with 0 in the padding. -/
theorem WindowWord.read_written (h : WindowWord s foot a cols w column)
    (hw : ∀ j, j < 32 → 32 * w + j < cols → (column (32 * w + j)).isSome = true) :
    ∃ x : Word, s.windowRead foot a = s.reply (.read .okay x)
      ∧ ∀ j, j < 32 →
        x.getLsbD j = (decide (32 * w + j < cols) && (column (32 * w + j) == some true)) := by
  obtain ⟨x, hread, hbits⟩ := windowRead_bits h.mask h.bit
  refine ⟨x, ?_, fun j hj => ?_⟩
  · rcases windowRead_cases foot a s with ⟨_, v, hv⟩ | ⟨hun, _⟩
    · rcases hread with hx | hx
      · exact hx
      · exact absurd (hv.symm.trans hx) (reply_ne_draw _ _ _)
    · rw [h.footWritten_iff.mpr hw] at hun; cases hun
  · obtain ⟨hpadding, hstored⟩ := hbits j hj
    by_cases hc : 32 * w + j < cols
    · obtain ⟨b, hb⟩ := Option.isSome_iff_exists.mp (hw j hj hc)
      rw [hstored b hc hb, hb]
      simp [hc]
    · rw [hpadding (Nat.le_of_not_lt hc)]
      simp [hc]

/-- A word with an unwritten bit takes a drawn value, which shows in unwritten bits alone. -/
theorem WindowWord.read_unwritten (h : WindowWord s foot a cols w column)
    (hw : ∃ j, j < 32 ∧ 32 * w + j < cols ∧ column (32 * w + j) = none) :
    ∃ x : Word, s.windowRead foot a = { s.reply (.read .okay x) with draws := s.draws + 1 }
      ∧ ∀ j, j < 32 → (cols ≤ 32 * w + j → x.getLsbD j = false)
        ∧ ∀ b, 32 * w + j < cols → column (32 * w + j) = some b → x.getLsbD j = b := by
  obtain ⟨x, hread, hbits⟩ := windowRead_bits h.mask h.bit
  obtain ⟨j, hj, hc, hnone⟩ := hw
  refine ⟨x, ?_, hbits⟩
  rcases windowRead_cases foot a s with ⟨hwritten, _⟩ | ⟨_, v, hv⟩
  · have hsome := h.footWritten_iff.mp hwritten j hj hc
    rw [hnone] at hsome; cases hsome
  · rcases hread with hx | hx
    · exact absurd (hx.symm.trans hv) (reply_ne_draw _ _ _)
    · exact hx

end WindowWord

/-- The words of W (20_memory.md R63). -/
theorem wWindowWord (s : State) (r : Nat) {w : Nat} (hw : w < wprW s.nmax) :
    WindowWord s (wWordFoot s.nmax (wBase + 4 * (r * wprW s.nmax + w)))
      (wBase + 4 * (r * wprW s.nmax + w)) (2 * s.nmax) w (s.w r) where
  mask l hl := by rw [footMask_wWordFoot _ _ hl, wStride, wordOffset_mod hw]
  mem_foot b j := by rw [inFoot_wWordFoot, wStride, wordOffset_mod hw]
  bit j hj := by
    have hdiv : (32 * w + j) / 32 = w := by omega
    have haddr : wAddr s.nmax r (32 * w + j) = wBase + 4 * (r * wprW s.nmax + w) + j / 8 := by
      rw [wAddr_eq_word, hdiv, Nat.mul_comm (wprW s.nmax)]
      omega
    rw [State.w, haddr]
    congr 1
    omega

/-- The words of NV (20_memory.md R64). -/
theorem nvWindowWord (s : State) (r : Nat) {w : Nat} (hw : w < wprN s.nmax) :
    WindowWord s (nvWordFoot s.nmax (nvBase + 4 * (r * wprN s.nmax + w)))
      (nvBase + 4 * (r * wprN s.nmax + w)) s.nmax w (s.nv r) where
  mask l hl := by rw [footMask_nvWordFoot _ _ hl, nvStride, wordOffset_mod hw]
  mem_foot b j := by rw [inFoot_nvWordFoot, nvStride, wordOffset_mod hw]
  bit j hj := by
    have hdiv : (32 * w + j) / 32 = w := by omega
    have haddr : nvAddr s.nmax r (32 * w + j) = nvBase + 4 * (r * wprN s.nmax + w) + j / 8 := by
      rw [nvAddr_eq_word, hdiv, Nat.mul_comm (wprN s.nmax)]
      omega
    rw [State.nv, haddr]
    congr 1
    omega

/-- A word index below `rows * wpr` for a row and a word of the row. -/
theorem wordIndex_lt {rows wpr r w : Nat} (hr : r < rows) (hw : w < wpr) :
    4 * (r * wpr + w) < 4 * rows * wpr := by
  have hrow : (r + 1) * wpr ≤ rows * wpr := Nat.mul_le_mul_right _ hr
  rw [Nat.succ_mul] at hrow
  rw [Nat.mul_assoc]
  omega

theorem serveRead_w_idle {s : State} {r w : Nat} (hb : s.status.busy = false) (hr : r < s.nmax)
    (hw : w < wprW s.nmax) :
    s.serveRead (wBase + 4 * (r * wprW s.nmax + w))
      = s.windowRead (wWordFoot s.nmax (wBase + 4 * (r * wprW s.nmax + w)))
          (wBase + 4 * (r * wprW s.nmax + w)) := by
  have hlt := wordIndex_lt hr hw
  rw [State.serveRead, regionOf_eq_wWindow.mpr ⟨by omega, by unfold wBytes; omega⟩]
  exact if_neg (by simp [hb])

theorem serveRead_nv_idle {s : State} {r w : Nat} (hn : s.nmax ≤ 2047)
    (hb : s.status.busy = false) (hr : r < s.nmax) (hw : w < wprN s.nmax) :
    s.serveRead (nvBase + 4 * (r * wprN s.nmax + w))
      = s.windowRead (nvWordFoot s.nmax (nvBase + 4 * (r * wprN s.nmax + w)))
          (nvBase + 4 * (r * wprN s.nmax + w)) := by
  have hlt := wordIndex_lt hr hw
  rw [State.serveRead, (regionOf_eq_nvWindow hn).mpr ⟨by omega, by unfold nvBytes; omega⟩]
  exact if_neg (by simp [hb])

section IdleRead

variable {s : State} {a : Offset} {rest : List Event} {r w : Nat}

/-- An idle read of word w of row r of W. -/
theorem step_readW (hl : s.resetLine = false) (hb : s.status.busy = false)
    (h4 : a.toNat % 4 = 0) (he : s.events = .read a 4 :: rest) (hr : r < s.nmax)
    (hw : w < wprW s.nmax) (ha : a.toNat = wBase + 4 * (r * wprW s.nmax + w)) :
    step s = .next (({ s with events := rest } : State).windowRead
        (wWordFoot s.nmax (wBase + 4 * (r * wprW s.nmax + w)))
        (wBase + 4 * (r * wprW s.nmax + w))) := by
  rw [step_servedRead hl he h4, ha]
  exact congrArg _ (serveRead_w_idle (s := { s with events := rest }) hb hr hw)

/-- An idle read of word w of row r of NV. -/
theorem step_readNv (hn : s.nmax ≤ 2047) (hl : s.resetLine = false) (hb : s.status.busy = false)
    (h4 : a.toNat % 4 = 0) (he : s.events = .read a 4 :: rest) (hr : r < s.nmax)
    (hw : w < wprN s.nmax) (ha : a.toNat = nvBase + 4 * (r * wprN s.nmax + w)) :
    step s = .next (({ s with events := rest } : State).windowRead
        (nvWordFoot s.nmax (nvBase + 4 * (r * wprN s.nmax + w)))
        (nvBase + 4 * (r * wprN s.nmax + w))) := by
  rw [step_servedRead hl he h4, ha]
  exact congrArg _ (serveRead_nv_idle (s := { s with events := rest }) hn hb hr hw)

end IdleRead

/-- Settles O43: the words of both windows, written. -/
theorem windowReadReturnsTheWord : Obligations.WindowReadReturnsTheWord := by
  unfold Obligations.WindowReadReturnsTheWord
  refine fun s a rest hn hl hb h4 he => ⟨fun r w hr hw ha hwritten => ?w,
    fun r w hr hw ha hwritten => ?nv⟩
  case w =>
    obtain ⟨x, hread, hbits⟩ :=
      (wWindowWord { s with events := rest } r hw).read_written hwritten
    exact ⟨x, (step_readW hl hb h4 he hr hw ha).trans (congrArg _ hread), hbits⟩
  case nv =>
    obtain ⟨x, hread, hbits⟩ :=
      (nvWindowWord { s with events := rest } r hw).read_written hwritten
    exact ⟨x, (step_readNv hn.2 hl hb h4 he hr hw ha).trans (congrArg _ hread), hbits⟩

/-- Settles O44: the words of both windows, with an unwritten bit. -/
theorem windowReadOfUnwrittenBits : Obligations.WindowReadOfUnwrittenBits := by
  unfold Obligations.WindowReadOfUnwrittenBits
  refine fun s a rest hn hl hb h4 he => ⟨fun r w hr hw ha hunwritten => ?w,
    fun r w hr hw ha hunwritten => ?nv⟩
  case w =>
    obtain ⟨x, hread, hbits⟩ :=
      (wWindowWord { s with events := rest } r hw).read_unwritten hunwritten
    exact ⟨x, (step_readW hl hb h4 he hr hw ha).trans (congrArg _ hread), hbits⟩
  case nv =>
    obtain ⟨x, hread, hbits⟩ :=
      (nvWindowWord { s with events := rest } r hw).read_unwritten hunwritten
    exact ⟨x, (step_readNv hn.2 hl hb h4 he hr hw ha).trans (congrArg _ hread), hbits⟩

end Sys2Proof.Machine

/-! ELIM and INV on an operand with an unwritten bit, and on a written one: fixed operands, the
right block of INV, the rank of the operand and the null vectors. -/

namespace Sys2Proof.Machine

open Sys2Proof

/-! ### Unwritten operands (70_reset_and_hazards.md R255) -/

theorem exec_elim_unwritten {s : State} {m k : Nat} (h1 : 1 ≤ m) (hm : m ≤ s.nmax) (hmk : m ≤ k)
    (hk : k ≤ 2 * s.nmax) (hw : ¬ s.wWritten m k) :
    exec (.elim m k) s = .next (s.unspecifiedResult (wFoot s.nmax m k)).complete := by
  rw [exec_elim]
  rcases execElim_cases m k s with ⟨hbad, _⟩ | ⟨_, hfoot, _⟩ | ⟨_, _, he⟩
  · have hshape := elimShapeBad_iff.mp hbad
    omega
  · exact absurd ((footWritten_wFoot hk).mp hfoot) hw
  · exact he

theorem exec_inv_unwritten {s : State} {n : Nat} (h1 : 1 ≤ n) (hn : n ≤ s.nmax)
    (hw : ¬ s.wWritten n n) :
    exec (.inv n n) s
      = .next (s.unspecifiedResult (wFoot s.nmax n (2 * n) ++ nvFoot s.nmax)).complete := by
  rw [exec_inv]
  rcases execInv_cases n n s with ⟨hbad, _⟩ | ⟨_, hfoot, _⟩ | ⟨_, _, he⟩
  · have hshape := invShapeBad_iff.mp hbad
    omega
  · exact absurd ((footWritten_wFoot (by omega)).mp hfoot) hw
  · exact he

/-- Every bit of a footprint is written after the footprint was. -/
theorem Memory.isSome_bit_writeFoot {foot : List Host.Cell} {a j : Nat} (m : Memory)
    (f : Nat → Byte) (h : inFoot foot a j = true) :
    ((m.writeFoot foot f).bit a j).isSome = true := by
  rw [Memory.bit_writeFoot, if_pos h]
  rfl

/-- Settles O19: the output footprint takes free bytes. -/
theorem elimOnUnwrittenOperand : Obligations.ElimOnUnwrittenOperand := by
  unfold Obligations.ElimOnUnwrittenOperand
  intro s m k hn h1 hm hmk hk hw
  have he := exec_elim_unwritten h1 hm hmk hk hw
  obtain ⟨_, hnv, hout⟩ := exec_elim_frame hn.2 he
  exact ⟨_, he, fun r hr c hc => Memory.isSome_bit_writeFoot _ _
      ((inFoot_wFoot_wAddr (by omega) hk).mpr ⟨hr, hc⟩), rfl, hout,
    fun r c => hnv _ _ (nvAddr_ge _ _ _), fun _ _ => Memory.bit_writeFoot_of_not_inFoot _ _⟩

/-- Settles O26: the two output footprints take free bytes. -/
theorem invOnUnwrittenOperand : Obligations.InvOnUnwrittenOperand := by
  unfold Obligations.InvOnUnwrittenOperand
  intro s n hn h1 hle hw
  have he := exec_inv_unwritten h1 hle hw
  obtain ⟨_, hout⟩ := exec_inv_frame hn.2 he
  refine ⟨_, he, fun r hr c hc => ?w, fun v hv c hc => ?nv, rfl, hout, fun a j ha hb => ?frame⟩
  case w =>
    refine Memory.isSome_bit_writeFoot _ _ ?_
    rw [inFoot_append, Bool.or_eq_true]
    exact .inl ((inFoot_wFoot_wAddr (by omega) (by omega)).mpr ⟨hr, hc⟩)
  case nv =>
    refine Memory.isSome_bit_writeFoot _ _ ?_
    rw [inFoot_append, Bool.or_eq_true]
    exact .inr ((inFoot_nvFoot_nvAddr hc).mpr hv)
  case frame =>
    refine Memory.bit_writeFoot_of_not_inFoot _ _ ?_
    rw [inFoot_append, ha, hb]
    rfl

/-! ### Operands that ELIM leaves as they are (41_elimination.md R163) -/

/-- A bit of a block of W is that of a row and a column. -/
theorem exists_wAddr_of_inFoot {nmax m k a j : Nat} (h : inFoot (wFoot nmax m k) a j = true) :
    ∃ r c, r < m ∧ c < k ∧ a = wAddr nmax r c ∧ j = c % 8 := by
  obtain ⟨r, b, hr, rfl, hj, hb⟩ := (inFoot_blockFoot _ _ _ _ _ _).mp h
  have hdiv : (8 * b + j) / 8 = b := by omega
  exact ⟨r, 8 * b + j, hr, hb, by rw [wAddr, hdiv], by omega⟩

theorem w_eq_wBlock {s : State} {m k r c : Nat} (h : s.wWritten m k) (hr : r < m) (hc : c < k) :
    s.w r c = some (s.wBlock m k r c) := by
  obtain ⟨b, hb⟩ := Option.isSome_iff_exists.mp (h r hr c hc)
  cases b <;> simp [State.wBlock, hr, hc, hb]

/-- A loop that gives its operand back leaves every bit of the memory. -/
theorem elimResult_fixed {s : State} {m k d : Nat} (h : ElimOperand s m k)
    (hrun : EliminationRun m 0 (s.wBlock m k) (s.wBlock m k) d) :
    (elimResult s m k).nulldim.toNat = d
      ∧ ∀ a j, (elimResult s m k).mem.bit a j = s.mem.bit a j := by
  obtain ⟨hB, hd⟩ := (elimResult_run h).unique hrun
  refine ⟨(elimResult_nulldim h).trans hd, fun a j => ?_⟩
  cases hin : inFoot (wFoot s.nmax m k) a j with
  | false => exact bit_elimResult_of_not_inFoot hin
  | true =>
    obtain ⟨r, c, hr, hc, rfl, rfl⟩ := exists_wAddr_of_inFoot hin
    show (elimResult s m k).w r c = s.w r c
    rw [elimResult_wHolds h r hr c hc, hB, w_eq_wBlock h.written hr hc]

theorem eliminationRun_zero {m : Nat} {A : Bits} (hm : 1 ≤ m)
    (hzero : ∀ r, r < m → A r 0 = false) : EliminationRun m 0 A A m :=
  EliminationRun.stopped 0 A hm fun r _ hr => hzero r hr

theorem exchanged_self (A : Bits) (i : Nat) : exchanged A i i = A := by
  funext j c
  unfold exchanged
  split <;> simp [*]

/-- A unit column is clear already. -/
theorem columnCleared_of_unit {A : Bits} {i : Nat} (h : ∀ j, j ≠ i → A j i = false) :
    columnCleared A i = A := by
  funext j c
  unfold columnCleared
  split
  · rfl
  · rename_i hj
    rw [h j hj, Bool.false_and, Bool.xor_false]

/-- On an identity block, 0 below it, each column has its pivot in place and nothing to clear. -/
theorem eliminationRun_identity {m : Nat} {A : Bits} (hunit : UnitColumns m m A)
    (hbelow : ∀ r c, m ≤ r → A r c = false) (i : Nat) (hi : i ≤ m) : EliminationRun m i A A 0 := by
  induction hi using Nat.decreasingInduction with
  | self => exact .finished A
  | of_succ i hi ih =>
    have hentry : ∀ j, j ≠ i → A j i = false := by
      intro j hj
      rcases Nat.lt_or_ge j m with hjm | hjm
      · rw [hunit j hjm i hi, decide_eq_false hj]
      · exact hbelow j i hjm
    have hpivot : IsPivot A m i i :=
      ⟨le_rfl, hi, by rw [hunit i hi i hi]; exact decide_eq_true rfl, fun r hle hlt => by omega⟩
    refine .column i i 0 A A hi hpivot ?_
    rw [exchanged_self, columnCleared_of_unit hentry]
    exact ih

/-- Settles O23: the loop stops at column 0 of the zero operand, and runs through an identity
block without a change. -/
theorem elimFixedOperands : Obligations.ElimFixedOperands := by
  unfold Obligations.ElimFixedOperands
  intro s m k hn h1 hm hmk hk hw
  have h : ElimOperand s m k := ⟨hn.2, h1, hm, hmk, hk, hw⟩
  refine ⟨fun hzero => ⟨_, exec_elim_written h, elimResult_fixed h ?zero⟩,
    fun hunit => ⟨_, exec_elim_written h, elimResult_fixed h ?identity⟩⟩
  case zero =>
    refine eliminationRun_zero h1 fun r hr => ?_
    simp [State.wBlock, hzero r hr 0 (by omega)]
  case identity =>
    refine eliminationRun_identity (fun r hr c hc => ?_) (fun r c hr => ?_) 0 (Nat.zero_le m)
    · have hck : c < k := by omega
      simp [State.wBlock, hunit r hr c hc, hr, hck]
    · simp [State.wBlock, Nat.not_lt.mpr hr]

/-! ### The right block before INV (42_inversion.md R190) -/

/-- Settles O29: both runs start from `[A | I]` of one A, and the loop has one result. -/
theorem invIgnoresTheRightBlock : Obligations.InvIgnoresTheRightBlock := by
  unfold Obligations.InvIgnoresTheRightBlock
  intro s u n hn hnmax h1 hle hw hsame
  have hs : InvOperand s n := ⟨hn.2, h1, hle, hw⟩
  have hu : InvOperand u n := ⟨hnmax ▸ hn.2, h1, hnmax ▸ hle, fun r hr c hc => by
    rw [hsame r hr c hc]; exact hw r hr c hc⟩
  have hblock : u.wBlock n n = s.wBlock n n := by
    funext r c
    unfold State.wBlock
    by_cases hin : r < n ∧ c < n
    · rw [hsame r hin.1 c hin.2]
    · rcases not_and_or.mp hin with h | h <;> simp [h]
  have hrun := invElimination_run hu
  rw [hblock] at hrun
  obtain ⟨hB, hd⟩ := hrun.unique (invElimination_run hs)
  refine ⟨_, _, exec_inv_written hs, exec_inv_written hu, fun r hr c hc => ?w,
    fun r hr c hc => ?nv, BitVec.eq_of_toNat_eq ?nulldim⟩
  case w => rw [invResult_wHolds hu r hr c hc, invResult_wHolds hs r hr c hc, hB]
  case nv => rw [nv_invResult (by omega) (by omega), nv_invResult hr hc, hB, hd]
  case nulldim => rw [invResult_nulldim hu, invResult_nulldim hs, hd]

/-! ### Rank and null space of `[1 C; 0 Y]` over a field -/

section BlockRank

variable {K : Type*} [Field K] {m n : Type*} [Fintype n]

theorem rank_add_finrank_ker (A : Matrix m n K) :
    A.rank + Module.finrank K (LinearMap.ker A.mulVecLin) = Fintype.card n := by
  rw [Matrix.rank, LinearMap.finrank_range_add_finrank_ker, Module.finrank_fintype_fun_eq_card]

theorem rank_eq_zero_iff [DecidableEq n] (A : Matrix m n K) : A.rank = 0 ↔ A = 0 := by
  constructor
  · intro h
    rw [Matrix.rank, Submodule.finrank_eq_zero, LinearMap.range_eq_bot] at h
    ext r c
    have hcol : A.mulVec (Pi.single c 1) = 0 := LinearMap.congr_fun h (Pi.single c 1)
    rw [Matrix.mulVec_single_one] at hcol
    exact congrFun hcol r
  · rintro rfl
    exact Matrix.rank_zero

variable [Fintype m] [DecidableEq m]

/-- `[1 C; 0 Y]`. -/
def unitBlocks (C : Matrix m n K) (Y : Matrix n n K) : Matrix (m ⊕ n) (m ⊕ n) K :=
  Matrix.fromBlocks 1 C 0 Y

variable {C : Matrix m n K} {Y : Matrix n n K}

theorem mulVec_unitBlocks (x : m ⊕ n → K) :
    (unitBlocks C Y).mulVec x
      = Sum.elim (x ∘ Sum.inl + C.mulVec (x ∘ Sum.inr)) (Y.mulVec (x ∘ Sum.inr)) := by
  rw [unitBlocks, Matrix.fromBlocks_mulVec, Matrix.one_mulVec, Matrix.zero_mulVec, zero_add]

/-- A null vector of `[1 C; 0 Y]` is a null vector y of Y below `-C y`. -/
theorem mem_ker_unitBlocks {x : m ⊕ n → K} :
    x ∈ LinearMap.ker (unitBlocks C Y).mulVecLin
      ↔ x ∘ Sum.inl = -C.mulVec (x ∘ Sum.inr) ∧ Y.mulVec (x ∘ Sum.inr) = 0 := by
  rw [LinearMap.mem_ker, Matrix.mulVecLin_apply, mulVec_unitBlocks, ← Sum.elim_zero_zero,
    Sum.elim_eq_iff, add_eq_zero_iff_eq_neg]

theorem finrank_ker_unitBlocks :
    Module.finrank K (LinearMap.ker (unitBlocks C Y).mulVecLin)
      = Module.finrank K (LinearMap.ker Y.mulVecLin) := by
  have hmem : ∀ x ∈ LinearMap.ker (unitBlocks C Y).mulVecLin,
      LinearMap.funLeft K K Sum.inr x ∈ LinearMap.ker Y.mulVecLin :=
    fun x hx => (mem_ker_unitBlocks.mp hx).2
  refine (LinearEquiv.ofBijective ((LinearMap.funLeft K K Sum.inr).restrict hmem)
    ⟨?injective, ?surjective⟩).finrank_eq
  case injective =>
    rintro ⟨x, hx⟩ ⟨y, hy⟩ hxy
    have hr : x ∘ Sum.inr = y ∘ Sum.inr := congrArg Subtype.val hxy
    have hl : x ∘ Sum.inl = y ∘ Sum.inl := by
      rw [(mem_ker_unitBlocks.mp hx).1, (mem_ker_unitBlocks.mp hy).1, hr]
    have hxy' : x = y := by rw [← Sum.elim_comp_inl_inr x, ← Sum.elim_comp_inl_inr y, hl, hr]
    exact Subtype.ext hxy'
  case surjective =>
    rintro ⟨y, hy⟩
    exact ⟨⟨Sum.elim (-C.mulVec y) y, mem_ker_unitBlocks.mpr ⟨rfl, hy⟩⟩, rfl⟩

theorem rank_unitBlocks : (unitBlocks C Y).rank = Fintype.card m + Y.rank := by
  have hblocks := rank_add_finrank_ker (unitBlocks C Y)
  have hY := rank_add_finrank_ker Y
  rw [finrank_ker_unitBlocks, Fintype.card_sum] at hblocks
  omega

end BlockRank

/-! ### The result of the loop in blocks (41_elimination.md R161) -/

theorem gf2Matrix_apply {m k : Nat} (A : Bits) (r : Fin m) (c : Fin k) :
    gf2Matrix m k A r c = if A r c then 1 else 0 := rfl

/-- With s unit columns the result is `[1 C; 0 Y]`. -/
theorem gf2Matrix_eq_unitBlocks {s d : Nat} {B : Bits} (h : UnitColumns (s + d) s B) :
    (gf2Matrix (s + d) (s + d) B).submatrix finSumFinEquiv finSumFinEquiv
      = unitBlocks (gf2Matrix s d (B.from 0 s)) (gf2Matrix d d (B.from s s)) := by
  ext (r | r) (c | c)
  · simp [unitBlocks, gf2Matrix, h r (by omega) c c.isLt, Matrix.one_apply, Fin.ext_iff]
  · rw [unitBlocks, Matrix.submatrix_apply, Matrix.fromBlocks_apply₁₂, gf2Matrix_apply,
      gf2Matrix_apply, Bits.from, Nat.zero_add]
    rfl
  · have hne : ¬ s + (r : Nat) = c := by omega
    simp [unitBlocks, gf2Matrix, h (s + r) (by omega) c c.isLt, hne]
  · rfl

/-- rank = s + rank(Y), with s = m - d the number of unit columns. -/
theorem rank_of_unitColumns {m d : Nat} {B : Bits} (hd : d ≤ m) (h : UnitColumns m (m - d) B) :
    (gf2Matrix m m B).rank = (m - d) + (gf2Matrix d d (B.from (m - d) (m - d))).rank := by
  obtain ⟨s, rfl⟩ := Nat.exists_eq_add_of_le' hd
  rw [Nat.add_sub_cancel] at h ⊢
  rw [← Matrix.rank_submatrix _ finSumFinEquiv finSumFinEquiv, gf2Matrix_eq_unitBlocks h,
    rank_unitBlocks, Fintype.card_fin]

/-- Row equivalence keeps the rank of every block of leading columns. -/
theorem RowEquivalent.rank_eq {m k l : Nat} {A B : Bits} (h : RowEquivalent m k A B)
    (hl : l ≤ k) : (gf2Matrix m l B).rank = (gf2Matrix m l A).rank := by
  obtain ⟨E, hE, hB⟩ := h
  rw [← gf2Matrix_from_zero B, gf2Matrix_from_eq_mul (by omega) hB, gf2Matrix_from_zero,
    Matrix.rank_mul_eq_right_of_isUnit_det E _ ((Matrix.isUnit_iff_isUnit_det E).mp hE)]

/-- A matrix over GF(2) is 0 when each of its bits is. -/
theorem gf2Matrix_eq_zero_iff {m k : Nat} {A : Bits} :
    gf2Matrix m k A = 0 ↔ ∀ r, r < m → ∀ c, c < k → A r c = false := by
  constructor
  · intro h r hr c hc
    have hentry := congrFun₂ h ⟨r, hr⟩ ⟨c, hc⟩
    simpa [gf2Matrix] using hentry
  · intro h
    ext r c
    simp [gf2Matrix, h r r.isLt c c.isLt]

/-- The block Y, read in W. -/
theorem gf2Matrix_from_eq_zero_iff {t : State} {m k d : Nat} {B : Bits} (hB : t.wHolds m k B)
    (hd : d ≤ m) (hmk : m ≤ k) :
    gf2Matrix d d (B.from (m - d) (m - d)) = 0
      ↔ ∀ r, m - d ≤ r → r < m → ∀ c, m - d ≤ c → c < m → t.w r c = some false := by
  rw [gf2Matrix_eq_zero_iff]
  constructor
  · intro h r hr hrm c hc hcm
    have hentry := h (r - (m - d)) (by omega) (c - (m - d)) (by omega)
    rw [Bits.from, Nat.add_sub_cancel' hr, Nat.add_sub_cancel' hc] at hentry
    rw [hB r hrm c (by omega), hentry]
  · intro h r hr c hc
    have hentry := h (m - d + r) (by omega) (by omega) (m - d + c) (by omega) (by omega)
    rw [hB _ (by omega) _ (by omega)] at hentry
    exact Option.some.inj hentry

/-- Settles O22: the rank is that of the row-equivalent result, read off its blocks. -/
theorem elimNulldimAndRank : Obligations.ElimNulldimAndRank := by
  unfold Obligations.ElimNulldimAndRank
  intro s m k hn h1 hm hmk hk hw
  obtain ⟨t, B, he, hrun, hB⟩ := exec_elim_run ⟨hn.2, h1, hm, hmk, hk, hw⟩
  have hd := hrun.le
  have hoperand : gf2Matrix m m (s.wBlock m k) = gf2Matrix m m (s.wBlock m m) :=
    gf2Matrix_congr fun r hr c hc => by
      have hck : c < k := by omega
      simp [State.wBlock, hc, hck]
  have hY : gf2Matrix t.nulldim.toNat t.nulldim.toNat
      ((t.wBlock m m).from (m - t.nulldim.toNat) (m - t.nulldim.toNat))
        = gf2Matrix t.nulldim.toNat t.nulldim.toNat
          (B.from (m - t.nulldim.toNat) (m - t.nulldim.toNat)) :=
    gf2Matrix_congr fun r hr c hc => wBlock_of_wHolds
      (fun r hr c hc => hB r hr c (by omega)) (by omega) (by omega)
  have hrank : (gf2Matrix m m (s.wBlock m m)).rank = (m - t.nulldim.toNat)
      + (gf2Matrix t.nulldim.toNat t.nulldim.toNat
          (B.from (m - t.nulldim.toNat) (m - t.nulldim.toNat))).rank := by
    rw [← hoperand, ← (hrun.rowEquivalent k).rank_eq hmk,
      rank_of_unitColumns hd hrun.unitColumns_result]
  refine ⟨t, he, by rw [hY]; exact hrank, ?_⟩
  rw [← gf2Matrix_from_eq_zero_iff hB hd hmk, ← rank_eq_zero_iff, hrank]
  omega

/-! ### The null vectors (42_inversion.md R191) -/

/-- Null vector v is column v of C above the unit vector of v. -/
theorem nullVector_comp {s d : Nat} (B : Bits) (v : Fin d) :
    gf2Matrix d (s + d) (nullVectorOf B (s + d) d) v ∘ finSumFinEquiv
      = Sum.elim ((gf2Matrix s d (B.from 0 s)).col v) (Pi.single v 1) := by
  funext x
  rcases x with r | r
  · simp [gf2Matrix, nullVectorOf, Bits.from]
  · simp [gf2Matrix, nullVectorOf, Pi.single_apply, Fin.ext_iff]

/-- In the last d coordinates the null vectors are unit vectors. -/
theorem linearIndependent_nullVectors {n d : Nat} (B : Bits) (hd : d ≤ n) :
    LinearIndependent (ZMod 2) (fun v : Fin d => gf2Matrix d n (nullVectorOf B n d) v) := by
  obtain ⟨s, rfl⟩ := Nat.exists_eq_add_of_le' hd
  refine LinearIndependent.of_comp (LinearMap.funLeft (ZMod 2) (ZMod 2) (finSumFinEquiv ∘ Sum.inr))
    ?_
  have htail : LinearMap.funLeft (ZMod 2) (ZMod 2) (finSumFinEquiv ∘ Sum.inr)
      ∘ (fun v : Fin d => gf2Matrix d (s + d) (nullVectorOf B (s + d) d) v)
      = fun v : Fin d => Pi.single v 1 := by
    funext v
    exact congrArg (· ∘ Sum.inr) (nullVector_comp B v)
  rw [htail]
  exact Pi.linearIndependent_single_one (Fin d) (ZMod 2)

/-- `[1 C; 0 Y]` maps null vector v to column v of Y, below C v + C v = 0. -/
theorem mulVec_nullVector {s d : Nat} {B : Bits} (h : UnitColumns (s + d) s B) (v : Fin d) :
    (gf2Matrix (s + d) (s + d) B).mulVec (gf2Matrix d (s + d) (nullVectorOf B (s + d) d) v)
        ∘ finSumFinEquiv
      = Sum.elim (0 : Fin s → ZMod 2) ((gf2Matrix d d (B.from s s)).col v) := by
  have hdouble : ∀ x : Fin s → ZMod 2, x + x = 0 :=
    fun x => funext fun r => CharTwo.add_self_eq_zero (x r)
  have hsub := Matrix.submatrix_mulVec_equiv (gf2Matrix (s + d) (s + d) B)
    (gf2Matrix d (s + d) (nullVectorOf B (s + d) d) v ∘ finSumFinEquiv) finSumFinEquiv
    finSumFinEquiv
  rw [Function.comp_assoc, Equiv.self_comp_symm, Function.comp_id] at hsub
  rw [← hsub, gf2Matrix_eq_unitBlocks h, nullVector_comp, mulVec_unitBlocks, Sum.elim_comp_inl,
    Sum.elim_comp_inr, Matrix.mulVec_single_one, Matrix.mulVec_single_one, hdouble]

theorem mulVec_nullVectors_eq_zero_iff {n d : Nat} {B : Bits} (hd : d ≤ n)
    (h : UnitColumns n (n - d) B) :
    (∀ v : Fin d, (gf2Matrix n n B).mulVec (gf2Matrix d n (nullVectorOf B n d) v) = 0)
      ↔ gf2Matrix d d (B.from (n - d) (n - d)) = 0 := by
  obtain ⟨s, rfl⟩ := Nat.exists_eq_add_of_le' hd
  rw [Nat.add_sub_cancel] at h ⊢
  have hcol : ∀ v : Fin d,
      (gf2Matrix (s + d) (s + d) B).mulVec (gf2Matrix d (s + d) (nullVectorOf B (s + d) d) v) = 0
        ↔ (gf2Matrix d d (B.from s s)).col v = 0 := by
    intro v
    rw [← (Equiv.surjective finSumFinEquiv).injective_comp_right.eq_iff, mulVec_nullVector h v,
      Pi.zero_comp, ← Sum.elim_zero_zero, Sum.elim_eq_iff]
    simp
  simp only [hcol]
  exact ⟨fun hzero => Matrix.ext fun r c => congrFun (hzero c) r, fun hzero v => by rw [hzero]; rfl⟩

/-- As many independent null vectors as the nullity span the null space. -/
theorem span_eq_ker {K : Type*} [Field K] {n d : Nat} {A : Matrix (Fin n) (Fin n) K}
    {N : Fin d → Fin n → K} (hN : LinearIndependent K N) (hnull : ∀ v, A.mulVec (N v) = 0)
    (hrank : d + A.rank = n) : Submodule.span K (Set.range N) = LinearMap.ker A.mulVecLin := by
  have hker := rank_add_finrank_ker A
  rw [Fintype.card_fin] at hker
  have hle : Submodule.span K (Set.range N) ≤ LinearMap.ker A.mulVecLin := by
    rw [Submodule.span_le]
    rintro _ ⟨v, rfl⟩
    exact hnull v
  refine Submodule.eq_of_le_of_finrank_eq hle ?_
  rw [finrank_span_eq_card hN, Fintype.card_fin]
  omega

/-- An invertible factor on the left keeps the null vectors. -/
theorem mulVec_mul_eq_zero_iff {n : Nat} {R A : Matrix (Fin n) (Fin n) (ZMod 2)} (hR : IsUnit R)
    (x : Fin n → ZMod 2) : (R * A).mulVec x = 0 ↔ A.mulVec x = 0 := by
  rw [← Matrix.mulVec_mulVec]
  exact (Matrix.mulVec_injective_of_isUnit hR).eq_iff' (Matrix.mulVec_zero R)

/-- Settles O28: R * A = L with R invertible, L = `[1 C; 0 Y]`, and the null vectors are the
columns of C above unit vectors. -/
theorem invNullVectors : Obligations.InvNullVectors := by
  unfold Obligations.InvNullVectors
  intro s n hn h1 hle hw
  obtain ⟨t, B, d, he, hrun, hdn, rfl, hB, hnv, _⟩ := invRunsTheInversion s n hn h1 hle hw
  obtain ⟨hR, hproduct⟩ := (hrun.rowEquivalent (2 * n)).augmented_blocks
  have hunit := hrun.unitColumns_result
  have hN : gf2Matrix t.nulldim.toNat n (t.nvBlock n n)
      = gf2Matrix t.nulldim.toNat n (nullVectorOf B n t.nulldim.toNat) :=
    gf2Matrix_congr fun v hv c hc => by
      have hvn : v < n := by omega
      simp [State.nvBlock, hnv v (by omega) c (by omega), hv, hvn, hc]
  have hnull : (∀ v : Fin t.nulldim.toNat, Matrix.mulVec (gf2Matrix n n (s.wBlock n n))
        (gf2Matrix t.nulldim.toNat n (nullVectorOf B n t.nulldim.toNat) v) = 0)
      ↔ gf2Matrix t.nulldim.toNat t.nulldim.toNat
          (B.from (n - t.nulldim.toNat) (n - t.nulldim.toNat)) = 0 := by
    rw [← mulVec_nullVectors_eq_zero_iff hdn hunit, ← hproduct]
    exact forall_congr' fun v => (mulVec_mul_eq_zero_iff hR _).symm
  have hY := gf2Matrix_from_eq_zero_iff hB hdn (by omega)
  have hindep := linearIndependent_nullVectors B hdn
  refine ⟨t, he, ?_⟩
  rw [hN]
  refine ⟨hindep, hnull.trans hY, fun hzero => ?_⟩
  have hrank : t.nulldim.toNat + (gf2Matrix n n (s.wBlock n n)).rank = n := by
    rw [← Matrix.rank_mul_eq_right_of_isUnit_det _ _ ((Matrix.isUnit_iff_isUnit_det _).mp hR),
      hproduct, rank_of_unitColumns hdn hunit, hY.mpr hzero, Matrix.rank_zero]
    omega
  exact ⟨hrank, span_eq_ker hindep (hnull.mpr (hY.mpr hzero)) hrank⟩

end Sys2Proof.Machine
